-- ==== Sys2Proof/Word.lean ====
section
/-! DEFINITION. Words, bytes and line levels (00_scope.md R15, 10_state.md R50). -/

namespace Sys2Proof

/-- One byte, bit 7 most significant (R15). -/
abbrev Byte := BitVec 8

/-- One word of the host data bus, and one card byte address (R10). -/
abbrev Word := BitVec 32

/-- The electrical level of a line (R50). -/
inductive Level where
  | low
  | high
  deriving DecidableEq, Repr, Inhabited

/-- The other level. -/
def Level.not : Level → Level
  | .low => .high
  | .high => .low

/-- The PINS bit of a level: 1 = High, 0 = Low (R48). -/
def Level.isHigh : Level → Bool
  | .low => false
  | .high => true

end Sys2Proof
end

