-- ==== Sys2Proof/Config.lean ====
section
/-! DEFINITION. The parameters of an engine instance (00_scope.md R9 to R14) and the free values: the draws no rule
constrains (00_scope.md R18, 10_state.md R49). -/

namespace Sys2Proof.Config

/-- One action of the panel configuration table INIT_SEQ (43_display.md R225). -/
inductive InitStep where
  /-- Send the display opcode; one of the thirteen of R100 is followed by its own parameter bytes. -/
  | opcode (b : Byte)
  /-- One data transaction of the bytes: for a table that adds steps (91_not_in_source.md N35). -/
  | data (bytes : List Byte)
  /-- The busy-wait WaitIdle() (R222). -/
  | waitIdle
  deriving DecidableEq, Repr

/-- The parameters a model takes as arguments (R11, R12, R13, R9). They are fixed per engine instance and no host
register writes them (R303), so they stand in the state and no step changes them: a statement about every state holds
for every value of them. -/
structure Params where
  /-- POLL_LIMIT: the bound on each poll or retry loop, or none (R11, R133). -/
  pollLimit : Option Nat
  /-- N_IDLE: idle bytes before the first command (R11). -/
  nIdle : Nat
  /-- PLANE_LEN: the bytes of one colour plane (R9). -/
  planeLen : Nat
  arg55 : Word
  arg41 : Word
  arg12 : Word
  chk55 : Byte
  chk41 : Byte
  chk17 : Byte
  chk18 : Byte
  chk12 : Byte
  /-- FILL_RD: the byte sent on every read transfer: R1 probe, token, payload and trailer (R11, R99). That the probe is it
  in every instance is DEDUCED (log 25). -/
  fillRd : Byte
  /-- CS_ACTIVE (R12). -/
  csActive : Level
  /-- RST_ACTIVE (R12). -/
  rstActive : Level
  /-- DC_CMD (R12); DC_DATA is the other level (log 7). -/
  dcCmd : Level
  /-- BUSY_ACTIVE (R12). -/
  busyActive : Level
  pPwr : List Byte
  pPsr : List Byte
  pTres : List Byte
  pDuspi : List Byte
  pCdi : List Byte
  pTcon : List Byte
  initSeq : List InitStep
  deriving DecidableEq, Repr

/-- DC_DATA (R12): the level of DC for data bytes. DEDUCED (log 7): the level that is not DC_CMD. -/
def Params.dcData (p : Params) : Level := p.dcCmd.not

/-- The values this hardware takes (R9, R11), and the spec's defaults (R12, R225). PRESUMED (log 6): the polarities and
the panel's parameter bytes are the spec's own general knowledge. -/
def hardware : Params where
  pollLimit := none
  nIdle := 10
  planeLen := 48000
  arg55 := 0x00000000#32
  arg41 := 0x00000000#32
  arg12 := 0x00000000#32
  chk55 := 0xFF#8
  chk41 := 0xFF#8
  chk17 := 0xFF#8
  chk18 := 0xFF#8
  chk12 := 0xFF#8
  fillRd := 0xFF#8
  csActive := .low
  rstActive := .low
  dcCmd := .low
  busyActive := .low
  pPwr := [0x07#8, 0x07#8, 0x3F#8, 0x3F#8]
  pPsr := [0x0F#8]
  pTres := [0x03#8, 0x20#8, 0x01#8, 0xE0#8]
  pDuspi := [0x00#8]
  pCdi := [0x11#8, 0x07#8]
  pTcon := [0x22#8]
  initSeq := [.opcode 0x01#8, .opcode 0x04#8, .waitIdle, .opcode 0x00#8, .opcode 0x61#8, .opcode 0x15#8,
    .opcode 0x50#8, .opcode 0x60#8]

/-- The result of one sample of the BUSY line (40_transport.md R130). -/
inductive BusySample where
  | low
  | high
  | err
  deriving DecidableEq, Repr, Inhabited

/-- FREE VALUE (R18, log 3): what the card answers to a byte clocked on port S; none is a transport error. -/
opaque cardReply : Nat → Option Byte

/-- FREE VALUE (R18, log 4): whether a byte written on port D is taken; false is a transport error. -/
opaque panelReply : Nat → Bool

/-- FREE VALUE (R18, log 4): a sample of the BUSY line. -/
opaque busySample : Nat → BusySample

/-- FREE VALUE (10_state.md R49, log 5): a read of a BUF byte that nothing has written since reset. -/
opaque bufByte : Nat → Byte

end Sys2Proof.Config
end

