-- ==== Sys2Proof/Syntax.lean ====
section
/-! DEFINITION. The instructions: one constructor per row of spec/opcode_table.json, and the four formats in which they
travel (30_encoding.md R90). -/

namespace Sys2Proof

/-- Every row of the opcode table. The card commands carry their argument and check byte (R96), ITER_START its plane
bit (R91), R1 its byte (R98). The host operations take their other operands from ARG and LEN (R95). -/
inductive Instr where
  -- Host operations (R92)
  | sdInit
  | sdReadSector
  | sdReadStart
  | sdReadNext
  | sdReadEnd
  | iterStart (p : Bool)
  | iterPull
  | iterDrop
  | dispInit
  | dispCmd
  | dispData
  | dispWaitIdle
  | dispRefresh
  | dispShutdown
  -- Card commands (R97)
  | cmd0 (arg : Word) (chk : Byte)
  | cmd8 (arg : Word) (chk : Byte)
  | cmd55 (arg : Word) (chk : Byte)
  | cmd41 (arg : Word) (chk : Byte)
  | cmd17 (arg : Word) (chk : Byte)
  | cmd18 (arg : Word) (chk : Byte)
  | cmd12 (arg : Word) (chk : Byte)
  -- Tokens on port S, card to engine (R98, R99)
  | startToken
  | r1 (b : Byte)
  -- Display opcodes (R100)
  | dPsr
  | dPwr
  | dPof
  | dPon
  | dDslp
  | dDtm1
  | dDrf
  | dDtm2
  | dDuspi
  | dCdi
  | dTcon
  | dTres
  | dFlg
  deriving DecidableEq, Repr

/-- Bits together with the place where they travel, which alone tells the formats apart (R90). The two tokens travel
the same way, one as the answer the R1 poll looks for and one as the answer the start-token poll looks for. -/
inductive Wire where
  /-- `OP`: a host write to CMD. -/
  | op (w : Word)
  /-- `SD_FRAME`: six bytes on port S, the first in bits [47:40]. -/
  | frame (w : BitVec 48)
  /-- `SD_TOKEN` in the R1 poll (R151). -/
  | r1 (b : Byte)
  /-- `SD_TOKEN` in the start-token poll (R154). -/
  | token (b : Byte)
  /-- `DISP_OP`: a byte on port D with DC at DC_CMD. -/
  | disp (b : Byte)
  deriving DecidableEq, Repr

end Sys2Proof
end

