-- ==== Sys2Proof/WellFormed.lean ====
section
/-! DEFINITION. Which instructions the engine or the card may send (30_encoding.md R97, R98). -/

namespace Sys2Proof

/-- The operand values the spec allows: the arguments and check bytes of R97 under the instance's parameters, and an
R1 byte other than 0xFF (R98). -/
def Instr.wf (p : Config.Params) : Instr → Bool
  | .cmd0 arg chk => arg == 0x00000000#32 && chk == 0x95#8
  | .cmd8 arg chk => arg == 0x000001AA#32 && chk == 0x87#8
  | .cmd55 arg chk => arg == p.arg55 && chk == p.chk55
  | .cmd41 arg chk => arg == p.arg41 && chk == p.chk41
  | .cmd17 arg chk => arg.toNat % 512 == 0 && chk == p.chk17
  | .cmd18 _ chk => chk == p.chk18
  | .cmd12 arg chk => arg == p.arg12 && chk == p.chk12
  | .r1 b => b != 0xFF#8
  | .sdInit => true
  | .sdReadSector => true
  | .sdReadStart => true
  | .sdReadNext => true
  | .sdReadEnd => true
  | .iterStart _ => true
  | .iterPull => true
  | .iterDrop => true
  | .dispInit => true
  | .dispCmd => true
  | .dispData => true
  | .dispWaitIdle => true
  | .dispRefresh => true
  | .dispShutdown => true
  | .startToken => true
  | .dPsr => true
  | .dPwr => true
  | .dPof => true
  | .dPon => true
  | .dDslp => true
  | .dDtm1 => true
  | .dDrf => true
  | .dDtm2 => true
  | .dDuspi => true
  | .dCdi => true
  | .dTcon => true
  | .dTres => true
  | .dFlg => true

end Sys2Proof
end

