-- ==== Sys2Proof/Decode.lean ====
section
/-! DEFINITION. The decoder, total on any bits and rejecting by name, and the encoder, both from 30_encoding.md. -/

namespace Sys2Proof

/-- Why bits are no instruction. -/
inductive DecodeError where
  /-- OPC is not in the opcode map (R93). -/
  | illegalOpcode
  /-- RES is not 0, or P = 1 outside ITER_START (R94). -/
  | reservedBits
  /-- Bits [47:46] of a frame are not 01 (R96). -/
  | badFrameStart
  /-- A frame's index is none of the seven (R97). -/
  | unknownCardCommand
  /-- 0xFF in the R1 poll: filler, no response (R98). -/
  | fillerByte
  /-- A byte other than 0xFE in the start-token poll (R99, R154). -/
  | notStartToken
  /-- No opcode of R100. -/
  | unknownDisplayOpcode
  deriving DecidableEq, Repr

/-- The opcode map of host operations (R92). -/
def opcodeMap (opc : Byte) (p : Bool) : Option Instr :=
  match opc with
  | 0x01#8 => some .sdInit
  | 0x02#8 => some .sdReadSector
  | 0x03#8 => some .sdReadStart
  | 0x04#8 => some .sdReadNext
  | 0x05#8 => some .sdReadEnd
  | 0x10#8 => some (.iterStart p)
  | 0x11#8 => some .iterPull
  | 0x12#8 => some .iterDrop
  | 0x20#8 => some .dispInit
  | 0x21#8 => some .dispCmd
  | 0x22#8 => some .dispData
  | 0x23#8 => some .dispWaitIdle
  | 0x24#8 => some .dispRefresh
  | 0x25#8 => some .dispShutdown
  | _ => none

/-- OPC, bits [7:0] of an `OP` word (R91). -/
def opcField (w : Word) : Byte := w.extractLsb' 0 8

/-- P, bit [8] of an `OP` word (R91). -/
def planeField (w : Word) : Bool := w.getLsbD 8

/-- RES, bits [31:9] of an `OP` word (R91). -/
def resField (w : Word) : BitVec 23 := w.extractLsb' 9 23

/-- `OP` words (R91 to R94): the opcode is checked before the reserved bits (60_exceptions.md R274). -/
def decodeOp (w : Word) : Except DecodeError Instr :=
  match opcodeMap (opcField w) (planeField w) with
  | none => .error .illegalOpcode
  | some i =>
    if resField w ≠ 0#23 ∨ (planeField w = true ∧ opcField w ≠ 0x10#8) then .error .reservedBits else .ok i

/-- The card commands by index (R97). -/
def cardCommandMap (idx : BitVec 6) (arg : Word) (chk : Byte) : Option Instr :=
  match idx with
  | 0#6 => some (.cmd0 arg chk)
  | 8#6 => some (.cmd8 arg chk)
  | 55#6 => some (.cmd55 arg chk)
  | 41#6 => some (.cmd41 arg chk)
  | 17#6 => some (.cmd17 arg chk)
  | 18#6 => some (.cmd18 arg chk)
  | 12#6 => some (.cmd12 arg chk)
  | _ => none

/-- `SD_FRAME` (R96): 01, the index, the argument big-endian, the check byte. -/
def decodeFrame (w : BitVec 48) : Except DecodeError Instr :=
  if w.extractLsb' 46 2 ≠ 1#2 then .error .badFrameStart
  else match cardCommandMap (w.extractLsb' 40 6) (w.extractLsb' 8 32) (w.extractLsb' 0 8) with
    | none => .error .unknownCardCommand
    | some i => .ok i

/-- The display opcodes (R100). -/
def displayOpcodeMap (b : Byte) : Option Instr :=
  match b with
  | 0x00#8 => some .dPsr
  | 0x01#8 => some .dPwr
  | 0x02#8 => some .dPof
  | 0x04#8 => some .dPon
  | 0x07#8 => some .dDslp
  | 0x10#8 => some .dDtm1
  | 0x12#8 => some .dDrf
  | 0x13#8 => some .dDtm2
  | 0x15#8 => some .dDuspi
  | 0x50#8 => some .dCdi
  | 0x60#8 => some .dTcon
  | 0x61#8 => some .dTres
  | 0x71#8 => some .dFlg
  | _ => none

/-- The decoder: the format is known from where the bits travel, never from their content (R90). -/
def decode : Wire → Except DecodeError Instr
  | .op w => decodeOp w
  | .frame w => decodeFrame w
  | .r1 b => if b = 0xFF#8 then .error .fillerByte else .ok (.r1 b)
  | .token b => if b = 0xFE#8 then .ok .startToken else .error .notStartToken
  | .disp b =>
    match displayOpcodeMap b with
    | none => .error .unknownDisplayOpcode
    | some i => .ok i

/-! The encoder. -/

/-- `OPC(M) | (P << 8)` (R104). -/
def opWord (opc : Byte) (p : Bool) : Word := (0#23 ++ BitVec.ofBool p) ++ opc

/-- `Frame(idx, arg, chk)` (R96). -/
def frameWord (idx : BitVec 6) (arg : Word) (chk : Byte) : BitVec 48 := ((1#2 ++ idx) ++ arg) ++ chk

/-- The six bytes of a frame in the order in which they are sent (R96, R75). -/
def frameBytes (w : BitVec 48) : List Byte :=
  [w.extractLsb' 40 8, w.extractLsb' 32 8, w.extractLsb' 24 8, w.extractLsb' 16 8, w.extractLsb' 8 8,
    w.extractLsb' 0 8]

/-- Every instruction's bits, and where they travel (R92, R97, R98, R99, R100). -/
def encode : Instr → Wire
  | .sdInit => .op (opWord 0x01#8 false)
  | .sdReadSector => .op (opWord 0x02#8 false)
  | .sdReadStart => .op (opWord 0x03#8 false)
  | .sdReadNext => .op (opWord 0x04#8 false)
  | .sdReadEnd => .op (opWord 0x05#8 false)
  | .iterStart p => .op (opWord 0x10#8 p)
  | .iterPull => .op (opWord 0x11#8 false)
  | .iterDrop => .op (opWord 0x12#8 false)
  | .dispInit => .op (opWord 0x20#8 false)
  | .dispCmd => .op (opWord 0x21#8 false)
  | .dispData => .op (opWord 0x22#8 false)
  | .dispWaitIdle => .op (opWord 0x23#8 false)
  | .dispRefresh => .op (opWord 0x24#8 false)
  | .dispShutdown => .op (opWord 0x25#8 false)
  | .cmd0 arg chk => .frame (frameWord 0#6 arg chk)
  | .cmd8 arg chk => .frame (frameWord 8#6 arg chk)
  | .cmd55 arg chk => .frame (frameWord 55#6 arg chk)
  | .cmd41 arg chk => .frame (frameWord 41#6 arg chk)
  | .cmd17 arg chk => .frame (frameWord 17#6 arg chk)
  | .cmd18 arg chk => .frame (frameWord 18#6 arg chk)
  | .cmd12 arg chk => .frame (frameWord 12#6 arg chk)
  | .startToken => .token 0xFE#8
  | .r1 b => .r1 b
  | .dPsr => .disp 0x00#8
  | .dPwr => .disp 0x01#8
  | .dPof => .disp 0x02#8
  | .dPon => .disp 0x04#8
  | .dDslp => .disp 0x07#8
  | .dDtm1 => .disp 0x10#8
  | .dDrf => .disp 0x12#8
  | .dDtm2 => .disp 0x13#8
  | .dDuspi => .disp 0x15#8
  | .dCdi => .disp 0x50#8
  | .dTcon => .disp 0x60#8
  | .dTres => .disp 0x61#8
  | .dFlg => .disp 0x71#8

/-- Where the bits of a row of the opcode table travel. The table's rows of 8 bits are of three formats whose contents
overlap (R90); DESIGN CHOICE (log 11): a display opcode of R100 is read as one, then 0xFE as the start token, and any
other byte as an R1 response. -/
def tableWire (nbits w : Nat) : Option Wire :=
  if nbits = 32 then some (.op (BitVec.ofNat 32 w))
  else if nbits = 48 then some (.frame (BitVec.ofNat 48 w))
  else if nbits = 8 then
    let b := BitVec.ofNat 8 w
    if (displayOpcodeMap b).isSome then some (.disp b)
    else if b = 0xFE#8 then some (.token b)
    else some (.r1 b)
  else none

/-- The instruction the decoder reads from the bits of a row of spec/opcode_table.json, as the table numbers them: a
frame is one 48-bit number whose bits [47:40] are the first byte on the wire. -/
def decodeTableWord (nbits w : Nat) : Option Instr :=
  match tableWire nbits w with
  | none => none
  | some x =>
    match decode x with
    | .ok i => some i
    | .error _ => none

end Sys2Proof
end

