-- ==== Sys2Proof/Machine/State.lean ====
section
/-! DEFINITION. The engine's state as plain data (10_state.md R30 to R53), the model's own inputs and observations, the
reasons a step can stop, and the state after reset. -/

namespace Sys2Proof.Machine

/-- The two serial ports (R50): S to the storage card, D to the panel. -/
inductive Port where
  | S
  | D
  deriving DecidableEq, Repr

/-- The output lines that `Drive` sets (40_transport.md R129). -/
inductive OutLine where
  | rst
  | dc
  deriving DecidableEq, Repr

/-- The holds (R131). Their durations are timing only (log 9). -/
inductive HoldKind where
  | tRst
  | tPoll
  | tRefresh
  deriving DecidableEq, Repr

/-- The five poll and retry loops (R133). -/
inductive Loop where
  | r1
  | tok
  | cmd0
  | a41
  | bsy
  deriving DecidableEq, Repr

/-- OWNER: the user that holds the open card stream (10_state.md R40). -/
inductive Owner where
  | none
  | raw
  | iter
  | refresh
  deriving DecidableEq, Repr

/-- The faults of 60_exceptions.md R271. -/
inductive FaultCode where
  | storageBus
  | displayBus
  | sdV2Unsupported
  | sdAcmd41Unsupported
  | cmd17Response
  | cmd18Response
  | unresponsive
  | illegalOpcode
  | reservedBits
  | operand
  | sequence
  deriving DecidableEq, Repr

/-- The sequencer's micro-steps (R32, R51). `State.ctl.seq` holds those still to run, the next one first. Each stands
for one port or line event, for a loop's or branch's decision between two events, or for the register writes that a rule
groups between two events (log 1). -/
inductive Micro where
  /-- `Select(p)` (R125). -/
  | select (p : Port)
  /-- `Deselect(p)` (R126). -/
  | deselect (p : Port)
  /-- `SpiWrite(p, bytes)`, one byte a step (R127). -/
  | spiWrite (p : Port) (bytes : List Byte)
  /-- `SpiWrite(D, MemRead(BUF, i, n - i))`, one byte a step (43_display.md R242, R244). -/
  | sendBuf (i n : Nat)
  /-- `Drive(line, level)` (R129). -/
  | drive (l : OutLine) (v : Level)
  /-- `Hold(T)` (R131). -/
  | hold (h : HoldKind)
  /-- `pollcnt[L] <- 0` at the loop's entry (R133). -/
  | enter (l : Loop)
  /-- A card command about to be sent: the wire instruction that the sequencer fetches and decodes (30_encoding.md
  R96). -/
  | frame (w : BitVec 48)
  /-- One iteration of `R1Poll()` (41_storage.md R151). Its probe is FILL_RD (00_scope.md R11), whose value
  R151 writes out: DEDUCED (log 25). -/
  | r1Poll
  /-- One iteration of `TokenPoll()` (R154). -/
  | tokenPoll
  /-- `MemWrite(BUF, i, SpiXfer(S, FILL_RD))` for this and the later indexes below n (R153). -/
  | payload (i n : Nat)
  /-- One trailer transfer (R153). -/
  | trailer
  /-- `DataPhase(n)` (R153). -/
  | dataPhase (n : Nat)
  /-- One iteration of SD_INIT's CMD0 retry loop (R163). -/
  | cmd0Loop
  /-- `if r == 0x01: break` of that loop. -/
  | cmd0Test
  /-- The test of CMD8's response (R157). -/
  | cmd8Test
  /-- `first41 <- true; pollcnt[A41] <- 0` (R163). -/
  | a41Enter
  /-- One iteration of SD_INIT's CMD55 and CMD41 loop (R163). -/
  | a41Loop
  /-- The tests of CMD41's response (R159). -/
  | cmd41Test
  /-- `SD_READY <- 1` (R163). -/
  | setSdReady
  /-- The test of CMD17's response (R160). -/
  | cmd17Test
  /-- The test of CMD18's response (R161). -/
  | cmd18Test
  /-- `OWNER <- o` (R165, R167). -/
  | setOwner (o : Owner)
  /-- The register writes of `ItStart(start, who)` (42_chunk_sequencer.md R201). -/
  | itBegin (start : Word) (who : Owner)
  /-- `ItPull()` (R202). -/
  | itPull
  /-- `CHUNK_LEN <- n` (R202). -/
  | setChunkLen (n : Nat)
  /-- The register writes of the exhausting pull (R202). -/
  | pullEnd
  /-- `ItDrop()` (R203). -/
  | itDrop
  /-- The register writes of a drop that sent read_end (R203). -/
  | dropEnd
  /-- A display opcode about to be sent: the wire instruction that the sequencer fetches and decodes (30_encoding.md
  R100). -/
  | dispOp (b : Byte)
  /-- `DCmd(op)` of any byte, with no meaning given to it (43_display.md R220, R241). -/
  | dispCmd (b : Byte)
  /-- `DData(bytes)` (R221). -/
  | dispData (bytes : List Byte)
  /-- `DData(MemRead(BUF, 0, n))` (R221, R242). -/
  | dispBuf (n : Nat)
  /-- One iteration of `WaitIdle()` (R222). -/
  | busyLoop
  /-- `Sample(BUSY)` and the busy decision (R222, R223). -/
  | busySample
  /-- `DISP_READY <- 1` (R240). -/
  | setDispReady
  /-- One iteration of DISP_REFRESH's chunk loop (R244). -/
  | refreshLoop
  /-- `if n == 0: break`, else the chunk's data transaction (R244). -/
  | refreshTest
  /-- `RedFill()` with `rem` zero bytes still to send (R245). -/
  | redFill (rem : Nat)
  /-- `DISP_READY <- 0; err <- none` (R226). -/
  | shutBegin
  /-- Where a fault inside `Shutdown()` goes on: `if err != none and CS_D = CS_ACTIVE: Deselect(D)` (R226). -/
  | shutEnd
  /-- `return err`: DISP_SHUTDOWN raises it, the halt sequence discards it (R246, R279). -/
  | shutRet
  /-- The last step of the halt sequence (60_exceptions.md R276). -/
  | haltEnd
  deriving DecidableEq, Repr

/-- An event of port S (00_scope.md R19). -/
inductive EventS where
  /-- `S+` -/
  | select
  /-- `S-` -/
  | deselect
  /-- `S> b`; with `ok = false` the byte on which a transport error was reported (R127). -/
  | write (b : Byte) (ok : Bool)
  /-- `S< o/i`; with no in-byte, a transport error (R128, log 12). -/
  | xfer (o : Byte) (i : Option Byte)
  deriving DecidableEq, Repr

/-- An event of port D, with its lines, samples and holds (R19, R81). -/
inductive EventD where
  /-- `D+` -/
  | select
  /-- `D-` -/
  | deselect
  /-- `D> b`; with `ok = false` the byte on which a transport error was reported (R127). -/
  | write (b : Byte) (ok : Bool)
  /-- `RST=L`, `RST=H`, `DC=L`, `DC=H` -/
  | drive (l : OutLine) (v : Level)
  /-- `BUSY?v` -/
  | busy (v : Config.BusySample)
  /-- `hold(T)` -/
  | hold (h : HoldKind)
  deriving DecidableEq, Repr

/-- A value a host read returned. -/
structure HostRead where
  offset : Nat
  value : Word
  deriving DecidableEq, Repr

/-- One turn of the total order of host accesses and engine micro-steps (20_memory.md R81, log 2). -/
inductive Turn where
  /-- One engine micro-step. -/
  | engine
  /-- The host polls STATUS until RUNNING = 0 (30_encoding.md R103): the engine runs on until then. -/
  | wait
  /-- A host read of `size` bytes at a byte offset (R71). -/
  | read (offset size : Nat)
  /-- A host write of `size` bytes at a byte offset (R71). -/
  | write (offset size : Nat) (v : Word)
  /-- The reset input is asserted (70_reset_and_hazards.md R300). -/
  | reset
  deriving DecidableEq, Repr

/-- BUF's bytes (10_state.md R49) in canonical form: indexes strictly rising and below 512. An index that is not listed
has not been written since reset and holds no defined value: a read of it is a draw. -/
abbrev Memory := List Host.Cell

/-- The host registers' storage (R33 to R47). STREAM_OPEN and PINS are computed, CMD has no storage. -/
structure Regs where
  arg : Word
  len : BitVec 10
  running : Bool
  halted : Bool
  sdReady : Bool
  owner : Owner
  iterActive : Bool
  iterEnded : Bool
  dispReady : Bool
  ovr : Bool
  faultCode : Byte
  lastR1 : Byte
  chunkLen : BitVec 10
  iterCur : Word
  iterEnd : Word
  deriving DecidableEq, Repr

/-- The output lines (R50). -/
structure Lines where
  csS : Level
  csD : Level
  rst : Level
  dc : Level
  deriving DecidableEq, Repr

/-- `pollcnt[L]`: one counter per running loop, none where the loop is not running (R51, R133). -/
structure PollCounts where
  r1 : Option Nat
  tok : Option Nat
  cmd0 : Option Nat
  a41 : Option Nat
  bsy : Option Nat
  deriving DecidableEq, Repr

/-- No loop running. -/
def PollCounts.idle : PollCounts where
  r1 := none
  tok := none
  cmd0 := none
  a41 := none
  bsy := none

/-- The hidden sequencer state (R51), with the local `err` of `Shutdown()` (43_display.md R226). -/
structure Ctl where
  op : Option (Byte × Bool)
  seq : List Micro
  poll : PollCounts
  first41 : Bool
  tearing : Bool
  shutErr : Option FaultCode
  deriving DecidableEq, Repr

/-- The model's own inputs: the turns and device answers fixed so far, and the counter of the free values that follow
them (logs 2 to 5). -/
structure Env where
  sched : List Turn
  cardIn : List (Option Byte)
  panelIn : List Bool
  busyIn : List Config.BusySample
  draws : Nat
  deriving DecidableEq, Repr

/-- The model's own record of the observation of a run (20_memory.md R81): the events of each port and the values host
reads returned, each newest first. The order across ports is not recorded (R310). -/
structure Obs where
  portS : List EventS
  portD : List EventD
  host : List HostRead
  deriving DecidableEq, Repr

/-- The whole machine: parameters, registers, BUF, lines, hidden sequencer state, and the model's own inputs and
observations. -/
structure State where
  cfg : Config.Params
  regs : Regs
  buf : Memory
  lines : Lines
  ctl : Ctl
  env : Env
  obs : Obs
  deriving DecidableEq, Repr

/-- The reasons a step stops with a fault. The engine's own faults are no such stops: they are states (the halt
sequence of 60_exceptions.md R276). -/
inductive Fault where
  /-- Raised by a host access to an offset past 0x3FF, which is outside the host register space (20_memory.md R70).
  Safe: the machine goes on nowhere. -/
  | hostOffsetOutsideSpace (offset : Nat)
  /-- Raised by a BUF access at an index past 511 (20_memory.md R70), which no operation makes (log 14). Safe. -/
  | bufIndexOutside (i : Nat)
  deriving DecidableEq, Repr

/-- The reasons a step is refused. -/
inductive Refusal where
  /-- Raised by an arm of `exec` for an instruction without a meaning. Safe. No arm raises it. -/
  | notModelled (mnemonic : String)
  /-- Raised by a host access that is not one aligned 32-bit word: "a model refuses such an access" (20_memory.md R73).
  Safe. -/
  | hostAccessNotAWord (offset size : Nat)
  /-- Raised when the sequencer is to send a frame that is none of the seven card commands (30_encoding.md R97), which
  no operation does (log 15). Safe. -/
  | frameNotACommand (w : BitVec 48)
  deriving DecidableEq, Repr

/-- What a meaning answers. -/
abbrev Result := Host.Outcome State Fault Refusal

/-- The registers after reset (10_state.md R53). -/
def Regs.reset : Regs where
  arg := 0x00000000#32
  len := 0#10
  running := false
  halted := false
  sdReady := false
  owner := .none
  iterActive := false
  iterEnded := false
  dispReady := false
  ovr := false
  faultCode := 0x00#8
  lastR1 := 0xFF#8
  chunkLen := 0#10
  iterCur := 0x00000000#32
  iterEnd := 0x00000000#32

/-- The lines after reset (R53): selects deasserted, RST and DC Low. -/
def Lines.reset (p : Config.Params) : Lines where
  csS := p.csActive.not
  csD := p.csActive.not
  rst := .low
  dc := .low

/-- The hidden state after reset (R53). -/
def Ctl.reset : Ctl where
  op := none
  seq := []
  poll := .idle
  first41 := true
  tearing := false
  shutErr := none

/-- Nothing fixed of the environment. DESIGN CHOICE (log 2): nothing pending, no draw made. -/
def Env.initial : Env where
  sched := []
  cardIn := []
  panelIn := []
  busyIn := []
  draws := 0

/-- Nothing observed yet. -/
def Obs.initial : Obs where
  portS := []
  portD := []
  host := []

/-- The machine right after power-on reset (10_state.md R53, 70_reset_and_hazards.md R300). -/
def State.reset : State where
  cfg := Config.hardware
  regs := Regs.reset
  buf := []
  lines := Lines.reset Config.hardware
  ctl := Ctl.reset
  env := Env.initial
  obs := Obs.initial

/-- The port-S event sequence, oldest first (R81). -/
def State.traceS (s : State) : List EventS := s.obs.portS.reverse

/-- The port-D event sequence, oldest first (R81). -/
def State.traceD (s : State) : List EventD := s.obs.portD.reverse

end Sys2Proof.Machine
end

