-- ==== Sys2Proof/Machine/Operands.lean ====
section
/-! DEFINITION. Operand assembly and range checks (30_encoding.md R95), and the state preconditions (60_exceptions.md
R272). -/

namespace Sys2Proof.Machine

/-! Operand checks and derived values. -/

/-- `1 ≤ LEN ≤ 512`. -/
def lenOk (s : State) : Bool := decide (1 ≤ s.regs.len.toNat) && decide (s.regs.len.toNat ≤ 512)

/-- `1 ≤ LEN ≤ 512 and ARG < 2^23` (SD_READ_SECTOR). -/
def sectorOk (s : State) : Bool := lenOk s && decide (s.regs.arg.toNat < 2 ^ 23)

/-- `ARG × 512`, exact in 32 bits where the check holds. -/
def sectorArg (s : State) : Word := BitVec.ofNat 32 (s.regs.arg.toNat * 512)

/-- `ARG + P × 48000`, the plane's first byte. -/
def planeStart (p : Bool) (s : State) : Nat := s.regs.arg.toNat + (if p then s.cfg.planeLen else 0)

/-- `ARG + P × 48000 + 48000 ≤ 0xFFFFFFFF` (ITER_START; DISP_REFRESH with P = 0). -/
def planeOk (p : Bool) (s : State) : Bool := decide (planeStart p s + s.cfg.planeLen ≤ 0xFFFFFFFF)

/-- `ARG ≤ 0xFF` (DISP_CMD). -/
def dispCmdOk (s : State) : Bool := decide (s.regs.arg.toNat ≤ 0xFF)

/-- `ARG[7:0]` (DISP_CMD). -/
def dispCmdOpcode (s : State) : Byte := s.regs.arg.extractLsb' 0 8

/-! State preconditions. -/

/-- SD_INIT: SD_READY = 0. -/
def preSdInit (s : State) : Bool := !s.regs.sdReady

/-- A storage operation that opens or uses the card outside a stream: SD_READY = 1 and OWNER = NONE. -/
def preStreamFree (s : State) : Bool := s.regs.sdReady && s.regs.owner == .none

/-- SD_READ_NEXT and SD_READ_END: OWNER = RAW. -/
def preRaw (s : State) : Bool := s.regs.owner == .raw

/-- ITER_PULL: ITER_ACTIVE = 1. -/
def preIterActive (s : State) : Bool := s.regs.iterActive

/-- DISP_INIT: DISP_READY = 0. -/
def preDispOff (s : State) : Bool := !s.regs.dispReady

/-- The other display operations: DISP_READY = 1. -/
def preDispOn (s : State) : Bool := s.regs.dispReady

/-- DISP_REFRESH: DISP_READY = 1, SD_READY = 1 and OWNER = NONE. -/
def preRefresh (s : State) : Bool := s.regs.dispReady && preStreamFree s

end Sys2Proof.Machine
end

