-- ==== Sys2Proof/Machine/Ops.lean ====
section
/-! DEFINITION. The shared operations: BUF, the draws, the event records, the transport and line primitives
(40_transport.md), the loop counters, issue and completion, and taking a fault (60_exceptions.md). -/

namespace Sys2Proof.Machine

/-! BUF (10_state.md R49). -/

/-- The size of BUF in bytes (00_scope.md R10). -/
def bufSize : Nat := 512

/-- The byte at an index, or none where nothing has been written since reset. -/
def Memory.read : Memory → Nat → Option Byte
  | [], _ => none
  | (a, b) :: m, i => if i = a then some b else Memory.read m i

/-- Store one byte, keeping the indexes strictly rising. -/
def Memory.write : Memory → Nat → Byte → Memory
  | [], i, v => [(i, v)]
  | (a, b) :: m, i, v =>
    if i < a then (i, v) :: (a, b) :: m
    else if i = a then (i, v) :: m
    else (a, b) :: Memory.write m i v

/-- The canonical form from an index up: strictly rising, below 512. -/
def Memory.wfFrom : Nat → Memory → Bool
  | _, [] => true
  | lo, (a, _) :: m => decide (lo ≤ a) && decide (a < bufSize) && Memory.wfFrom (a + 1) m

/-- The canonical form of BUF. -/
def Memory.wf (m : Memory) : Bool := Memory.wfFrom 0 m

/-! Named updates. -/

/-- Record an event of port S. -/
def emitS (e : EventS) (s : State) : State := { s with obs.portS := e :: s.obs.portS }

/-- Record an event of port D. -/
def emitD (e : EventD) (s : State) : State := { s with obs.portD := e :: s.obs.portD }

/-- Set the micro-steps still to run. -/
def setSeq (q : List Micro) (s : State) : State := { s with ctl.seq := q }

/-- Run these micro-steps before those still to run. -/
def push (q : List Micro) (s : State) : State := setSeq (q ++ s.ctl.seq) s

/-! Draws (00_scope.md R18). -/

/-- The card's answer to one byte clocked on port S: the next one fixed, else the free value. -/
def drawCard (s : State) : Option Byte × State :=
  match s.env.cardIn with
  | r :: rest => (r, { s with env.cardIn := rest })
  | [] => (Config.cardReply s.env.draws, { s with env.draws := s.env.draws + 1 })

/-- Whether the panel takes one byte written on port D: the next answer fixed, else the free value. -/
def drawPanel (s : State) : Bool × State :=
  match s.env.panelIn with
  | r :: rest => (r, { s with env.panelIn := rest })
  | [] => (Config.panelReply s.env.draws, { s with env.draws := s.env.draws + 1 })

/-- One sample of BUSY: the next one fixed, else the free value. -/
def drawBusy (s : State) : Config.BusySample × State :=
  match s.env.busyIn with
  | r :: rest => (r, { s with env.busyIn := rest })
  | [] => (Config.busySample s.env.draws, { s with env.draws := s.env.draws + 1 })

/-- `MemRead(BUF, i, 1)`: the byte stored, or a draw where none has been written (10_state.md R49). -/
def bufRead (i : Nat) (s : State) : Byte × State :=
  match s.buf.read i with
  | some b => (b, s)
  | none => (Config.bufByte s.env.draws, { s with env.draws := s.env.draws + 1 })

/-- `MemWrite(BUF, i, v)`. -/
def bufWrite (i : Nat) (v : Byte) (s : State) : State := { s with buf := s.buf.write i v }

/-! Fault codes (60_exceptions.md R271). -/

/-- The value written to STATUS.FAULT_CODE. -/
def FaultCode.code : FaultCode → Byte
  | .storageBus => 0x01#8
  | .displayBus => 0x02#8
  | .sdV2Unsupported => 0x03#8
  | .sdAcmd41Unsupported => 0x04#8
  | .cmd17Response => 0x05#8
  | .cmd18Response => 0x06#8
  | .unresponsive => 0x07#8
  | .illegalOpcode => 0x10#8
  | .reservedBits => 0x11#8
  | .operand => 0x12#8
  | .sequence => 0x13#8

/-! Taking a fault: the halt sequence (R276), and the power-down it runs (43_display.md R226). -/

/-- `WaitIdle()`: its entry and its loop (R222). -/
def waitIdle : List Micro := [.enter .bsy, .busyLoop]

/-- The steps of `Shutdown()` after its bus steps: the two line drives, electrically Low, and the return (R226). -/
def shutdownTail : List Micro := [.drive .rst .low, .drive .dc .low, .shutRet]

/-- `Shutdown()` (R226). -/
def shutdown : List Micro :=
  .shutBegin :: .dispOp 0x02#8 :: waitIdle ++ .dispOp 0x07#8 :: .shutEnd :: shutdownTail

/-- The micro-steps of `Halt(code)` after `tearing <- true` (R276). No step of the sequence changes what its three
tests read before the test is made, so they are made at its start (log 20). -/
def teardown (s : State) : List Micro :=
  (if s.lines.csS = s.cfg.csActive then [.deselect .S] else []) ++
  (if s.lines.csD = s.cfg.csActive then [.deselect .D] else []) ++
  (if s.regs.dispReady then shutdown else []) ++ [.haltEnd]

/-- `Halt(code)` (R276): the first fault's code is kept (R273). -/
def halt (c : FaultCode) (s : State) : State :=
  { s with
    regs.faultCode := if s.regs.faultCode = 0x00#8 then c.code else s.regs.faultCode
    ctl.tearing := true
    ctl.seq := teardown s }

/-- The steps from the point where `Shutdown()` goes on after a fault of its bus steps, if it is running them. -/
def catchPoint : List Micro → Option (List Micro)
  | [] => none
  | .shutEnd :: q => some (.shutEnd :: q)
  | _ :: q => catchPoint q

/-- `raise Fatal(code)` at a micro-step (R275): inside `Shutdown()` it is caught (R279, R226), elsewhere it halts. No
step after it runs. -/
def raise (c : FaultCode) (s : State) : State :=
  match catchPoint s.ctl.seq with
  | some q => { s with ctl.seq := q, ctl.shutErr := some c, ctl.poll.bsy := none }
  | none => halt c s

/-- The last step of the halt sequence (R276). HALTED and RUNNING change together, as 10_state.md R52 (v) asks (log 1). -/
def finishHalt (s : State) : State :=
  { s with
    ctl.seq := []
    ctl.poll := .idle
    ctl.tearing := false
    regs.halted := true
    regs.running := false }

/-! Line and port primitives (40_transport.md R125 to R131). -/

/-- `Select(p)` (R125). -/
def doSelect (p : Port) (s : State) : State :=
  match p with
  | .S => emitS .select { s with lines.csS := s.cfg.csActive }
  | .D => emitD .select { s with lines.csD := s.cfg.csActive }

/-- `Deselect(p)` (R126): an event also where the line is already deasserted. -/
def doDeselect (p : Port) (s : State) : State :=
  match p with
  | .S => emitS .deselect { s with lines.csS := s.cfg.csActive.not }
  | .D => emitD .deselect { s with lines.csD := s.cfg.csActive.not }

/-- `Drive(line, level)` (R129): an event also where the level does not change. -/
def doDrive (l : OutLine) (v : Level) (s : State) : State :=
  match l with
  | .rst => emitD (.drive .rst v) { s with lines.rst := v }
  | .dc => emitD (.drive .dc v) { s with lines.dc := v }

/-- `Hold(T)` (R131): its event, and no other effect. -/
def doHold (h : HoldKind) (s : State) : State := emitD (.hold h) s

/-- One byte of `SpiWrite(p, …)` (R127, R132): `k` where it is taken, else the failed event and the fatal fault. -/
def spiByte (p : Port) (b : Byte) (k : State → State) (s : State) : State :=
  match p with
  | .S =>
    match drawCard s with
    | (some _, s') => k (emitS (.write b true) s')
    | (none, s') => raise .storageBus (emitS (.write b false) s')
  | .D =>
    match drawPanel s with
    | (true, s') => k (emitD (.write b true) s')
    | (false, s') => raise .displayBus (emitD (.write b false) s')

/-- `SpiXfer(S, o)` (R128): `k` with the in-byte, or the fatal fault. Only port S transfers. -/
def spiXfer (o : Byte) (k : Byte → State → Result) (s : State) : Result :=
  match drawCard s with
  | (some i, s') => k i (emitS (.xfer o (some i)) s')
  | (none, s') => .next (raise .storageBus (emitS (.xfer o none) s'))

/-- One step of `SpiWrite(p, bytes)`: its first byte, the rest left to run. -/
def stepSpiWrite (p : Port) (bytes : List Byte) (s : State) : State :=
  match bytes with
  | [] => s
  | b :: rest => spiByte p b (fun s' => if rest = [] then s' else push [.spiWrite p rest] s') s

/-! Loop counters (R133). -/

/-- `pollcnt[L]`. -/
def pollCount (l : Loop) (s : State) : Option Nat :=
  match l with
  | .r1 => s.ctl.poll.r1
  | .tok => s.ctl.poll.tok
  | .cmd0 => s.ctl.poll.cmd0
  | .a41 => s.ctl.poll.a41
  | .bsy => s.ctl.poll.bsy

/-- Set `pollcnt[L]`; none where the loop ends. -/
def setPoll (l : Loop) (n : Option Nat) (s : State) : State :=
  match l with
  | .r1 => { s with ctl.poll.r1 := n }
  | .tok => { s with ctl.poll.tok := n }
  | .cmd0 => { s with ctl.poll.cmd0 := n }
  | .a41 => { s with ctl.poll.a41 := n }
  | .bsy => { s with ctl.poll.bsy := n }

/-- Whether a count is above POLL_LIMIT. -/
def aboveLimit (limit : Option Nat) (n : Nat) : Bool :=
  match limit with
  | none => false
  | some k => decide (k < n)

/-- `Poll(L)` at the start of an iteration (R133): `k` where the bound allows it, else F_UNRESPONSIVE before any event of
the iteration. -/
def poll (l : Loop) (k : State → Result) (s : State) : Result :=
  let n := (pollCount l s).getD 0 + 1
  if aboveLimit s.cfg.pollLimit n then .next (raise .unresponsive (setPoll l (some n) s))
  else k (setPoll l (some n) s)

/-! Issue and completion (R120 to R124). -/

/-- A host write to CMD (R120 to R122): ignored while halted, dropped with OVR set while running, else accepted: RUNNING
is set, OPC and P are latched, and `k` goes on. -/
def accept (opc : Byte) (p : Bool) (k : State → State) (s : State) : State :=
  if s.regs.halted then s
  else if s.regs.running then { s with regs.ovr := true }
  else k { s with regs.running := true, ctl.op := some (opc, p) }

/-- The issue of a legal word (R120): the state precondition, then the operand check (60_exceptions.md R274), then the
operation's micro-steps. -/
def issue (opc : Byte) (p : Bool) (pre operands : Bool) (prog : List Micro) (s : State) : State :=
  accept opc p
    (fun s' =>
      if pre = false then halt .sequence s'
      else if operands = false then halt .operand s'
      else setSeq prog s') s

/-- `Complete()` (R124). -/
def complete (s : State) : State := { s with ctl.seq := [], regs.running := false }

/-- Reset (70_reset_and_hazards.md R300): every state element takes its value of 10_state.md R53 and nothing is sent.
The instance's parameters, the environment and the observation so far are no state elements (log 17). -/
def resetEngine (s : State) : State :=
  { s with
    regs := Regs.reset
    buf := []
    lines := Lines.reset s.cfg
    ctl := Ctl.reset }

end Sys2Proof.Machine
end

