-- ==== Sys2Proof/Machine/Storage.lean ====
section
/-! DEFINITION. The storage framing unit (41_storage.md): the card commands, the data phase, and the host operations
SD_*. -/

namespace Sys2Proof.Machine

/-! Card commands (R150, R156 to R162). -/

/-- The command transaction `Cmd(idx, arg, chk)` of a frame (R150): `Select(S)` now, then the six bytes, the R1 poll,
`Deselect(S)` and the release byte (R152). -/
def startFrame (w : BitVec 48) (s : State) : State :=
  push [.spiWrite .S (frameBytes w), .enter .r1, .r1Poll, .deselect .S, .spiWrite .S [0xFF#8]] (doSelect .S s)

/-- CMD0, "go idle" (R156). -/
def execCmd0 (arg : Word) (chk : Byte) (s : State) : Result := .next (startFrame (frameWord 0#6 arg chk) s)

/-- CMD8, voltage/version probe (R157). -/
def execCmd8 (arg : Word) (chk : Byte) (s : State) : Result := .next (startFrame (frameWord 8#6 arg chk) s)

/-- CMD55, "app-command prefix" (R158). -/
def execCmd55 (arg : Word) (chk : Byte) (s : State) : Result := .next (startFrame (frameWord 55#6 arg chk) s)

/-- CMD41, "app init" (R159). -/
def execCmd41 (arg : Word) (chk : Byte) (s : State) : Result := .next (startFrame (frameWord 41#6 arg chk) s)

/-- CMD17, single-sector read (R160). -/
def execCmd17 (arg : Word) (chk : Byte) (s : State) : Result := .next (startFrame (frameWord 17#6 arg chk) s)

/-- CMD18, multi-block streaming read (R161). -/
def execCmd18 (arg : Word) (chk : Byte) (s : State) : Result := .next (startFrame (frameWord 18#6 arg chk) s)

/-- CMD12, stop transmission (R162). -/
def execCmd12 (arg : Word) (chk : Byte) (s : State) : Result := .next (startFrame (frameWord 12#6 arg chk) s)

/-! The frames the operations send (30_encoding.md R97). -/

/-- `Cmd(0, 0x00000000, 0x95)` (R156). -/
def frameCmd0 : Micro := .frame (frameWord 0#6 0x00000000#32 0x95#8)

/-- `Cmd(8, 0x000001AA, 0x87)` (R157). -/
def frameCmd8 : Micro := .frame (frameWord 8#6 0x000001AA#32 0x87#8)

/-- `Cmd(55, ARG55, CHK55)` (R158). -/
def frameCmd55 (p : Config.Params) : Micro := .frame (frameWord 55#6 p.arg55 p.chk55)

/-- `Cmd(41, ARG41, CHK41)` (R159). -/
def frameCmd41 (p : Config.Params) : Micro := .frame (frameWord 41#6 p.arg41 p.chk41)

/-- `Cmd(17, a, CHK17)` (R160). -/
def frameCmd17 (p : Config.Params) (a : Word) : Micro := .frame (frameWord 17#6 a p.chk17)

/-- `Cmd(18, a, CHK18)` (R161). -/
def frameCmd18 (p : Config.Params) (a : Word) : Micro := .frame (frameWord 18#6 a p.chk18)

/-- `Cmd(12, ARG12, CHK12)` (R162). -/
def frameCmd12 (p : Config.Params) : Micro := .frame (frameWord 12#6 p.arg12 p.chk12)

/-! The data phase (R153). -/

/-- `DataPhase(n)`: `Select(S)` now, then the start-token poll, n payload bytes into BUF, two trailer bytes and
`Deselect(S)`. No release byte follows (R152). -/
def startDataPhase (n : Nat) (s : State) : State :=
  push [.enter .tok, .tokenPoll, .payload 0 n, .trailer, .trailer, .deselect .S] (doSelect .S s)

/-- `MemWrite(BUF, i, SpiXfer(S, FILL_RD))`, and the later bytes left to run. -/
def stepPayload (i n : Nat) (s : State) : Result :=
  if n ≤ i then .next s
  else if bufSize ≤ i then .fault (.bufIndexOutside i)
  else spiXfer s.cfg.fillRd
    (fun b s' => .next (if i + 1 < n then push [.payload (i + 1) n] (bufWrite i b s') else bufWrite i b s')) s

/-- One trailer transfer: the byte is discarded and never checked (R155). -/
def stepTrailer (s : State) : Result := spiXfer s.cfg.fillRd (fun _ s' => .next s') s

/-! SD_INIT's loops (R163). -/

/-- One iteration of the CMD0 retry loop. -/
def stepCmd0Loop (s : State) : Result := poll .cmd0 (fun s' => .next (push [frameCmd0, .cmd0Test] s')) s

/-- `if r == 0x01: break`; every other response repeats the command (R156). -/
def stepCmd0Test (s : State) : State :=
  if s.regs.lastR1 = 0x01#8 then setPoll .cmd0 none s else push [.cmd0Loop] s

/-- CMD8's answer 0x01 is fatal, any other goes on (R157). -/
def stepCmd8Test (s : State) : State :=
  if s.regs.lastR1 = 0x01#8 then raise .sdV2Unsupported s else s

/-- `first41 <- true; pollcnt[A41] <- 0`. -/
def stepA41Enter (s : State) : State := setPoll .a41 (some 0) { s with ctl.first41 := true }

/-- One iteration of the legacy loop: CMD55, whose response is ignored, then CMD41. -/
def stepA41Loop (s : State) : Result :=
  poll .a41 (fun s' => .next (push [frameCmd55 s'.cfg, frameCmd41 s'.cfg, .cmd41Test] s')) s

/-- The tests of CMD41's response (R159): above 0x01 is fatal the first time, 0x00 ends the loop, any other repeats
it. -/
def stepCmd41Test (s : State) : State :=
  if s.ctl.first41 = true ∧ 0x01#8 < s.regs.lastR1 then raise .sdAcmd41Unsupported s
  else if s.regs.lastR1 = 0x00#8 then setPoll .a41 none { s with ctl.first41 := false }
  else push [.a41Loop] { s with ctl.first41 := false }

/-- `SD_READY <- 1`. -/
def stepSetSdReady (s : State) : State := { s with regs.sdReady := true }

/-! The read commands' tests, and OWNER. -/

/-- `if r != 0x00: raise Fatal(F_CMD17_RESPONSE)` (R164). -/
def stepCmd17Test (s : State) : State :=
  if s.regs.lastR1 = 0x00#8 then s else raise .cmd17Response s

/-- `if r != 0x00: raise Fatal(F_CMD18_RESPONSE)` (R165, 42_chunk_sequencer.md R201). -/
def stepCmd18Test (s : State) : State :=
  if s.regs.lastR1 = 0x00#8 then s else raise .cmd18Response s

/-- `OWNER <- o`. -/
def stepSetOwner (o : Owner) (s : State) : State := { s with regs.owner := o }

/-! Host operations (R163 to R167). -/

/-- The micro-steps of SD_INIT (R163). -/
def sdInitSteps (p : Config.Params) : List Micro :=
  [.deselect .S, .spiWrite .S (List.replicate p.nIdle 0xFF#8), .enter .cmd0, .cmd0Loop, frameCmd8, .cmd8Test, .a41Enter,
    .a41Loop, .setSdReady]

/-- The micro-steps of SD_READ_SECTOR (R164). -/
def sdReadSectorSteps (s : State) : List Micro :=
  [frameCmd17 s.cfg (sectorArg s), .cmd17Test, .dataPhase s.regs.len.toNat]

/-- The micro-steps of SD_READ_START (R165). -/
def sdReadStartSteps (s : State) : List Micro := [frameCmd18 s.cfg s.regs.arg, .cmd18Test, .setOwner .raw]

/-- The micro-steps of SD_READ_NEXT (R166). -/
def sdReadNextSteps (s : State) : List Micro := [.dataPhase s.regs.len.toNat]

/-- The micro-steps of SD_READ_END (R167). -/
def sdReadEndSteps (s : State) : List Micro := [frameCmd12 s.cfg, .setOwner .none]

/-- SD_INIT (R163). -/
def execSdInit (s : State) : Result := .next (issue 0x01#8 false (preSdInit s) true (sdInitSteps s.cfg) s)

/-- SD_READ_SECTOR (R164). -/
def execSdReadSector (s : State) : Result :=
  .next (issue 0x02#8 false (preStreamFree s) (sectorOk s) (sdReadSectorSteps s) s)

/-- SD_READ_START (R165): every 32-bit ARG is a legal argument. -/
def execSdReadStart (s : State) : Result :=
  .next (issue 0x03#8 false (preStreamFree s) true (sdReadStartSteps s) s)

/-- SD_READ_NEXT (R166). -/
def execSdReadNext (s : State) : Result :=
  .next (issue 0x04#8 false (preRaw s) (lenOk s) (sdReadNextSteps s) s)

/-- SD_READ_END (R167). -/
def execSdReadEnd (s : State) : Result :=
  .next (issue 0x05#8 false (preRaw s) true (sdReadEndSteps s) s)

end Sys2Proof.Machine
end

