-- ==== Sys2Proof/Machine/Chunk.lean ====
section
/-! DEFINITION. The chunk sequencer (42_chunk_sequencer.md): creation, pull and drop, and the host operations ITER_*. -/

namespace Sys2Proof.Machine

/-- CHUNK_MAX (00_scope.md R9). -/
def chunkMax : Nat := 512

/-- `ItStart(start, who)` (R201): CMD18, its test, and the register writes. -/
def itStart (p : Config.Params) (start : Word) (who : Owner) : List Micro :=
  [frameCmd18 p start, .cmd18Test, .itBegin start who]

/-- The register writes of `ItStart`, after the card has accepted command 18 (R201). -/
def stepItBegin (start : Word) (who : Owner) (s : State) : State :=
  { s with
    regs.owner := who
    regs.iterCur := start
    regs.iterEnd := BitVec.ofNat 32 (start.toNat + s.cfg.planeLen)
    regs.iterActive := true
    regs.iterEnded := false
    regs.chunkLen := 0#10 }

/-- The length of the next chunk, `min(CHUNK_MAX, ITER_END - ITER_CUR)` (R202). -/
def nextChunk (r : Regs) : Nat := min chunkMax (r.iterEnd.toNat - r.iterCur.toNat)

/-- `ItPull()` (R202): ITER_CUR is advanced before the data phase; the first pull that finds the plane's end sends
CMD12; later ones send nothing. -/
def stepItPull (s : State) : State :=
  if s.regs.iterCur < s.regs.iterEnd then
    push [.dataPhase (nextChunk s.regs), .setChunkLen (nextChunk s.regs)]
      { s with regs.iterCur := BitVec.ofNat 32 (s.regs.iterCur.toNat + nextChunk s.regs) }
  else if s.regs.iterEnded = false then push [frameCmd12 s.cfg, .pullEnd] s
  else { s with regs.chunkLen := 0#10 }

/-- `CHUNK_LEN <- n`. -/
def stepSetChunkLen (n : Nat) (s : State) : State := { s with regs.chunkLen := BitVec.ofNat 10 n }

/-- `OWNER <- NONE; ITER_ENDED <- 1; CHUNK_LEN <- 0` of the exhausting pull (R202). -/
def stepPullEnd (s : State) : State :=
  { s with regs.owner := .none, regs.iterEnded := true, regs.chunkLen := 0#10 }

/-- `ITER_ACTIVE <- 0; ITER_ENDED <- 0; CHUNK_LEN <- 0` (R203). -/
def clearIter (s : State) : State :=
  { s with regs.iterActive := false, regs.iterEnded := false, regs.chunkLen := 0#10 }

/-- `ItDrop()` (R203): an unexhausted sequence is sent its read_end first. -/
def stepItDrop (s : State) : State :=
  if s.regs.iterActive = true ∧ s.regs.iterEnded = false then push [frameCmd12 s.cfg, .dropEnd] s
  else clearIter s

/-- The register writes of a drop that sent read_end, OWNER among them (R203). They are one step, as 10_state.md R52
(iii) asks. -/
def stepDropEnd (s : State) : State := clearIter { s with regs.owner := .none }

/-! Host operations (R204 to R206). -/

/-- The micro-steps of ITER_START (R204). -/
def iterStartSteps (p : Bool) (s : State) : List Micro := itStart s.cfg (BitVec.ofNat 32 (planeStart p s)) .iter

/-- ITER_START (R204). -/
def execIterStart (p : Bool) (s : State) : Result :=
  .next (issue 0x10#8 p (preStreamFree s) (planeOk p s) (iterStartSteps p s) s)

/-- ITER_PULL (R205). -/
def execIterPull (s : State) : Result := .next (issue 0x11#8 false (preIterActive s) true [.itPull] s)

/-- ITER_DROP (R206): accepted in every state. -/
def execIterDrop (s : State) : Result := .next (issue 0x12#8 false true true [.itDrop] s)

end Sys2Proof.Machine
end

