-- ==== Sys2Proof/Machine/Display.lean ====
section
/-! DEFINITION. The display sequencer and its busy-wait arbiter (43_display.md): the display opcodes and the host
operations DISP_*. -/

namespace Sys2Proof.Machine

/-! Procedures (R220 to R226). -/

/-- `DCmd(op)` (R220): `Drive(DC, DC_CMD)` now, then the opcode's transaction. -/
def startDCmd (b : Byte) (s : State) : State :=
  push [.select .D, .spiWrite .D [b], .deselect .D] (doDrive .dc s.cfg.dcCmd s)

/-- `DData(bytes)` (R221): `Drive(DC, DC_DATA)` now, then one transaction of all the bytes. -/
def startDData (bytes : List Byte) (s : State) : State :=
  push [.select .D, .spiWrite .D bytes, .deselect .D] (doDrive .dc s.cfg.dcData s)

/-- `DData(MemRead(BUF, 0, n))` (R221, R242). -/
def startDBuf (n : Nat) (s : State) : State :=
  push [.select .D, .sendBuf 0 n, .deselect .D] (doDrive .dc s.cfg.dcData s)

/-- One byte of BUF sent, and the later ones left to run. -/
def stepSendBuf (i n : Nat) (s : State) : Result :=
  if n ≤ i then .next s
  else if bufSize ≤ i then .fault (.bufIndexOutside i)
  else
    match bufRead i s with
    | (b, s') => .next (spiByte .D b (fun t => if i + 1 < n then push [.sendBuf (i + 1) n] t else t) s')

/-- A display opcode and its parameter bytes, which are one data transaction where there are any (30_encoding.md R100,
R101; log 18). -/
def startDispOp (b : Byte) (params : List Byte) (s : State) : State :=
  startDCmd b (if params = [] then s else push [.dispData params] s)

/-- `Busy(s)` (R223): a read error counts as busy. -/
def busyNow (active : Level) : Config.BusySample → Bool
  | .err => true
  | .low => active == .low
  | .high => active == .high

/-- One iteration of `WaitIdle()` (R222): the busy-status query, then the sample. -/
def stepBusyLoop (s : State) : Result := poll .bsy (fun s' => .next (push [.dispOp 0x71#8, .busySample] s')) s

/-- `Sample(BUSY)` (40_transport.md R130), and the loop's decision (R222). -/
def stepBusySample (s : State) : State :=
  match drawBusy s with
  | (v, s') =>
    if busyNow s'.cfg.busyActive v then push [.hold .tPoll, .busyLoop] (emitD (.busy v) s')
    else setPoll .bsy none (emitD (.busy v) s')

/-- `ResetPulse()` (R224). -/
def resetPulse (p : Config.Params) : List Micro :=
  [.drive .rst p.rstActive, .hold .tRst, .drive .rst p.rstActive.not, .hold .tRst]

/-- One action of INIT_SEQ (R225). -/
def initStep : Config.InitStep → List Micro
  | .opcode b => [.dispOp b]
  | .data bytes => [.dispData bytes]
  | .waitIdle => waitIdle

/-- `RedFill()` with `rem` zero bytes to send (R245): transactions of 512 and one of the rest, BUF untouched. -/
def stepRedFill (rem : Nat) (s : State) : State :=
  if rem = 0 then s
  else push [.dispData (List.replicate (min chunkMax rem) 0x00#8), .redFill (rem - chunkMax)] s

/-- `DISP_READY <- 1` (R240). -/
def stepSetDispReady (s : State) : State := { s with regs.dispReady := true }

/-- `DISP_READY <- 0; err <- none` (R226). -/
def stepShutBegin (s : State) : State := { s with regs.dispReady := false, ctl.shutErr := none }

/-- `if err != none and CS_D = CS_ACTIVE: Deselect(D)` (R226). -/
def stepShutEnd (s : State) : State :=
  if s.ctl.shutErr ≠ none ∧ s.lines.csD = s.cfg.csActive then doDeselect .D s else s

/-- The return of `Shutdown()`: the halt sequence discards the code (60_exceptions.md R279), DISP_SHUTDOWN raises it
(R246). -/
def stepShutRet (s : State) : State :=
  if s.ctl.tearing then { s with ctl.shutErr := none }
  else
    match s.ctl.shutErr with
    | none => s
    | some c => raise c { s with ctl.shutErr := none }

/-- One iteration of DISP_REFRESH's chunk loop (R244). -/
def stepRefreshLoop (s : State) : State := push [.itPull, .refreshTest] s

/-- `if n == 0: break`, else one data transaction of the chunk (R244); the pull has left n in CHUNK_LEN (R202). -/
def stepRefreshTest (s : State) : State :=
  if s.regs.chunkLen = 0#10 then s else push [.dispBuf s.regs.chunkLen.toNat, .refreshLoop] s

/-! Display opcodes (R227 to R239): the opcode's transaction, then its parameter bytes' where the table gives it any. -/

/-- 0x00 D_PSR, "panel setting" (R229). -/
def execDPsr (s : State) : Result := .next (startDispOp 0x00#8 s.cfg.pPsr s)

/-- 0x01 D_PWR, "power setting" (R227). -/
def execDPwr (s : State) : Result := .next (startDispOp 0x01#8 s.cfg.pPwr s)

/-- 0x02 D_POF, "power-off sequence" (R238). -/
def execDPof (s : State) : Result := .next (startDispOp 0x02#8 [] s)

/-- 0x04 D_PON, "power-on" (R228). -/
def execDPon (s : State) : Result := .next (startDispOp 0x04#8 [] s)

/-- 0x07 D_DSLP, deep sleep with its check byte 0xA5 (R239). -/
def execDDslp (s : State) : Result := .next (startDispOp 0x07#8 [0xA5#8] s)

/-- 0x10 D_DTM1, "write black-plane RAM" (R234): the plane's bytes follow chunk by chunk (R244). -/
def execDDtm1 (s : State) : Result := .next (startDispOp 0x10#8 [] s)

/-- 0x12 D_DRF, "trigger refresh" (R236). -/
def execDDrf (s : State) : Result := .next (startDispOp 0x12#8 [] s)

/-- 0x13 D_DTM2, "write red-plane RAM" (R235): the filler follows (R245). -/
def execDDtm2 (s : State) : Result := .next (startDispOp 0x13#8 [] s)

/-- 0x15 D_DUSPI, "dual-SPI disable" (R231). -/
def execDDuspi (s : State) : Result := .next (startDispOp 0x15#8 s.cfg.pDuspi s)

/-- 0x50 D_CDI, "VCOM/border setting" (R232). -/
def execDCdi (s : State) : Result := .next (startDispOp 0x50#8 s.cfg.pCdi s)

/-- 0x60 D_TCON, "TCON setting" (R233). -/
def execDTcon (s : State) : Result := .next (startDispOp 0x60#8 s.cfg.pTcon s)

/-- 0x61 D_TRES, "resolution setting" (R230). -/
def execDTres (s : State) : Result := .next (startDispOp 0x61#8 s.cfg.pTres s)

/-- 0x71 D_FLG, "busy-status query" (R237): the answer is the BUSY sample that follows. -/
def execDFlg (s : State) : Result := .next (startDispOp 0x71#8 [] s)

/-! Host operations (R240 to R246). -/

/-- The micro-steps of DISP_INIT (R240). -/
def dispInitSteps (p : Config.Params) : List Micro :=
  resetPulse p ++ p.initSeq.flatMap initStep ++ [.setDispReady]

/-- The micro-steps of DISP_REFRESH (R244). -/
def dispRefreshSteps (s : State) : List Micro :=
  itStart s.cfg (BitVec.ofNat 32 (planeStart false s)) .refresh ++
  [.dispOp 0x10#8, .refreshLoop, .itDrop, .dispOp 0x13#8, .redFill s.cfg.planeLen, .dispOp 0x12#8, .hold .tRefresh] ++
  waitIdle

/-- DISP_INIT (R240). -/
def execDispInit (s : State) : Result := .next (issue 0x20#8 false (preDispOff s) true (dispInitSteps s.cfg) s)

/-- DISP_CMD (R241): any byte is sent as it is. -/
def execDispCmd (s : State) : Result :=
  .next (issue 0x21#8 false (preDispOn s) (dispCmdOk s) [.dispCmd (dispCmdOpcode s)] s)

/-- DISP_DATA (R242). -/
def execDispData (s : State) : Result :=
  .next (issue 0x22#8 false (preDispOn s) (lenOk s) [.dispBuf s.regs.len.toNat] s)

/-- DISP_WAIT_IDLE (R243). -/
def execDispWaitIdle (s : State) : Result := .next (issue 0x23#8 false (preDispOn s) true waitIdle s)

/-- DISP_REFRESH (R244). -/
def execDispRefresh (s : State) : Result :=
  .next (issue 0x24#8 false (preRefresh s) (planeOk false s) (dispRefreshSteps s) s)

/-- DISP_SHUTDOWN (R246). -/
def execDispShutdown (s : State) : Result := .next (issue 0x25#8 false (preDispOn s) true shutdown s)

end Sys2Proof.Machine
end

