-- ==== Sys2Proof/Machine/Tokens.lean ====
section
/-! DEFINITION. The two tokens the card sends on port S (30_encoding.md R98, R99): what the engine does with one it has
received in the poll that looks for it. -/

namespace Sys2Proof.Machine

/-- R1 (41_storage.md R151): the response is recorded and the R1 poll ends. -/
def execR1 (b : Byte) (s : State) : Result :=
  .next (setPoll .r1 none { s with regs.lastR1 := b })

/-- START_TOKEN (41_storage.md R154): the start-token poll ends. -/
def execStartToken (s : State) : Result :=
  .next (setPoll .tok none s)

/-- An iteration of a poll that goes on after it received no token. -/
def pollAgain (m : Micro) (s : State) : State := push [m] s

end Sys2Proof.Machine
end

