-- ==== Sys2Proof/Machine/Dispatch.lean ====
section
/-! DEFINITION. One arm per instruction. -/

namespace Sys2Proof.Machine

/-- The meaning of every instruction of the opcode table. -/
def exec (i : Instr) (s : State) : Host.Outcome State Fault Refusal :=
  match i with
  -- Host operations
  | .sdInit => Sys2Proof.Machine.execSdInit s
  | .sdReadSector => Sys2Proof.Machine.execSdReadSector s
  | .sdReadStart => Sys2Proof.Machine.execSdReadStart s
  | .sdReadNext => Sys2Proof.Machine.execSdReadNext s
  | .sdReadEnd => Sys2Proof.Machine.execSdReadEnd s
  | .iterStart p => Sys2Proof.Machine.execIterStart p s
  | .iterPull => Sys2Proof.Machine.execIterPull s
  | .iterDrop => Sys2Proof.Machine.execIterDrop s
  | .dispInit => Sys2Proof.Machine.execDispInit s
  | .dispCmd => Sys2Proof.Machine.execDispCmd s
  | .dispData => Sys2Proof.Machine.execDispData s
  | .dispWaitIdle => Sys2Proof.Machine.execDispWaitIdle s
  | .dispRefresh => Sys2Proof.Machine.execDispRefresh s
  | .dispShutdown => Sys2Proof.Machine.execDispShutdown s
  -- Card commands
  | .cmd0 arg chk => Sys2Proof.Machine.execCmd0 arg chk s
  | .cmd8 arg chk => Sys2Proof.Machine.execCmd8 arg chk s
  | .cmd55 arg chk => Sys2Proof.Machine.execCmd55 arg chk s
  | .cmd41 arg chk => Sys2Proof.Machine.execCmd41 arg chk s
  | .cmd17 arg chk => Sys2Proof.Machine.execCmd17 arg chk s
  | .cmd18 arg chk => Sys2Proof.Machine.execCmd18 arg chk s
  | .cmd12 arg chk => Sys2Proof.Machine.execCmd12 arg chk s
  -- Tokens
  | .startToken => Sys2Proof.Machine.execStartToken s
  | .r1 b => Sys2Proof.Machine.execR1 b s
  -- Display opcodes
  | .dPsr => Sys2Proof.Machine.execDPsr s
  | .dPwr => Sys2Proof.Machine.execDPwr s
  | .dPof => Sys2Proof.Machine.execDPof s
  | .dPon => Sys2Proof.Machine.execDPon s
  | .dDslp => Sys2Proof.Machine.execDDslp s
  | .dDtm1 => Sys2Proof.Machine.execDDtm1 s
  | .dDrf => Sys2Proof.Machine.execDDrf s
  | .dDtm2 => Sys2Proof.Machine.execDDtm2 s
  | .dDuspi => Sys2Proof.Machine.execDDuspi s
  | .dCdi => Sys2Proof.Machine.execDCdi s
  | .dTcon => Sys2Proof.Machine.execDTcon s
  | .dTres => Sys2Proof.Machine.execDTres s
  | .dFlg => Sys2Proof.Machine.execDFlg s

end Sys2Proof.Machine
end

