-- ==== Sys2Proof/Machine/Flags.lean ====
section
/-! DEFINITION. The registers the host reads as words of fields: STATUS (10_state.md R36) and PINS (R48). -/

namespace Sys2Proof.Machine

/-- The OWNER field (R40). -/
def ownerBits : Owner → BitVec 2
  | .none => 0#2
  | .raw => 1#2
  | .iter => 2#2
  | .refresh => 3#2

/-- STREAM_OPEN: 1 exactly when OWNER is not NONE (R40). -/
def streamOpen (r : Regs) : Bool := r.owner != .none

/-- STATUS (R36), bit 31 first. -/
def statusWord (r : Regs) : Word :=
  ((((((((((r.lastR1 ++ r.faultCode) ++ 0#6) ++ BitVec.ofBool r.ovr) ++ BitVec.ofBool r.dispReady)
    ++ BitVec.ofBool r.iterEnded) ++ BitVec.ofBool r.iterActive) ++ ownerBits r.owner)
    ++ BitVec.ofBool (streamOpen r)) ++ BitVec.ofBool r.sdReady) ++ BitVec.ofBool r.halted)
    ++ BitVec.ofBool r.running

/-- PINS (R48): DC, RST, CS_D, CS_S in bits 3 to 0. -/
def pinsWord (l : Lines) : Word :=
  ((((0#28 ++ BitVec.ofBool l.dc.isHigh) ++ BitVec.ofBool l.rst.isHigh) ++ BitVec.ofBool l.csD.isHigh)
    ++ BitVec.ofBool l.csS.isHigh)

/-- LEN and CHUNK_LEN as the host reads them: bits [31:10] read 0 (R34, R46). -/
def zext10 (v : BitVec 10) : Word := v.setWidth 32

end Sys2Proof.Machine
end

