-- ==== Sys2Proof/Machine/HostPort.lean ====
section
/-! DEFINITION. The host's register accesses (20_memory.md R71 to R74, R87), but for the issue of an operation. -/

namespace Sys2Proof.Machine

/-- BUF word k, little-endian (R74); a byte never written is a draw (10_state.md R49). -/
def readBufWord (k : Nat) (s : State) : Word × State :=
  match bufRead (4 * k) s with
  | (b0, s0) =>
    match bufRead (4 * k + 1) s0 with
    | (b1, s1) =>
      match bufRead (4 * k + 2) s1 with
      | (b2, s2) =>
        match bufRead (4 * k + 3) s2 with
        | (b3, s3) => (((b3 ++ b2) ++ b1) ++ b0, s3)

/-- Set the four bytes of BUF word k (R74). -/
def writeBufWord (k : Nat) (v : Word) (s : State) : State :=
  bufWrite (4 * k + 3) (v.extractLsb' 24 8) (bufWrite (4 * k + 2) (v.extractLsb' 16 8)
    (bufWrite (4 * k + 1) (v.extractLsb' 8 8) (bufWrite (4 * k) (v.extractLsb' 0 8) s)))

/-- The value a host read of an aligned offset returns (R71): CMD and the reserved offsets read 0 (R72). -/
def readWord (offset : Nat) (s : State) : Word × State :=
  if 0x200 ≤ offset then readBufWord ((offset - 0x200) / 4) s
  else if offset = 0x004 then (s.regs.arg, s)
  else if offset = 0x008 then (zext10 s.regs.len, s)
  else if offset = 0x00C then (statusWord s.regs, s)
  else if offset = 0x010 then (zext10 s.regs.chunkLen, s)
  else if offset = 0x014 then (s.regs.iterCur, s)
  else if offset = 0x018 then (s.regs.iterEnd, s)
  else if offset = 0x01C then (pinsWord s.lines, s)
  else (0x00000000#32, s)

/-- A host write of an aligned offset other than CMD (R71): ARG, LEN and BUF store it, but not while RUNNING = 1 (R87);
read-only and reserved offsets ignore it (R72). -/
def writeWord (offset : Nat) (v : Word) (s : State) : State :=
  if s.regs.running then s
  else if 0x200 ≤ offset then writeBufWord ((offset - 0x200) / 4) v s
  else if offset = 0x004 then { s with regs.arg := v }
  else if offset = 0x008 then { s with regs.len := v.setWidth 10 }
  else s

/-- Record what a host read returned. -/
def recordRead (offset : Nat) (v : Word) (s : State) : State :=
  { s with obs.host := { offset := offset, value := v } :: s.obs.host }

/-- Every host access is one aligned 32-bit word inside the register space; any other is refused (R73), or faults where
no offset exists (R70, log 14). -/
def hostAccess (offset size : Nat) (k : State → Result) (s : State) : Result :=
  if size ≠ 4 ∨ offset % 4 ≠ 0 then .refused (.hostAccessNotAWord offset size)
  else if 0x400 ≤ offset then .fault (.hostOffsetOutsideSpace offset)
  else k s

/-- A host read (R71, R79). -/
def hostRead (offset size : Nat) (s : State) : Result :=
  hostAccess offset size
    (fun s' => match readWord offset s' with
      | (v, t) => .next (recordRead offset v t)) s

end Sys2Proof.Machine
end

