-- ==== Sys2Proof/Machine/Engine.lean ====
section
/-! DEFINITION. What one turn does: a micro-step of the engine, which fetches, decodes and runs the wire instructions
that stand in `seq` and the tokens the card sends, or one host access, which fetches, decodes and runs an operation
word. -/

namespace Sys2Proof.Machine

/-- Fetch a card command: decode its frame and run it (30_encoding.md R96, R97). -/
def runFrame (w : BitVec 48) (s : State) : Result :=
  match decode (.frame w) with
  | .ok i => exec i s
  | .error _ => .refused (.frameNotACommand w)

/-- Fetch a display opcode: decode it and run it; an opcode that INIT_SEQ adds beyond R100's is sent as it is (43_display.md
R225, log 18). -/
def runDispOp (b : Byte) (s : State) : Result :=
  match decode (.disp b) with
  | .ok i => exec i s
  | .error _ => .next (startDCmd b s)

/-- Receive a byte in a poll: decode it as the token the poll looks for and run that, else poll again
(41_storage.md R151, R154). -/
def runToken (x : Wire) (again : Micro) (s : State) : Result :=
  match decode x with
  | .ok i => exec i s
  | .error _ => .next (pollAgain again s)

/-- One iteration of a poll on port S: `Poll(L)`, the transfer of byte o, then what was received (R151, R154). -/
def pollToken (l : Loop) (o : Byte) (wire : Byte → Wire) (again : Micro) (s : State) : Result :=
  poll l (spiXfer o (fun i => runToken (wire i) again)) s

/-- One micro-step, with the steps after it left in `seq`. The R1 poll's out-byte is FILL_RD, as for every read transfer
(00_scope.md R11, 30_encoding.md R99): DEDUCED (log 25), 41_storage.md R151 writes its value 0xFF. -/
def microStep (m : Micro) (s : State) : Result :=
  match m with
  | .select p => .next (doSelect p s)
  | .deselect p => .next (doDeselect p s)
  | .spiWrite p bytes => .next (stepSpiWrite p bytes s)
  | .sendBuf i n => stepSendBuf i n s
  | .drive l v => .next (doDrive l v s)
  | .hold h => .next (doHold h s)
  | .enter l => .next (setPoll l (some 0) s)
  | .frame w => runFrame w s
  | .r1Poll => pollToken .r1 s.cfg.fillRd .r1 .r1Poll s
  | .tokenPoll => pollToken .tok s.cfg.fillRd .token .tokenPoll s
  | .payload i n => stepPayload i n s
  | .trailer => stepTrailer s
  | .dataPhase n => .next (startDataPhase n s)
  | .cmd0Loop => stepCmd0Loop s
  | .cmd0Test => .next (stepCmd0Test s)
  | .cmd8Test => .next (stepCmd8Test s)
  | .a41Enter => .next (stepA41Enter s)
  | .a41Loop => stepA41Loop s
  | .cmd41Test => .next (stepCmd41Test s)
  | .setSdReady => .next (stepSetSdReady s)
  | .cmd17Test => .next (stepCmd17Test s)
  | .cmd18Test => .next (stepCmd18Test s)
  | .setOwner o => .next (stepSetOwner o s)
  | .itBegin start who => .next (stepItBegin start who s)
  | .itPull => .next (stepItPull s)
  | .setChunkLen n => .next (stepSetChunkLen n s)
  | .pullEnd => .next (stepPullEnd s)
  | .itDrop => .next (stepItDrop s)
  | .dropEnd => .next (stepDropEnd s)
  | .dispOp b => runDispOp b s
  | .dispCmd b => .next (startDCmd b s)
  | .dispData bytes => .next (startDData bytes s)
  | .dispBuf n => .next (startDBuf n s)
  | .busyLoop => stepBusyLoop s
  | .busySample => .next (stepBusySample s)
  | .setDispReady => .next (stepSetDispReady s)
  | .refreshLoop => .next (stepRefreshLoop s)
  | .refreshTest => .next (stepRefreshTest s)
  | .redFill n => .next (stepRedFill n s)
  | .shutBegin => .next (stepShutBegin s)
  | .shutEnd => .next (stepShutEnd s)
  | .shutRet => .next (stepShutRet s)
  | .haltEnd => .next (finishHalt s)

/-- One engine turn: nothing while RUNNING = 0; else the next micro-step, or completion where none is left (40_transport.md
R124). -/
def engineStep (s : State) : Result :=
  if s.regs.running then
    match s.ctl.seq with
    | [] => .next (complete s)
    | m :: rest => microStep m (setSeq rest s)
  else .next s

/-- The fault an operation word that does not decode raises (30_encoding.md R93, R94). -/
def issueFault : DecodeError → FaultCode
  | .illegalOpcode => .illegalOpcode
  | .reservedBits => .reservedBits
  | .badFrameStart => .illegalOpcode
  | .unknownCardCommand => .illegalOpcode
  | .fillerByte => .illegalOpcode
  | .notStartToken => .illegalOpcode
  | .unknownDisplayOpcode => .illegalOpcode

/-- A host write of w to CMD (40_transport.md R120): decode the operation word and run it, or raise the fault of its
encoding, where the write is accepted. -/
def issueWord (w : Word) (s : State) : Result :=
  match decode (.op w) with
  | .ok i => exec i s
  | .error e => .next (accept (opcField w) (planeField w) (halt (issueFault e)) s)

/-- A host write (20_memory.md R71): to CMD it issues, elsewhere it stores. -/
def hostWrite (offset size : Nat) (v : Word) (s : State) : Result :=
  hostAccess offset size (fun s' => if offset = 0x000 then issueWord v s' else .next (writeWord offset v s')) s

/-- Leave the schedule with its first turn taken. -/
def setSched (q : List Turn) (s : State) : State := { s with env.sched := q }

/-- One turn of the total order (20_memory.md R81): the next one scheduled, or the engine's where none is. -/
def takeTurn (s : State) : Result :=
  match s.env.sched with
  | [] => engineStep s
  | .engine :: q => engineStep (setSched q s)
  | .wait :: q => if s.regs.running then engineStep s else .next (setSched q s)
  | .read offset size :: q => hostRead offset size (setSched q s)
  | .write offset size v :: q => hostWrite offset size v (setSched q s)
  | .reset :: q => .next (resetEngine (setSched q s))

/-- Place the bits of an opcode-table row where the next turn fetches an instruction: an operation word as a host write
to CMD; a frame or a display opcode at the head of a running sequencer; a token as the byte the card answers next, in
the poll that looks for it. -/
def placeWire (x : Wire) (s : State) : State :=
  match x with
  | .op w => { s with env.sched := .write 0x000 4 w :: s.env.sched }
  | .frame w =>
    { s with env.sched := .engine :: s.env.sched, regs.running := true, ctl.seq := .frame w :: s.ctl.seq }
  | .disp b =>
    { s with env.sched := .engine :: s.env.sched, regs.running := true, ctl.seq := .dispOp b :: s.ctl.seq }
  | .r1 b =>
    { s with
      env.sched := .engine :: s.env.sched
      env.cardIn := some b :: s.env.cardIn
      regs.running := true
      ctl.seq := .r1Poll :: s.ctl.seq
      ctl.poll.r1 := some 0 }
  | .token b =>
    { s with
      env.sched := .engine :: s.env.sched
      env.cardIn := some b :: s.env.cardIn
      regs.running := true
      ctl.seq := .tokenPoll :: s.ctl.seq
      ctl.poll.tok := some 0 }

end Sys2Proof.Machine
end

