-- ==== Sys2Proof/Machine/Step.lean ====
section
/-! DEFINITION. The step function, and where an instruction is placed for it to fetch. -/

namespace Sys2Proof.Machine

/-- One step: one engine micro-step or one host access (20_memory.md R80, R81; 70_reset_and_hazards.md R314). -/
def step (s : State) : Host.Outcome State Fault Refusal := takeTurn s

/-- s with the instruction whose bits are w stored where `step` fetches its next instruction. -/
def State.withFetchWord (s : State) (nbits w : Nat) : State :=
  match tableWire nbits w with
  | none => s
  | some x => placeWire x s

end Sys2Proof.Machine
end

