-- ==== Sys2Proof/Machine/HostProgram.lean ====
section
/-! DEFINITION. The host-program notation (30_encoding.md R103, R104), as the turns a program asks for. -/

namespace Sys2Proof.Machine

/-- A register a host program names. -/
inductive HostReg where
  | cmd
  | arg
  | len
  | status
  | chunkLen
  | iterCur
  | iterEnd
  | pins
  /-- `BUF+4k`. -/
  | bufWord (k : Nat)
  deriving DecidableEq, Repr

/-- The register map (20_memory.md R71). -/
def HostReg.offset : HostReg → Nat
  | .cmd => 0x000
  | .arg => 0x004
  | .len => 0x008
  | .status => 0x00C
  | .chunkLen => 0x010
  | .iterCur => 0x014
  | .iterEnd => 0x018
  | .pins => 0x01C
  | .bufWord k => 0x200 + 4 * k

/-- The statements of R103; `expect` is a claim, not a host action, and is none of them. -/
inductive HostStmt where
  | write (r : HostReg) (v : Word)
  | read (r : HostReg)
  /-- `issue M`, with P in ITER_START's own operand. -/
  | issue (m : Instr)
  | wait
  /-- The pseudo-statement `op M [arg=a] [len=n]`. -/
  | op (m : Instr) (arg len : Option Word)
  /-- The pseudo-statement `pull`. -/
  | pull
  /-- `repeat n:`. -/
  | rep (n : Nat) (body : HostStmt)
  /-- One statement after another. -/
  | andThen (a b : HostStmt)
  deriving DecidableEq, Repr

/-- One host write of a 32-bit word. -/
def writeTurn (r : HostReg) (v : Word) : Turn := .write r.offset 4 v

/-- `issue M` (R104): one write of the operation word to CMD; nothing for an instruction the host does not issue. -/
def issueTurns (m : Instr) : List Turn :=
  match encode m with
  | .op w => [writeTurn .cmd w]
  | .frame _ => []
  | .r1 _ => []
  | .token _ => []
  | .disp _ => []

/-- A list n times in order. -/
def repeatTurns : Nat → List Turn → List Turn
  | 0, _ => []
  | n + 1, q => q ++ repeatTurns n q

/-- The host actions of a statement, in order. -/
def HostStmt.turns : HostStmt → List Turn
  | .write r v => [writeTurn r v]
  | .read r => [.read r.offset 4]
  | .issue m => issueTurns m
  | .wait => [.wait]
  | .op m a n =>
    (match a with | some v => [writeTurn .arg v] | none => []) ++
    (match n with | some v => [writeTurn .len v] | none => []) ++ issueTurns m ++ [.wait]
  | .pull => issueTurns .iterPull ++ [.wait]
  | .rep n body => repeatTurns n body.turns
  | .andThen a b => a.turns ++ b.turns

/-- A state whose host runs a program next. -/
def State.withProgram (p : HostStmt) (s : State) : State :=
  { s with env.sched := p.turns ++ s.env.sched }

end Sys2Proof.Machine
end

