-- ==== Sys2Proof/Safety.lean ====
section
/-! DEFINITION. The terms in which claims are made: runs and how they end (60_exceptions.md R289), what a card and a panel
answer, the events of a transaction (00_scope.md R19), and the invariants (10_state.md R52). -/

namespace Sys2Proof.Machine

/-! Runs. -/

/-- n steps, stopping at the first fault or refusal. -/
def runSteps : Nat → State → Result
  | 0, s => .next s
  | n + 1, s =>
    match step s with
    | .next t => runSteps n t
    | .fault r => .fault r
    | .refused r => .refused r

/-- A run of steps leads from s to t. -/
def Reaches (s t : State) : Prop := ∃ n, runSteps n s = .next t

/-- The engine waits for an operation: not halted, not running. -/
def Idle (s : State) : Prop := s.regs.halted = false ∧ s.regs.running = false

/-- No turn is fixed, so the engine's micro-steps follow one another. -/
def Undisturbed (s : State) : Prop := s.env.sched = []

/-- A step's outcome, with these turns still to be taken where it answers a next state. -/
def withTurns (turns : List Turn) : Result → Result
  | .next t => .next { t with env.sched := turns }
  | .fault r => .fault r
  | .refused r => .refused r

/-- The sequencer is about to run these micro-steps and then `rest`, with no host access between them. -/
def AtSteps (q rest : List Micro) (s : State) : Prop :=
  Undisturbed s ∧ s.regs.running = true ∧ s.ctl.seq = q ++ rest

/-- The issued operation runs to completion (40_transport.md R124) in the state u. -/
def Completes (i : Instr) (s u : State) : Prop :=
  ∃ t, exec i s = .next t ∧ Reaches t u ∧ u.regs.running = false ∧ u.regs.halted = false ∧ u.ctl.seq = []

/-- How a host program has ended (60_exceptions.md R289); a run that reaches none of these is hung. -/
inductive Ending where
  | completed
  | faulted (code : Byte)
  deriving DecidableEq, Repr

/-- The outcome of a state in which the host's statements are done and RUNNING = 0 (R289). -/
def ending (s : State) : Option Ending :=
  if s.env.sched = [] ∧ s.regs.running = false then
    if s.regs.halted then some (.faulted s.regs.faultCode) else some .completed
  else none

/-! What a card answers, and the events of its transactions; events newest first, as `Obs` holds them. -/

/-- The card's answers during one command transaction (41_storage.md R150): six to the frame's bytes, k fillers, the
response r, and one to the release byte. -/
def txAnswers (ws : List Byte) (k : Nat) (r x : Byte) : List (Option Byte) :=
  ws.map some ++ List.replicate k (some 0xFF#8) ++ [some r, some x]

/-- The events of that transaction: `S+ S> f0 … S> f5 S< 0xFF* S< r S- S> FF` (R150), each read transfer
with FILL_RD as its out-byte (R11, R19; log 25). -/
def txEvents (fill : Byte) (w : BitVec 48) (k : Nat) (r : Byte) : List EventS :=
  .write 0xFF#8 true :: .deselect :: .xfer fill (some r) ::
    (List.replicate k (.xfer fill (some 0xFF#8)) ++
      ((frameBytes w).map (fun b => EventS.write b true)).reverse ++ [.select])

/-- The card's answers during one data phase (R153): bytes that are no start token, the token, the payload and two
trailer bytes. -/
def phaseAnswers (junk data : List Byte) (t0 t1 : Byte) : List (Option Byte) :=
  junk.map some ++ some 0xFE#8 :: data.map some ++ [some t0, some t1]

/-- The events of that data phase: `S+ S< x* S< FE S< d0 … S< d(n-1) S< t0 S< t1 S-` (R153). -/
def phaseEvents (fill : Byte) (junk data : List Byte) (t0 t1 : Byte) : List EventS :=
  .deselect :: .xfer fill (some t1) :: .xfer fill (some t0) ::
    ((data.map (fun b => EventS.xfer fill (some b))).reverse ++ .xfer fill (some 0xFE#8) ::
      (junk.map (fun b => EventS.xfer fill (some b))).reverse ++ [.select])

/-- One command transaction as the card answers it: the bytes it returns to the frame, how many fillers, the response,
and the byte it returns to the release byte. -/
structure CardTx where
  ws : List Byte
  fill : Nat
  r : Byte
  x : Byte
  deriving DecidableEq, Repr

/-- The transaction has a frame's six bytes, a response that is no filler, and a poll within POLL_LIMIT. -/
def CardTx.fits (p : Config.Params) (t : CardTx) : Bool :=
  t.ws.length == 6 && t.r != 0xFF#8 && !aboveLimit p.pollLimit (t.fill + 1)

/-- The frames sent and the transactions they began, oldest first. -/
abbrev Transcript := List (BitVec 48 × CardTx)

/-- The card's answers during the transactions. -/
def Transcript.answers (tr : Transcript) : List (Option Byte) :=
  tr.flatMap (fun c => txAnswers c.2.ws c.2.fill c.2.r c.2.x)

/-- The events of the transactions, newest first. -/
def Transcript.events (fill : Byte) (tr : Transcript) : List EventS :=
  tr.reverse.flatMap (fun c => txEvents fill c.1 c.2.fill c.2.r)

/-- One data phase as the card answers it: the bytes before the token, the payload, the trailer. -/
structure Phase where
  junk : List Byte
  data : List Byte
  t0 : Byte
  t1 : Byte
  deriving DecidableEq, Repr

/-- The phase has n payload bytes, no early token, and a poll within POLL_LIMIT. -/
def Phase.fits (p : Config.Params) (n : Nat) (ph : Phase) : Bool :=
  ph.junk.all (· != 0xFE#8) && ph.data.length == n && !aboveLimit p.pollLimit (ph.junk.length + 1)

/-- The card's answers during the phase. -/
def Phase.answers (ph : Phase) : List (Option Byte) := phaseAnswers ph.junk ph.data ph.t0 ph.t1

/-- The events of the phase, newest first. -/
def Phase.events (fill : Byte) (ph : Phase) : List EventS := phaseEvents fill ph.junk ph.data ph.t0 ph.t1

/-- The chunk lengths of a plane of length L: 512 repeated ⌊L / 512⌋ times, then L mod 512 if that is not zero
(42_chunk_sequencer.md R207). -/
def chunkSizes (l : Nat) : List Nat := List.replicate (l / 512) 512 ++ (if l % 512 = 0 then [] else [l % 512])

/-- BUF with the payload's bytes stored from an index up (R153). -/
def storeBytes : Memory → Nat → List Byte → Memory
  | m, _, [] => m
  | m, i, b :: bs => storeBytes (m.write i b) (i + 1) bs

/-- How many of the n BUF bytes from an index up nothing has written since reset: a read of each is a draw (10_state.md
R49). -/
def unwritten (m : Memory) (i n : Nat) : Nat := (List.range' i n).countP (fun k => (m.read k).isNone)

/-! The events of the panel's transactions. -/

/-- `D.cmd(op)` (00_scope.md R19). -/
def dcmdEvents (p : Config.Params) (b : Byte) : List EventD :=
  [.deselect, .write b true, .select, .drive .dc p.dcCmd]

/-- `D.data(b0 … bn)` (00_scope.md R19). -/
def ddataEvents (p : Config.Params) (bytes : List Byte) : List EventD :=
  .deselect :: ((bytes.map (fun b => EventD.write b true)).reverse ++ [.select, .drive .dc p.dcData])

/-- The data bytes of a display opcode, as 30_encoding.md R100 lists them; none for D_DTM1 and D_DTM2, whose plane bytes
the refresh sends chunk by chunk (R244, R245). -/
def displayData (p : Config.Params) (b : Byte) : List Byte :=
  if b = 0x00#8 then p.pPsr
  else if b = 0x01#8 then p.pPwr
  else if b = 0x07#8 then [0xA5#8]
  else if b = 0x15#8 then p.pDuspi
  else if b = 0x50#8 then p.pCdi
  else if b = 0x60#8 then p.pTcon
  else if b = 0x61#8 then p.pTres
  else []

/-- The events of an opcode and its data bytes (R100). -/
def opcodeEvents (p : Config.Params) (b : Byte) : List EventD :=
  (if displayData p b = [] then [] else ddataEvents p (displayData p b)) ++ dcmdEvents p b

/-- The events of a busy-wait whose samples were `busy`, all busy, and then `ready` (43_display.md R222). -/
def waitEvents (p : Config.Params) (busy : List Config.BusySample) (ready : Config.BusySample) : List EventD :=
  .busy ready :: dcmdEvents p 0x71#8 ++
    (busy.reverse.flatMap (fun v => .hold .tPoll :: .busy v :: dcmdEvents p 0x71#8))

/-- The events of `Shutdown()` without a fault (R226). -/
def shutdownEvents (p : Config.Params) (busy : List Config.BusySample) (ready : Config.BusySample) : List EventD :=
  .drive .dc .low :: .drive .rst .low :: ddataEvents p [0xA5#8] ++ dcmdEvents p 0x07#8 ++
    waitEvents p busy ready ++ dcmdEvents p 0x02#8

/-! Issue. -/

/-- The state right after a write to CMD is accepted (40_transport.md R120). -/
def issued (opc : Byte) (p : Bool) (s : State) : State :=
  { s with regs.running := true, ctl.op := some (opc, p) }

/-- The OPC values that select an operation (30_encoding.md R92, R93). -/
def legalOpc (opc : Byte) : Bool :=
  (1 ≤ opc.toNat && opc.toNat ≤ 5) || (0x10 ≤ opc.toNat && opc.toNat ≤ 0x12) || (0x20 ≤ opc.toNat && opc.toNat ≤ 0x25)

/-- The state preconditions of 60_exceptions.md R272; true where it lists none. -/
def stateCheck (i : Instr) (s : State) : Bool :=
  match i with
  | .sdInit => s.regs.sdReady == false
  | .sdReadSector => s.regs.sdReady && s.regs.owner == .none
  | .sdReadStart => s.regs.sdReady && s.regs.owner == .none
  | .sdReadNext => s.regs.owner == .raw
  | .sdReadEnd => s.regs.owner == .raw
  | .iterStart _ => s.regs.sdReady && s.regs.owner == .none
  | .iterPull => s.regs.iterActive
  | .dispInit => s.regs.dispReady == false
  | .dispCmd => s.regs.dispReady
  | .dispData => s.regs.dispReady
  | .dispWaitIdle => s.regs.dispReady
  | .dispRefresh => s.regs.dispReady && s.regs.sdReady && s.regs.owner == .none
  | .dispShutdown => s.regs.dispReady
  | _ => true

/-- The operand checks of R272, with PLANE_LEN for 48000; true where it lists none. -/
def operandCheck (i : Instr) (s : State) : Bool :=
  match i with
  | .sdReadSector => decide (1 ≤ s.regs.len.toNat) && decide (s.regs.len.toNat ≤ 512) && decide (s.regs.arg.toNat < 2 ^ 23)
  | .sdReadNext => decide (1 ≤ s.regs.len.toNat) && decide (s.regs.len.toNat ≤ 512)
  | .iterStart p =>
    decide (s.regs.arg.toNat + (if p then s.cfg.planeLen else 0) + s.cfg.planeLen ≤ 0xFFFFFFFF)
  | .dispCmd => decide (s.regs.arg.toNat ≤ 0xFF)
  | .dispData => decide (1 ≤ s.regs.len.toNat) && decide (s.regs.len.toNat ≤ 512)
  | .dispRefresh => decide (s.regs.arg.toNat + s.cfg.planeLen ≤ 0xFFFFFFFF)
  | _ => true

/-! Invariants. -/

/-- What a micro-step's own operands satisfy in every program: a frame is one of the seven commands with the operands of
30_encoding.md R97, a length is at most 512, a plane ends inside 32 bits. -/
def Micro.bounded (p : Config.Params) : Micro → Bool
  | .frame w =>
    match decode (.frame w) with
    | .ok i => i.wf p
    | .error _ => false
  | .payload _ n => decide (n ≤ 512)
  | .sendBuf _ n => decide (n ≤ 512)
  | .dataPhase n => decide (n ≤ 512)
  | .dispBuf n => decide (n ≤ 512)
  | .setChunkLen n => decide (n ≤ 512)
  | .itBegin start _ => decide (start.toNat + p.planeLen ≤ 0xFFFFFFFF)
  | _ => true

/-- Every micro-step still to run is within its bounds, and CHUNK_LEN holds a chunk's length (10_state.md R46). -/
def StepsBounded (s : State) : Prop :=
  (∀ m ∈ s.ctl.seq, m.bounded s.cfg = true) ∧ s.regs.chunkLen.toNat ≤ 512

/-- R52 (v), with what makes it last: the last step of a halt is pending only after a fault. -/
def HaltSound (s : State) : Prop :=
  (s.regs.halted = true → s.regs.running = false ∧ s.regs.faultCode ≠ 0x00#8) ∧
  (Micro.haltEnd ∈ s.ctl.seq → s.regs.faultCode ≠ 0x00#8)

/-- Micro-steps that concern no chunk sequence and no OWNER. -/
def Micro.offSequence : Micro → Bool
  | .itBegin _ _ => false
  | .itPull => false
  | .pullEnd => false
  | .itDrop => false
  | .dropEnd => false
  | .refreshLoop => false
  | .refreshTest => false
  | .setOwner _ => false
  | _ => true

/-- Whether the micro-steps respect the chunk sequence's lifecycle, from a state in which a sequence exists (`a`) and is
unexhausted (`l`): a pull needs a sequence, OWNER is never taken from an unexhausted one. -/
def sequenceOk (p : Config.Params) : Bool → Bool → List Micro → Bool
  | _, _, [] => true
  | a, l, m :: q =>
    match m with
    | .itBegin start who =>
      (who == .iter || who == .refresh) && decide (start.toNat + p.planeLen ≤ 0xFFFFFFFF) && sequenceOk p true true q
    | .itPull => a && sequenceOk p a l q
    | .refreshLoop => a && sequenceOk p a l q
    | .refreshTest => a && sequenceOk p a l q
    | .pullEnd => a && sequenceOk p a false q
    | .itDrop => sequenceOk p false false q
    | .dropEnd => sequenceOk p false false q
    | .setOwner _ => !l && sequenceOk p a l q
    | .shutEnd => q.all Micro.offSequence
    | _ => sequenceOk p a l q

/-- R52 (ii), (iii) and (iv), with what makes them last. -/
def SequenceSound (s : State) : Prop :=
  (s.regs.iterEnded = true → s.regs.iterActive = true) ∧
  (s.regs.iterActive = true → s.regs.iterEnded = false → s.regs.owner = .iter ∨ s.regs.owner = .refresh) ∧
  (s.regs.iterActive = true → s.regs.iterCur ≤ s.regs.iterEnd) ∧
  sequenceOk s.cfg s.regs.iterActive (s.regs.iterActive && !s.regs.iterEnded) s.ctl.seq = true

/-- CS_S is asserted. -/
def selectedS (s : State) : Bool := s.lines.csS == s.cfg.csActive

/-- CS_D is asserted. -/
def selectedD (s : State) : Bool := s.lines.csD == s.cfg.csActive

/-- Whether a port is S. -/
def Port.isS : Port → Bool
  | .S => true
  | .D => false

/-- Micro-steps of the panel's side: the only ones `Shutdown()` runs before its return point. -/
def Micro.panelSide : Micro → Bool
  | .select p => !p.isS
  | .deselect p => !p.isS
  | .spiWrite p _ => !p.isS
  | .drive _ _ => true
  | .hold _ => true
  | .enter _ => true
  | .dispOp _ => true
  | .dispCmd _ => true
  | .dispData _ => true
  | .busyLoop => true
  | .busySample => true
  | .shutBegin => true
  | _ => false

/-- All micro-steps before the return point of `Shutdown()` are of the panel's side, where there is such a point. -/
def shutdownOk : List Micro → Bool
  | [] => true
  | m :: q =>
    match m with
    | .shutEnd => true
    | _ => (catchPoint q).isNone || (m.panelSide && shutdownOk q)

/-- The micro-steps that follow the return point of `Shutdown()`. -/
def afterShutdown (q : List Micro) : Bool := q == shutdownTail || q == shutdownTail ++ [.haltEnd]

/-- Micro-steps that may run only with CS_S deasserted: they assert it, or begin what does, or end what may have. -/
def Micro.needsS : Micro → Bool
  | .cmd0Loop => true
  | .cmd0Test => true
  | .a41Loop => true
  | .cmd41Test => true
  | .itPull => true
  | .itDrop => true
  | .refreshLoop => true
  | .refreshTest => true
  | .shutEnd => true
  | .haltEnd => true
  | .select p => p.isS
  | .frame _ => true
  | .dataPhase _ => true
  | _ => false

/-- Micro-steps that may run only with CS_D deasserted. -/
def Micro.needsD : Micro → Bool
  | .busyLoop => true
  | .busySample => true
  | .refreshLoop => true
  | .refreshTest => true
  | .shutEnd => true
  | .haltEnd => true
  | .select p => !p.isS
  | .dispOp _ => true
  | .dispCmd _ => true
  | .dispData _ => true
  | .dispBuf _ => true
  | .redFill _ => true
  | _ => false

/-- Whether CS_S is asserted when a micro-step, and what it begins, has run. -/
def Micro.thenS (cs : Bool) : Micro → Bool
  | .select p => cs || p.isS
  | .deselect p => cs && !p.isS
  | _ => cs

/-- Whether CS_D is asserted when a micro-step, and what it begins, has run. -/
def Micro.thenD (cd : Bool) : Micro → Bool
  | .select p => cd || !p.isS
  | .deselect p => cd && p.isS
  | _ => cd

/-- What may follow the return point of `Shutdown()` and the last step of a halt. -/
def Micro.thenOnly (q : List Micro) : Micro → Bool
  | .shutEnd => afterShutdown q
  | .haltEnd => q == []
  | _ => true

/-- Whether the micro-steps keep 40_transport.md R134 from a state in which CS_S (`cs`) and CS_D (`cd`) are asserted or
not: no select while asserted, and at the end of an operation and of a halt both are deasserted. -/
def selectOk : Bool → Bool → List Micro → Bool
  | cs, cd, [] => !cs && !cd
  | cs, cd, m :: q =>
    !(m.needsS && cs) && !(m.needsD && cd) && m.thenOnly q && selectOk (m.thenS cs) (m.thenD cd) q

/-- R52 (vi), with what makes it last. While an operation or a halt runs, either its remaining micro-steps keep the
select discipline, or a fault inside `Shutdown()` has just been caught and CS_D is about to be deasserted. -/
def SelectSound (s : State) : Prop :=
  (s.regs.running = false → selectedS s = false ∧ selectedD s = false) ∧
  (s.regs.running = true →
    (selectOk (selectedS s) (selectedD s) s.ctl.seq = true ∧
      ((catchPoint s.ctl.seq).isNone = true ∨ (selectedS s = false ∧ shutdownOk s.ctl.seq = true) ∨
        ∃ q, s.ctl.seq = .deselect .S :: q ∧ shutdownOk q = true)) ∨
    (selectedS s = false ∧ s.ctl.shutErr ≠ none ∧ ∃ q, s.ctl.seq = .shutEnd :: q ∧ afterShutdown q = true))

end Sys2Proof.Machine
end

