-- ==== Sys2Proof/Certificates/Slice0/Obligations.lean ====
section
/-! DEFINITION. The statements about the model. Each `def Obligations.<Name>` says what its name says; OBLIGATIONS.json
lists the rules it rests on. -/

open Sys2Proof Sys2Proof.Machine

/-! ## Encoding -/

/-- Decoding what `encode` writes gives the instruction back, for every instruction the engine or the card may send and
every value of its operands (30_encoding.md R91, R92, R96 to R100). -/
def Obligations.DecodeOfEncode : Prop :=
  ∀ (p : Config.Params) (i : Instr), i.wf p = true → decode (encode i) = .ok i

/-- Every word that decodes is the encoding of what it decodes to: no bit of it is ignored. -/
def Obligations.EncodeOfDecode : Prop :=
  ∀ (x : Wire) (i : Instr), decode x = .ok i → encode i = x

/-- Words of the spec's examples and tables, one of each format's family at least: R104, R156, R157, R163, R164's
example, R100. -/
def Obligations.SpecWordsDecode : Prop :=
  decode (.op 0x00000110#32) = .ok (.iterStart true) ∧
  decode (.op 0x00000024#32) = .ok .dispRefresh ∧
  decode (.op 0x00000001#32) = .ok .sdInit ∧
  decode (.frame 0x400000000095#48) = .ok (.cmd0 0x00000000#32 0x95#8) ∧
  decode (.frame 0x48000001AA87#48) = .ok (.cmd8 0x000001AA#32 0x87#8) ∧
  decode (.frame 0x5100000200FF#48) = .ok (.cmd17 0x00000200#32 0xFF#8) ∧
  decode (.token 0xFE#8) = .ok .startToken ∧
  decode (.r1 0x05#8) = .ok (.r1 0x05#8) ∧
  decode (.disp 0x71#8) = .ok .dFlg

/-! ## Steps and instructions -/

/-- A step runs the decoded instruction. A host write to CMD runs the operation its word decodes to; the sequencer runs
the card command or display opcode that stands next; a byte received in a poll runs as the token it decodes to, once the
poll has counted the iteration and recorded the transfer. With host accesses still to come the engine's turns are the same
(20_memory.md R80, R81): a scheduled engine turn takes the step of the state in which nothing is scheduled and leaves the
turns after it; a host's wait takes that step too and stands while RUNNING = 1, and is over when RUNNING = 0; without an
operation the engine does nothing (10_state.md R32). The schedule of turns and the grain of a micro-step are the model's
(logs 1 and 2). That the R1 probe's out-byte is FILL_RD is the model's reading of 00_scope.md R11 where 41_storage.md
R151 writes 0xFF: DEDUCED (log 25). -/
def Obligations.StepRunsDecodedInstruction : Prop :=
  ∀ s : State,
    (∀ i w turns, s.env.sched = .write 0x000 4 w :: turns → decode (.op w) = .ok i →
      step s = exec i { s with env.sched := turns }) ∧
    (∀ i w q, AtSteps [.frame w] q s → decode (.frame w) = .ok i → step s = exec i { s with ctl.seq := q }) ∧
    (∀ i b q, AtSteps [.dispOp b] q s → decode (.disp b) = .ok i → step s = exec i { s with ctl.seq := q }) ∧
    (∀ i b q n cs, AtSteps [.r1Poll] q s → s.ctl.poll.r1 = some n → aboveLimit s.cfg.pollLimit (n + 1) = false →
      s.env.cardIn = some b :: cs → decode (.r1 b) = .ok i →
      step s = exec i
        { s with
          ctl.seq := q
          ctl.poll.r1 := some (n + 1)
          env.cardIn := cs
          obs.portS := .xfer s.cfg.fillRd (some b) :: s.obs.portS }) ∧
    (∀ i b q n cs, AtSteps [.tokenPoll] q s → s.ctl.poll.tok = some n → aboveLimit s.cfg.pollLimit (n + 1) = false →
      s.env.cardIn = some b :: cs → decode (.token b) = .ok i →
      step s = exec i
        { s with
          ctl.seq := q
          ctl.poll.tok := some (n + 1)
          env.cardIn := cs
          obs.portS := .xfer s.cfg.fillRd (some b) :: s.obs.portS }) ∧
    (∀ turns, s.env.sched = .engine :: turns →
      step s = withTurns turns (step { s with env.sched := [] })) ∧
    (∀ turns, s.env.sched = .wait :: turns → s.regs.running = true →
      step s = withTurns (.wait :: turns) (step { s with env.sched := [] })) ∧
    (∀ turns, s.env.sched = .wait :: turns → s.regs.running = false → step s = .next { s with env.sched := turns }) ∧
    (Undisturbed s → s.regs.running = false → step s = .next s)

/-- The tokens: R1 records the response and ends the R1 poll; the start token ends the start-token poll. Neither changes
anything else (41_storage.md R151, R154). -/
def Obligations.TokensEndTheirPolls : Prop :=
  ∀ (s : State) (b : Byte),
    exec (.r1 b) s = .next { s with regs.lastR1 := b, ctl.poll.r1 := none } ∧
    exec .startToken s = .next { s with ctl.poll.tok := none }

/-! ## Issue -/

/-- Validation at issue (60_exceptions.md R274): the checks in their order, each failing one with its code, before any
event; where the last passes, the operation stands as accepted and its micro-steps are loaded. -/
def Obligations.IssueValidatesInOrder : Prop :=
  ∀ (s : State) (w : Word) (turns : List Turn), Idle s → s.env.sched = .write 0x000 4 w :: turns →
    let t : State := issued (w.extractLsb' 0 8) (w.getLsbD 8) { s with env.sched := turns }
    (legalOpc (w.extractLsb' 0 8) = false → step s = .next (halt .illegalOpcode t)) ∧
    (legalOpc (w.extractLsb' 0 8) = true → w.extractLsb' 9 23 = 0#23 →
      (w.getLsbD 8 = true → w.extractLsb' 0 8 = 0x10#8) → ∃ i, decode (.op w) = .ok i) ∧
    (legalOpc (w.extractLsb' 0 8) = true →
      (w.extractLsb' 9 23 ≠ 0#23 ∨ (w.getLsbD 8 = true ∧ w.extractLsb' 0 8 ≠ 0x10#8)) →
      step s = .next (halt .reservedBits t)) ∧
    (∀ i, decode (.op w) = .ok i →
      (stateCheck i s = false → step s = .next (halt .sequence t)) ∧
      (stateCheck i s = true → operandCheck i s = false → step s = .next (halt .operand t)) ∧
      (stateCheck i s = true → operandCheck i s = true → ∃ q, step s = .next { t with ctl.seq := q }))

/-- An opcode of no operation raises E_ILLEGAL_OPCODE before any port or line event (30_encoding.md R93). -/
def Obligations.IllegalOpcodeFaults : Prop :=
  ∀ (s : State) (w : Word) (turns : List Turn), Idle s → s.env.sched = .write 0x000 4 w :: turns →
    (let opc := (w.extractLsb' 0 8).toNat
     opc = 0x00 ∨ (0x06 ≤ opc ∧ opc ≤ 0x0F) ∨ (0x13 ≤ opc ∧ opc ≤ 0x1F) ∨ (0x26 ≤ opc ∧ opc ≤ 0xFF)) →
    ∃ t, step s = .next t ∧ t.ctl.tearing = true ∧ t.obs = s.obs ∧ t.lines = s.lines ∧
      t.regs.faultCode = (if s.regs.faultCode = 0x00#8 then 0x10#8 else s.regs.faultCode)

/-- A write to CMD while HALTED = 1 changes nothing, and no step but a reset leaves HALTED = 1 (40_transport.md R121,
60_exceptions.md R278). -/
def Obligations.OnlyResetLeavesHalted : Prop :=
  ∀ s : State, s.regs.halted = true →
    (∀ w turns, s.env.sched = .write 0x000 4 w :: turns → step s = .next { s with env.sched := turns }) ∧
    (∀ t, s.env.sched.head? ≠ some .reset → step s = .next t → t.regs.halted = true)

/-- A write to CMD while an operation or a halt sequence runs is dropped: OVR is set and nothing else changes
(40_transport.md R122). -/
def Obligations.IssueWhileRunningSetsOverrun : Prop :=
  ∀ (s : State) (w : Word) (turns : List Turn), s.regs.halted = false → s.regs.running = true →
    s.env.sched = .write 0x000 4 w :: turns → step s = .next { s with env.sched := turns, regs.ovr := true }

/-! ## Storage operations, to completion

In every statement with a command transaction the R1 probes send FILL_RD, as `txEvents` writes them: DEDUCED (log 25). -/

/-- A card command: the frame's six bytes, the R1 poll, the deselect and one release byte, with the response in LAST_R1
and nothing else changed (41_storage.md R150, R151, R152). It holds of each of the seven: CMD0, CMD8, CMD55, CMD41,
CMD17, CMD18 and CMD12 (`cmd0`, `cmd8`, `cmd55`, `cmd41`, `cmd17`, `cmd18`, `cmd12`).
Its probes send FILL_RD (00_scope.md R11; log 25). -/
def Obligations.CardCommandTransaction : Prop :=
  ∀ (i : Instr) (w : BitVec 48) (s : State) (tx : CardTx) (cs : List (Option Byte)), encode i = .frame w →
    Undisturbed s → s.regs.running = true → tx.fits s.cfg = true →
    s.env.cardIn = txAnswers tx.ws tx.fill tx.r tx.x ++ cs →
    ∃ t, exec i s = .next t ∧
      Reaches t
        { s with
          regs.lastR1 := tx.r
          lines.csS := s.cfg.csActive.not
          ctl.poll.r1 := none
          env.cardIn := cs
          obs.portS := txEvents s.cfg.fillRd w tx.fill tx.r ++ s.obs.portS }

/-- The tests of the card's responses: CMD0's repeats until 0x01, CMD8's 0x01 is fatal, the first CMD41's above 0x01 is
fatal and 0x00 ends the loop, CMD17's and CMD18's other than 0x00 are fatal (41_storage.md R156, R157, R159, R160,
R161). -/
def Obligations.ResponseTests : Prop :=
  ∀ (s : State) (q : List Micro),
    (AtSteps [.cmd0Test] q s → step s = .next
      (if s.regs.lastR1 = 0x01#8 then { s with ctl.seq := q, ctl.poll.cmd0 := none }
       else { s with ctl.seq := .cmd0Loop :: q })) ∧
    (AtSteps [.cmd8Test] q s → step s = .next
      (if s.regs.lastR1 = 0x01#8 then raise .sdV2Unsupported { s with ctl.seq := q } else { s with ctl.seq := q })) ∧
    (AtSteps [.cmd41Test] q s → step s = .next
      (if s.ctl.first41 = true ∧ 0x01 < s.regs.lastR1.toNat then raise .sdAcmd41Unsupported { s with ctl.seq := q }
       else if s.regs.lastR1 = 0x00#8 then { s with ctl.seq := q, ctl.first41 := false, ctl.poll.a41 := none }
       else { s with ctl.seq := .a41Loop :: q, ctl.first41 := false })) ∧
    (AtSteps [.cmd17Test] q s → step s = .next
      (if s.regs.lastR1 = 0x00#8 then { s with ctl.seq := q } else raise .cmd17Response { s with ctl.seq := q })) ∧
    (AtSteps [.cmd18Test] q s → step s = .next
      (if s.regs.lastR1 = 0x00#8 then { s with ctl.seq := q } else raise .cmd18Response { s with ctl.seq := q }))

/-- A data phase stores its n payload bytes in BUF[0..n) and changes no other byte and no register; the trailer bytes
are not looked at. A transport error at byte k of the payload leaves BUF[0..k) written, and faults, whatever bytes stood
before the start token (41_storage.md R153). That the failed transfer is recorded, with no in-byte, is the model's choice
(log 12: R128 does not say). -/
def Obligations.DataPhaseFillsBuffer : Prop :=
  ∀ (s : State) (n : Nat) (q : List Micro) (cs : List (Option Byte)), AtSteps [.dataPhase n] q s → 1 ≤ n → n ≤ 512 →
    (∀ ph : Phase, ph.fits s.cfg n = true → s.env.cardIn = ph.answers ++ cs →
      Reaches s
        { s with
          buf := storeBytes s.buf 0 ph.data
          lines.csS := s.cfg.csActive.not
          ctl.seq := q
          ctl.poll.tok := none
          env.cardIn := cs
          obs.portS := ph.events s.cfg.fillRd ++ s.obs.portS }) ∧
    (∀ junk data : List Byte, data.length < n → (∀ b ∈ junk, b ≠ 0xFE#8) →
      aboveLimit s.cfg.pollLimit (junk.length + 1) = false →
      s.env.cardIn = junk.map some ++ some 0xFE#8 :: data.map some ++ none :: cs →
      Reaches s
        (raise .storageBus
          { s with
            buf := storeBytes s.buf 0 data
            lines.csS := s.cfg.csActive
            ctl.seq := .trailer :: .trailer :: .deselect .S :: q
            ctl.poll.tok := none
            env.cardIn := cs
            obs.portS := .xfer s.cfg.fillRd none ::
              ((data.map (fun b => EventS.xfer s.cfg.fillRd (some b))).reverse ++
                .xfer s.cfg.fillRd (some 0xFE#8) ::
                  ((junk.map (fun b => EventS.xfer s.cfg.fillRd (some b))).reverse ++ .select :: s.obs.portS)) }))

/-- SD_INIT with a card that comes up (41_storage.md R163): CMD0 until 0x01, a CMD8 answer other than 0x01, CMD55 and
CMD41 pairs until CMD41 answers 0x00, the first CMD41 not above 0x01. That the R1 probe's out-byte is FILL_RD is the
model's reading of 00_scope.md R11 where 41_storage.md R151 writes 0xFF: DEDUCED (log 25). -/
def Obligations.SdInitCompletes : Prop :=
  ∀ (s : State) (idle : List Byte) (tries : List CardTx) (go v : CardTx) (more : List (CardTx × CardTx))
    (last : CardTx × CardTx) (cs : List (Option Byte)),
    Idle s → Undisturbed s → s.regs.sdReady = false →
    idle.length = s.cfg.nIdle →
    (∀ t ∈ tries, t.fits s.cfg = true ∧ t.r ≠ 0x01#8) → go.fits s.cfg = true → go.r = 0x01#8 →
    v.fits s.cfg = true → v.r ≠ 0x01#8 →
    (∀ t ∈ more, t.1.fits s.cfg = true ∧ t.2.fits s.cfg = true ∧ t.2.r ≠ 0x00#8) →
    (∀ t, more.head? = some t → t.2.r = 0x01#8) →
    last.1.fits s.cfg = true → last.2.fits s.cfg = true → last.2.r = 0x00#8 →
    aboveLimit s.cfg.pollLimit (tries.length + 1) = false → aboveLimit s.cfg.pollLimit (more.length + 1) = false →
    let cmd0 : BitVec 48 := frameWord 0#6 0x00000000#32 0x95#8
    let cmd8 : BitVec 48 := frameWord 8#6 0x000001AA#32 0x87#8
    let cmd55 : BitVec 48 := frameWord 55#6 s.cfg.arg55 s.cfg.chk55
    let cmd41 : BitVec 48 := frameWord 41#6 s.cfg.arg41 s.cfg.chk41
    let tr : Transcript := tries.map (fun t => (cmd0, t)) ++ (cmd0, go) :: (cmd8, v) ::
      (more ++ [last]).flatMap (fun t => [(cmd55, t.1), (cmd41, t.2)])
    s.env.cardIn = idle.map some ++ Transcript.answers tr ++ cs →
    Completes .sdInit s
      { s with
        regs.sdReady := true
        regs.lastR1 := 0x00#8
        lines.csS := s.cfg.csActive.not
        ctl.op := some (0x01#8, false)
        ctl.seq := []
        ctl.first41 := false
        ctl.poll.r1 := none
        ctl.poll.cmd0 := none
        ctl.poll.a41 := none
        env.cardIn := cs
        obs.portS := Transcript.events s.cfg.fillRd tr ++ (List.replicate s.cfg.nIdle (.write 0xFF#8 true) ++ .deselect :: s.obs.portS) }

/-- SD_READ_SECTOR: CMD17 with the argument ARG × 512, answered 0x00, and one data phase of LEN bytes (41_storage.md
R164). That the R1 probe's out-byte is FILL_RD is the model's reading of 00_scope.md R11 where 41_storage.md R151 writes
0xFF: DEDUCED (log 25). -/
def Obligations.SdReadSectorCompletes : Prop :=
  ∀ (s : State) (tx : CardTx) (ph : Phase) (cs : List (Option Byte)), Idle s → Undisturbed s →
    s.regs.sdReady = true → s.regs.owner = .none →
    1 ≤ s.regs.len.toNat → s.regs.len.toNat ≤ 512 → s.regs.arg.toNat < 2 ^ 23 →
    tx.fits s.cfg = true → tx.r = 0x00#8 → ph.fits s.cfg s.regs.len.toNat = true →
    s.env.cardIn = txAnswers tx.ws tx.fill tx.r tx.x ++ ph.answers ++ cs →
    Completes .sdReadSector s
      { s with
        regs.lastR1 := 0x00#8
        buf := storeBytes s.buf 0 ph.data
        lines.csS := s.cfg.csActive.not
        ctl.op := some (0x02#8, false)
        ctl.seq := []
        ctl.poll.r1 := none
        ctl.poll.tok := none
        env.cardIn := cs
        obs.portS := ph.events s.cfg.fillRd ++
          (txEvents s.cfg.fillRd (frameWord 17#6 (BitVec.ofNat 32 (s.regs.arg.toNat * 512)) s.cfg.chk17) tx.fill tx.r ++ s.obs.portS) }

/-- SD_READ_START: CMD18 with ARG as it is, answered 0x00, opens a raw stream (41_storage.md R165). That the R1 probe's
out-byte is FILL_RD is the model's reading of 00_scope.md R11 where 41_storage.md R151 writes 0xFF: DEDUCED (log 25). -/
def Obligations.SdReadStartCompletes : Prop :=
  ∀ (s : State) (tx : CardTx) (cs : List (Option Byte)), Idle s → Undisturbed s → s.regs.sdReady = true →
    s.regs.owner = .none → tx.fits s.cfg = true → tx.r = 0x00#8 →
    s.env.cardIn = txAnswers tx.ws tx.fill tx.r tx.x ++ cs →
    Completes .sdReadStart s
      { s with
        regs.lastR1 := 0x00#8
        regs.owner := .raw
        lines.csS := s.cfg.csActive.not
        ctl.op := some (0x03#8, false)
        ctl.seq := []
        ctl.poll.r1 := none
        env.cardIn := cs
        obs.portS := txEvents s.cfg.fillRd (frameWord 18#6 s.regs.arg s.cfg.chk18) tx.fill tx.r ++ s.obs.portS }

/-- SD_READ_NEXT: one data phase of LEN bytes of the raw stream; LAST_R1 is unchanged (41_storage.md R166). -/
def Obligations.SdReadNextCompletes : Prop :=
  ∀ (s : State) (ph : Phase) (cs : List (Option Byte)), Idle s → Undisturbed s → s.regs.owner = .raw →
    1 ≤ s.regs.len.toNat → s.regs.len.toNat ≤ 512 → ph.fits s.cfg s.regs.len.toNat = true →
    s.env.cardIn = ph.answers ++ cs →
    Completes .sdReadNext s
      { s with
        buf := storeBytes s.buf 0 ph.data
        lines.csS := s.cfg.csActive.not
        ctl.op := some (0x04#8, false)
        ctl.seq := []
        ctl.poll.tok := none
        env.cardIn := cs
        obs.portS := ph.events s.cfg.fillRd ++ s.obs.portS }

/-- SD_READ_END: CMD12, whatever its response, closes the raw stream (41_storage.md R167). That the R1 probe's out-byte
is FILL_RD is the model's reading of 00_scope.md R11 where 41_storage.md R151 writes 0xFF: DEDUCED (log 25). -/
def Obligations.SdReadEndCompletes : Prop :=
  ∀ (s : State) (tx : CardTx) (cs : List (Option Byte)), Idle s → Undisturbed s → s.regs.owner = .raw →
    tx.fits s.cfg = true → s.env.cardIn = txAnswers tx.ws tx.fill tx.r tx.x ++ cs →
    Completes .sdReadEnd s
      { s with
        regs.lastR1 := tx.r
        regs.owner := .none
        lines.csS := s.cfg.csActive.not
        ctl.op := some (0x05#8, false)
        ctl.seq := []
        ctl.poll.r1 := none
        env.cardIn := cs
        obs.portS := txEvents s.cfg.fillRd (frameWord 12#6 s.cfg.arg12 s.cfg.chk12) tx.fill tx.r ++ s.obs.portS }

/-! ## The chunk sequencer, to completion -/

/-- ITER_START: CMD18 with the plane's first byte, answered 0x00, then the sequence's registers (42_chunk_sequencer.md
R201, R204). With P = 1 the plane starts PLANE_LEN bytes after ARG. That the R1 probe's out-byte is FILL_RD is the
model's reading of 00_scope.md R11 where 41_storage.md R151 writes 0xFF: DEDUCED (log 25). -/
def Obligations.IterStartCompletes : Prop :=
  ∀ (s : State) (p : Bool) (tx : CardTx) (cs : List (Option Byte)), Idle s → Undisturbed s → s.regs.sdReady = true →
    s.regs.owner = .none → s.regs.arg.toNat + (if p then s.cfg.planeLen else 0) + s.cfg.planeLen ≤ 0xFFFFFFFF →
    tx.fits s.cfg = true → tx.r = 0x00#8 → s.env.cardIn = txAnswers tx.ws tx.fill tx.r tx.x ++ cs →
    let start : Nat := s.regs.arg.toNat + (if p then s.cfg.planeLen else 0)
    Completes (.iterStart p) s
      { s with
        regs.lastR1 := 0x00#8
        regs.owner := .iter
        regs.iterCur := BitVec.ofNat 32 start
        regs.iterEnd := BitVec.ofNat 32 (start + s.cfg.planeLen)
        regs.iterActive := true
        regs.iterEnded := false
        regs.chunkLen := 0#10
        lines.csS := s.cfg.csActive.not
        ctl.op := some (0x10#8, p)
        ctl.seq := []
        ctl.poll.r1 := none
        env.cardIn := cs
        obs.portS := txEvents s.cfg.fillRd (frameWord 18#6 (BitVec.ofNat 32 start) s.cfg.chk18) tx.fill tx.r ++ s.obs.portS }

/-- ITER_PULL runs one pull to completion (42_chunk_sequencer.md R202, R205): a chunk of min(512, ITER_END - ITER_CUR)
bytes, with ITER_CUR advanced before any event; the first pull at the plane's end sends CMD12 and reports exhaustion; a
later one reports it again and sends nothing. CMD12's probes send FILL_RD (log 25). -/
def Obligations.IterPullCompletes : Prop :=
  ∀ (s : State) (cs : List (Option Byte)), Idle s → Undisturbed s → s.regs.iterActive = true →
    (s.regs.iterCur < s.regs.iterEnd →
      let n : Nat := min 512 (s.regs.iterEnd.toNat - s.regs.iterCur.toNat)
      let cur : Word := BitVec.ofNat 32 (s.regs.iterCur.toNat + n)
      (∃ t u, exec .iterPull s = .next t ∧ step t = .next u ∧ u.regs.iterCur = cur ∧ u.obs = s.obs) ∧
      (∀ ph : Phase, ph.fits s.cfg n = true → s.env.cardIn = ph.answers ++ cs →
        Completes .iterPull s
          { s with
            regs.iterCur := cur
            regs.chunkLen := BitVec.ofNat 10 n
            buf := storeBytes s.buf 0 ph.data
            lines.csS := s.cfg.csActive.not
            ctl.op := some (0x11#8, false)
            ctl.seq := []
            ctl.poll.tok := none
            env.cardIn := cs
            obs.portS := ph.events s.cfg.fillRd ++ s.obs.portS })) ∧
    (¬ s.regs.iterCur < s.regs.iterEnd → s.regs.iterEnded = false →
      ∀ tx : CardTx, tx.fits s.cfg = true → s.env.cardIn = txAnswers tx.ws tx.fill tx.r tx.x ++ cs →
        Completes .iterPull s
          { s with
            regs.lastR1 := tx.r
            regs.owner := .none
            regs.iterEnded := true
            regs.chunkLen := 0#10
            lines.csS := s.cfg.csActive.not
            ctl.op := some (0x11#8, false)
            ctl.seq := []
            ctl.poll.r1 := none
            env.cardIn := cs
            obs.portS := txEvents s.cfg.fillRd (frameWord 12#6 s.cfg.arg12 s.cfg.chk12) tx.fill tx.r ++ s.obs.portS }) ∧
    (¬ s.regs.iterCur < s.regs.iterEnd → s.regs.iterEnded = true →
      Completes .iterPull s
        { s with regs.chunkLen := 0#10, ctl.op := some (0x11#8, false), ctl.seq := [] })

/-- ITER_DROP: an unexhausted sequence is sent its CMD12 first; an exhausted or absent one is sent nothing. ITER_CUR,
ITER_END and BUF are unchanged (42_chunk_sequencer.md R203, R206). CMD12's probes send FILL_RD (log 25). -/
def Obligations.IterDropCompletes : Prop :=
  ∀ (s : State) (cs : List (Option Byte)), Idle s → Undisturbed s →
    (s.regs.iterActive = true → s.regs.iterEnded = false →
      ∀ tx : CardTx, tx.fits s.cfg = true → s.env.cardIn = txAnswers tx.ws tx.fill tx.r tx.x ++ cs →
        Completes .iterDrop s
          { s with
            regs.lastR1 := tx.r
            regs.owner := .none
            regs.iterActive := false
            regs.chunkLen := 0#10
            lines.csS := s.cfg.csActive.not
            ctl.op := some (0x12#8, false)
            ctl.seq := []
            ctl.poll.r1 := none
            env.cardIn := cs
            obs.portS := txEvents s.cfg.fillRd (frameWord 12#6 s.cfg.arg12 s.cfg.chk12) tx.fill tx.r ++ s.obs.portS }) ∧
    (s.regs.iterActive = false ∨ s.regs.iterEnded = true →
      Completes .iterDrop s
        { s with
          regs.iterActive := false
          regs.iterEnded := false
          regs.chunkLen := 0#10
          ctl.op := some (0x12#8, false)
          ctl.seq := [] })

/-! ## The display, to completion -/

/-- A display opcode: its own transaction with DC at DC_CMD, then its data bytes, where the table gives it any, as one
transaction with DC at DC_DATA; nothing else changes (30_encoding.md R100). It holds of each of the thirteen: `dPsr`,
`dPwr`, `dPof`, `dPon`, `dDslp`, `dDtm1`, `dDrf`, `dDtm2`, `dDuspi`, `dCdi`, `dTcon`, `dTres`, `dFlg`. That the data bytes
are the opcode's own is the model's reading (log 18). -/
def Obligations.DisplayOpcodeSends : Prop :=
  ∀ (i : Instr) (b : Byte) (s : State) (ps : List Bool), encode i = .disp b → Undisturbed s → s.regs.running = true →
    s.env.panelIn = List.replicate ((displayData s.cfg b).length + 1) true ++ ps →
    ∃ t, exec i s = .next t ∧
      Reaches t
        { s with
          lines.dc := if displayData s.cfg b = [] then s.cfg.dcCmd else s.cfg.dcData
          lines.csD := s.cfg.csActive.not
          env.panelIn := ps
          obs.portD := opcodeEvents s.cfg b ++ s.obs.portD }

/-- The busy decision (43_display.md R223): a read error counts as busy, and so does the level BUSY_ACTIVE; the other
level is ready. -/
def Obligations.BusyDecision : Prop :=
  (∀ active : Level, busyNow active .err = true) ∧
  busyNow .low .low = true ∧ busyNow .low .high = false ∧ busyNow .high .high = true ∧ busyNow .high .low = false

/-- DISP_INIT with the spec's table INIT_SEQ and any parameter bytes: the reset pulse, the eight steps, and DISP_READY
(43_display.md R224, R225, R240). The table's order and its busy-wait are the spec's defaults, the parameter bytes are
free (log 6). -/
def Obligations.DispInitCompletes : Prop :=
  ∀ (s : State) (busy : List Config.BusySample) (ready : Config.BusySample) (ps : List Bool)
    (vs : List Config.BusySample), Idle s → Undisturbed s → s.regs.dispReady = false →
    s.cfg.initSeq = [.opcode 0x01#8, .opcode 0x04#8, .waitIdle, .opcode 0x00#8, .opcode 0x61#8, .opcode 0x15#8,
      .opcode 0x50#8, .opcode 0x60#8] →
    (∀ v ∈ busy, busyNow s.cfg.busyActive v = true) → busyNow s.cfg.busyActive ready = false →
    aboveLimit s.cfg.pollLimit (busy.length + 1) = false →
    s.env.panelIn = List.replicate (s.cfg.pPwr.length + s.cfg.pPsr.length + s.cfg.pTres.length + s.cfg.pDuspi.length +
      s.cfg.pCdi.length + s.cfg.pTcon.length + busy.length + 8) true ++ ps →
    s.env.busyIn = busy ++ ready :: vs →
    Completes .dispInit s
      { s with
        regs.dispReady := true
        lines.csD := s.cfg.csActive.not
        lines.rst := s.cfg.rstActive.not
        lines.dc := if s.cfg.pTcon = [] then s.cfg.dcCmd else s.cfg.dcData
        ctl.op := some (0x20#8, false)
        ctl.seq := []
        ctl.poll.bsy := none
        env.panelIn := ps
        env.busyIn := vs
        obs.portD := opcodeEvents s.cfg 0x60#8 ++ opcodeEvents s.cfg 0x50#8 ++ opcodeEvents s.cfg 0x15#8 ++
          opcodeEvents s.cfg 0x61#8 ++ opcodeEvents s.cfg 0x00#8 ++ waitEvents s.cfg busy ready ++
          opcodeEvents s.cfg 0x04#8 ++ opcodeEvents s.cfg 0x01#8 ++
          .hold .tRst :: .drive .rst s.cfg.rstActive.not :: .hold .tRst :: .drive .rst s.cfg.rstActive :: s.obs.portD }

/-- DISP_CMD sends the byte ARG[7:0] in one command transaction, whatever byte it is (43_display.md R220, R241). -/
def Obligations.DispCmdCompletes : Prop :=
  ∀ (s : State) (ps : List Bool), Idle s → Undisturbed s → s.regs.dispReady = true → s.regs.arg.toNat ≤ 0xFF →
    s.env.panelIn = true :: ps →
    Completes .dispCmd s
      { s with
        lines.dc := s.cfg.dcCmd
        lines.csD := s.cfg.csActive.not
        ctl.op := some (0x21#8, false)
        ctl.seq := []
        env.panelIn := ps
        obs.portD := dcmdEvents s.cfg (s.regs.arg.extractLsb' 0 8) ++ s.obs.portD }

/-- DISP_DATA sends BUF[0] to BUF[LEN-1] in one data transaction and leaves BUF as it was (43_display.md R221, R242). A
byte never written since reset is sent as a draw (10_state.md R49): the LEN bytes sent agree with every written one, and
nothing is said of the others. The draw counter's advance is the model's own (log 5). -/
def Obligations.DispDataCompletes : Prop :=
  ∀ (s : State) (ps : List Bool), Idle s → Undisturbed s → s.regs.dispReady = true →
    1 ≤ s.regs.len.toNat → s.regs.len.toNat ≤ 512 →
    s.env.panelIn = List.replicate s.regs.len.toNat true ++ ps →
    ∃ data : List Byte, data.length = s.regs.len.toNat ∧
      (∀ (k : Nat) (b : Byte), k < data.length → s.buf.read k = some b → data[k]? = some b) ∧
      Completes .dispData s
        { s with
          lines.dc := s.cfg.dcData
          lines.csD := s.cfg.csActive.not
          ctl.op := some (0x22#8, false)
          ctl.seq := []
          env.panelIn := ps
          env.draws := s.env.draws + unwritten s.buf 0 s.regs.len.toNat
          obs.portD := ddataEvents s.cfg data ++ s.obs.portD }

/-- DISP_WAIT_IDLE sends the query and samples BUSY until a sample is not busy (43_display.md R222, R243). -/
def Obligations.DispWaitIdleCompletes : Prop :=
  ∀ (s : State) (busy : List Config.BusySample) (ready : Config.BusySample) (ps : List Bool)
    (vs : List Config.BusySample), Idle s → Undisturbed s → s.regs.dispReady = true →
    (∀ v ∈ busy, busyNow s.cfg.busyActive v = true) → busyNow s.cfg.busyActive ready = false →
    aboveLimit s.cfg.pollLimit (busy.length + 1) = false →
    s.env.panelIn = List.replicate (busy.length + 1) true ++ ps → s.env.busyIn = busy ++ ready :: vs →
    Completes .dispWaitIdle s
      { s with
        lines.dc := s.cfg.dcCmd
        lines.csD := s.cfg.csActive.not
        ctl.op := some (0x23#8, false)
        ctl.seq := []
        ctl.poll.bsy := none
        env.panelIn := ps
        env.busyIn := vs
        obs.portD := waitEvents s.cfg busy ready ++ s.obs.portD }

/-- The red-plane filler: transactions of 512 zero bytes and one of the rest, BUF neither read nor written
(43_display.md R245). -/
def Obligations.RedFillSendsZeroPlane : Prop :=
  ∀ (s : State) (n : Nat) (q : List Micro) (ps : List Bool), AtSteps [.redFill n] q s → 1 ≤ n →
    s.env.panelIn = List.replicate n true ++ ps →
    Reaches s
      { s with
        lines.dc := s.cfg.dcData
        lines.csD := s.cfg.csActive.not
        ctl.seq := q
        env.panelIn := ps
        obs.portD := (chunkSizes n).reverse.flatMap (fun k => ddataEvents s.cfg (List.replicate k 0x00#8)) ++ s.obs.portD }

/-- DISP_REFRESH, to completion (43_display.md R244): on port S the CMD18 transaction, a data phase for each chunk and
the CMD12 transaction; on port D the black plane's command and one data transaction for each chunk with the bytes the
card sent, the red plane's command and its zeros, the refresh trigger, the hold and the busy-wait. That the R1 probe's
out-byte is FILL_RD is the model's reading of 00_scope.md R11 where 41_storage.md R151 writes 0xFF: DEDUCED (log 25). -/
def Obligations.DispRefreshCompletes : Prop :=
  ∀ (s : State) (start stop : CardTx) (phases : List Phase) (busy : List Config.BusySample) (ready : Config.BusySample)
    (cs : List (Option Byte)) (ps : List Bool) (vs : List Config.BusySample), Idle s → Undisturbed s →
    s.regs.dispReady = true → s.regs.sdReady = true → s.regs.owner = .none →
    s.regs.arg.toNat + s.cfg.planeLen ≤ 0xFFFFFFFF →
    start.fits s.cfg = true → start.r = 0x00#8 → stop.fits s.cfg = true →
    phases.map (fun ph => ph.data.length) = chunkSizes s.cfg.planeLen →
    (∀ ph ∈ phases, ph.fits s.cfg ph.data.length = true) →
    (∀ v ∈ busy, busyNow s.cfg.busyActive v = true) → busyNow s.cfg.busyActive ready = false →
    aboveLimit s.cfg.pollLimit (busy.length + 1) = false →
    s.env.cardIn = txAnswers start.ws start.fill start.r start.x ++ (phases.flatMap Phase.answers ++
      (txAnswers stop.ws stop.fill stop.r stop.x ++ cs)) →
    s.env.panelIn = List.replicate (s.cfg.planeLen + s.cfg.planeLen + busy.length + 4) true ++ ps →
    s.env.busyIn = busy ++ ready :: vs →
    let last : Word := BitVec.ofNat 32 (s.regs.arg.toNat + s.cfg.planeLen)
    Completes .dispRefresh s
      { s with
        regs.lastR1 := stop.r
        regs.iterCur := last
        regs.iterEnd := last
        regs.iterActive := false
        regs.iterEnded := false
        regs.chunkLen := 0#10
        buf := phases.foldl (fun m ph => storeBytes m 0 ph.data) s.buf
        lines.csS := s.cfg.csActive.not
        lines.csD := s.cfg.csActive.not
        lines.dc := s.cfg.dcCmd
        ctl.op := some (0x24#8, false)
        ctl.seq := []
        ctl.poll.r1 := none
        ctl.poll.tok := if s.cfg.planeLen = 0 then s.ctl.poll.tok else none
        ctl.poll.bsy := none
        env.cardIn := cs
        env.panelIn := ps
        env.busyIn := vs
        obs.portS := txEvents s.cfg.fillRd (frameWord 12#6 s.cfg.arg12 s.cfg.chk12) stop.fill stop.r ++
          (phases.reverse.flatMap (Phase.events s.cfg.fillRd) ++
            (txEvents s.cfg.fillRd (frameWord 18#6 s.regs.arg s.cfg.chk18) start.fill start.r ++ s.obs.portS))
        obs.portD := waitEvents s.cfg busy ready ++ .hold .tRefresh :: dcmdEvents s.cfg 0x12#8 ++
          ((chunkSizes s.cfg.planeLen).reverse.flatMap (fun k => ddataEvents s.cfg (List.replicate k 0x00#8)) ++
            (dcmdEvents s.cfg 0x13#8 ++ (phases.reverse.flatMap (fun ph => ddataEvents s.cfg ph.data) ++
              (dcmdEvents s.cfg 0x10#8 ++ s.obs.portD)))) }

/-- DISP_SHUTDOWN without a fault: power-off, the busy-wait, deep sleep with its check byte, then RST and DC
electrically Low (43_display.md R226, R246). -/
def Obligations.DispShutdownCompletes : Prop :=
  ∀ (s : State) (busy : List Config.BusySample) (ready : Config.BusySample) (ps : List Bool)
    (vs : List Config.BusySample), Idle s → Undisturbed s → s.regs.dispReady = true →
    (∀ v ∈ busy, busyNow s.cfg.busyActive v = true) → busyNow s.cfg.busyActive ready = false →
    aboveLimit s.cfg.pollLimit (busy.length + 1) = false →
    s.env.panelIn = List.replicate (busy.length + 4) true ++ ps → s.env.busyIn = busy ++ ready :: vs →
    Completes .dispShutdown s
      { s with
        regs.dispReady := false
        lines.csD := s.cfg.csActive.not
        lines.rst := .low
        lines.dc := .low
        ctl.op := some (0x25#8, false)
        ctl.seq := []
        ctl.poll.bsy := none
        ctl.shutErr := none
        env.panelIn := ps
        env.busyIn := vs
        obs.portD := shutdownEvents s.cfg busy ready ++ s.obs.portD }

/-! ## Ports and lines -/

/-- The port transfers, byte by byte. `SpiWrite(p, bytes)` on either port: a byte taken is recorded and the rest goes on;
a transport error is recorded, no further byte is sent, and the port's fault is raised with the lines as they were
(40_transport.md R127). So it goes for `SpiWrite(D, MemRead(BUF, 0, n))` from byte i on (43_display.md R242, R244): the byte
sent is BUF[i], or a draw where nothing has written it (10_state.md R49). `SpiXfer(S, o)` in each of its four places: a
transport error returns no byte and raises F_STORAGE_BUS, with the poll's iteration counted, BUF and LAST_R1 as they were
and the rest not run; a payload byte that is returned goes to BUF, a trailer byte nowhere (R128, 41_storage.md R153). That a
failed transfer is recorded, with no in-byte, is the model's choice (log 12); that the R1 probe's out-byte is FILL_RD where
that is not 0xFF is its reading (log 25). -/
def Obligations.SpiWriteByteByByte : Prop :=
  ∀ (s : State) (b : Byte) (bs : List Byte) (q : List Micro),
    (AtSteps [.spiWrite .S (b :: bs)] q s → ∀ (r : Option Byte) (cs : List (Option Byte)), s.env.cardIn = r :: cs →
      step s = .next
        (match r with
         | some _ =>
           { s with
             ctl.seq := if bs = [] then q else .spiWrite .S bs :: q
             env.cardIn := cs
             obs.portS := .write b true :: s.obs.portS }
         | none =>
           raise .storageBus
             { s with ctl.seq := q, env.cardIn := cs, obs.portS := .write b false :: s.obs.portS })) ∧
    (AtSteps [.spiWrite .D (b :: bs)] q s → ∀ (ok : Bool) (ps : List Bool), s.env.panelIn = ok :: ps →
      step s = .next
        (if ok then
           { s with
             ctl.seq := if bs = [] then q else .spiWrite .D bs :: q
             env.panelIn := ps
             obs.portD := .write b true :: s.obs.portD }
         else
           raise .displayBus
             { s with ctl.seq := q, env.panelIn := ps, obs.portD := .write b false :: s.obs.portD })) ∧
    (∀ (i n : Nat) (ok : Bool) (ps : List Bool), AtSteps [.sendBuf i n] q s → i < n → n ≤ 512 →
      s.env.panelIn = ok :: ps →
      ∃ v : Byte, (∀ v', s.buf.read i = some v' → v = v') ∧
        step s = .next
          (if ok then
             { s with
               ctl.seq := if i + 1 < n then .sendBuf (i + 1) n :: q else q
               env.panelIn := ps
               env.draws := s.env.draws + unwritten s.buf i 1
               obs.portD := .write v true :: s.obs.portD }
           else
             raise .displayBus
               { s with
                 ctl.seq := q
                 env.panelIn := ps
                 env.draws := s.env.draws + unwritten s.buf i 1
                 obs.portD := .write v false :: s.obs.portD })) ∧
    (∀ (c : Nat) (cs : List (Option Byte)), aboveLimit s.cfg.pollLimit (c + 1) = false → s.env.cardIn = none :: cs →
      (AtSteps [.r1Poll] q s → s.ctl.poll.r1 = some c →
        step s = .next (raise .storageBus
          { s with
            ctl.seq := q
            ctl.poll.r1 := some (c + 1)
            env.cardIn := cs
            obs.portS := .xfer s.cfg.fillRd none :: s.obs.portS })) ∧
      (AtSteps [.tokenPoll] q s → s.ctl.poll.tok = some c →
        step s = .next (raise .storageBus
          { s with
            ctl.seq := q
            ctl.poll.tok := some (c + 1)
            env.cardIn := cs
            obs.portS := .xfer s.cfg.fillRd none :: s.obs.portS }))) ∧
    (∀ (i n : Nat) (r : Option Byte) (cs : List (Option Byte)), AtSteps [.payload i n] q s → i < n → n ≤ 512 →
      s.env.cardIn = r :: cs →
      step s = .next
        (match r with
         | some v =>
           { s with
             buf := s.buf.write i v
             ctl.seq := if i + 1 < n then .payload (i + 1) n :: q else q
             env.cardIn := cs
             obs.portS := .xfer s.cfg.fillRd (some v) :: s.obs.portS }
         | none =>
           raise .storageBus
             { s with ctl.seq := q, env.cardIn := cs, obs.portS := .xfer s.cfg.fillRd none :: s.obs.portS })) ∧
    (∀ (r : Option Byte) (cs : List (Option Byte)), AtSteps [.trailer] q s → s.env.cardIn = r :: cs →
      step s = .next
        (match r with
         | some v =>
           { s with ctl.seq := q, env.cardIn := cs, obs.portS := .xfer s.cfg.fillRd (some v) :: s.obs.portS }
         | none =>
           raise .storageBus
             { s with ctl.seq := q, env.cardIn := cs, obs.portS := .xfer s.cfg.fillRd none :: s.obs.portS }))

/-- `Select`, `Deselect`, `Drive` and `Hold`: the line's level and the event, and nothing else (40_transport.md R125,
R126, R129, R131). -/
def Obligations.LinePrimitives : Prop :=
  ∀ (s : State) (q : List Micro),
    (AtSteps [.select .S] q s → step s = .next
      { s with lines.csS := s.cfg.csActive, ctl.seq := q, obs.portS := .select :: s.obs.portS }) ∧
    (AtSteps [.select .D] q s → step s = .next
      { s with lines.csD := s.cfg.csActive, ctl.seq := q, obs.portD := .select :: s.obs.portD }) ∧
    (AtSteps [.deselect .S] q s → step s = .next
      { s with lines.csS := s.cfg.csActive.not, ctl.seq := q, obs.portS := .deselect :: s.obs.portS }) ∧
    (AtSteps [.deselect .D] q s → step s = .next
      { s with lines.csD := s.cfg.csActive.not, ctl.seq := q, obs.portD := .deselect :: s.obs.portD }) ∧
    (∀ v : Level, AtSteps [.drive .rst v] q s → step s = .next
      { s with lines.rst := v, ctl.seq := q, obs.portD := .drive .rst v :: s.obs.portD }) ∧
    (∀ v : Level, AtSteps [.drive .dc v] q s → step s = .next
      { s with lines.dc := v, ctl.seq := q, obs.portD := .drive .dc v :: s.obs.portD }) ∧
    (∀ h : HoldKind, AtSteps [.hold h] q s → step s = .next
      { s with ctl.seq := q, obs.portD := .hold h :: s.obs.portD })

/-- `Poll(L)` (40_transport.md R133): entry sets the counter to 0, and into the ACMD41 loop `first41` to true besides,
with nothing else changed (41_storage.md R163); an iteration counts itself; past POLL_LIMIT it raises F_UNRESPONSIVE before
any event; with POLL_LIMIT = none it never does. -/
def Obligations.PollCountsIterations : Prop :=
  ∀ (s : State) (l : Loop) (q : List Micro),
    let iteration : Micro := match l with
      | .r1 => .r1Poll
      | .tok => .tokenPoll
      | .cmd0 => .cmd0Loop
      | .a41 => .a41Loop
      | .bsy => .busyLoop
    (AtSteps [.enter l] q s → ∃ t, step s = .next t ∧ pollCount l t = some 0 ∧ t.obs = s.obs) ∧
    (AtSteps [.a41Enter] q s →
      step s = .next { s with ctl.seq := q, ctl.first41 := true, ctl.poll.a41 := some 0 }) ∧
    (AtSteps [iteration] q s → ∀ c, pollCount l s = some c →
      (∀ n, s.cfg.pollLimit = some n → n < c + 1 →
        step s = .next (raise .unresponsive (setPoll l (some (c + 1)) { s with ctl.seq := q }))) ∧
      ((∀ n, s.cfg.pollLimit = some n → c + 1 ≤ n) → ∀ (b : Byte) (cs : List (Option Byte)),
        (l = .r1 ∨ l = .tok → s.env.cardIn = some b :: cs) →
        ∃ t, step s = .next t ∧ t.regs.faultCode = s.regs.faultCode ∧
          (pollCount l t = some (c + 1) ∨ (pollCount l t = none ∧ (l = .r1 ∧ b ≠ 0xFF#8 ∨ l = .tok ∧ b = 0xFE#8)))))

/-- With POLL_LIMIT = none each of the five loops goes on for as long as the device keeps it (60_exceptions.md R287): a
card that returns only fillers, that sends no start token, that does not answer CMD0 with 0x01, or CMD41 with 0x00, and a
panel that is always busy. No fault code is written and no teardown runs. That the R1 probe's out-byte is FILL_RD is the
model's reading of 00_scope.md R11 where 41_storage.md R151 writes 0xFF: DEDUCED (log 25). -/
def Obligations.UnboundedPollsGoOn : Prop :=
  ∀ (s : State) (q : List Micro) (c : Nat), s.cfg.pollLimit = none →
    (∀ (k : Nat) (cs : List (Option Byte)), AtSteps [.r1Poll] q s → s.ctl.poll.r1 = some c →
      s.env.cardIn = List.replicate k (some 0xFF#8) ++ cs →
      Reaches s
        { s with
          ctl.poll.r1 := some (c + k)
          env.cardIn := cs
          obs.portS := List.replicate k (.xfer s.cfg.fillRd (some 0xFF#8)) ++ s.obs.portS }) ∧
    (∀ (junk : List Byte) (cs : List (Option Byte)), AtSteps [.tokenPoll] q s → s.ctl.poll.tok = some c →
      (∀ b ∈ junk, b ≠ 0xFE#8) → s.env.cardIn = junk.map some ++ cs →
      Reaches s
        { s with
          ctl.poll.tok := some (c + junk.length)
          env.cardIn := cs
          obs.portS := (junk.map (fun b => EventS.xfer s.cfg.fillRd (some b))).reverse ++ s.obs.portS }) ∧
    (∀ (busy vs : List Config.BusySample) (ps : List Bool), AtSteps [.busyLoop] q s → s.ctl.poll.bsy = some c →
      busy ≠ [] → (∀ v ∈ busy, busyNow s.cfg.busyActive v = true) → s.env.busyIn = busy ++ vs →
      s.env.panelIn = List.replicate busy.length true ++ ps →
      Reaches s
        { s with
          lines.dc := s.cfg.dcCmd
          lines.csD := s.cfg.csActive.not
          ctl.poll.bsy := some (c + busy.length)
          env.busyIn := vs
          env.panelIn := ps
          obs.portD := busy.reverse.flatMap (fun v => .hold .tPoll :: .busy v :: dcmdEvents s.cfg 0x71#8) ++ s.obs.portD }) ∧
    (∀ (tries : List CardTx) (last : CardTx) (cs : List (Option Byte)), AtSteps [.cmd0Loop] q s →
      s.ctl.poll.cmd0 = some c → (∀ t ∈ tries ++ [last], t.fits s.cfg = true ∧ t.r ≠ 0x01#8) →
      let tr : Transcript := (tries ++ [last]).map (fun t => (frameWord 0#6 0x00000000#32 0x95#8, t))
      s.env.cardIn = Transcript.answers tr ++ cs →
      Reaches s
        { s with
          regs.lastR1 := last.r
          lines.csS := s.cfg.csActive.not
          ctl.poll.r1 := none
          ctl.poll.cmd0 := some (c + (tries.length + 1))
          env.cardIn := cs
          obs.portS := Transcript.events s.cfg.fillRd tr ++ s.obs.portS }) ∧
    (∀ (rounds : List (CardTx × CardTx)) (last : CardTx × CardTx) (cs : List (Option Byte)), AtSteps [.a41Loop] q s →
      s.ctl.poll.a41 = some c →
      (∀ t ∈ rounds ++ [last], t.1.fits s.cfg = true ∧ t.2.fits s.cfg = true ∧ t.2.r ≠ 0x00#8) →
      (s.ctl.first41 = true → ∀ t, (rounds ++ [last]).head? = some t → t.2.r = 0x01#8) →
      let tr : Transcript := (rounds ++ [last]).flatMap (fun t =>
        [(frameWord 55#6 s.cfg.arg55 s.cfg.chk55, t.1), (frameWord 41#6 s.cfg.arg41 s.cfg.chk41, t.2)])
      s.env.cardIn = Transcript.answers tr ++ cs →
      Reaches s
        { s with
          regs.lastR1 := last.2.r
          lines.csS := s.cfg.csActive.not
          ctl.first41 := false
          ctl.poll.r1 := none
          ctl.poll.a41 := some (c + (rounds.length + 1))
          env.cardIn := cs
          obs.portS := Transcript.events s.cfg.fillRd tr ++ s.obs.portS })

/-- No line changes without its event: CS_S only with a select or deselect event of port S, the other lines only with an
event of port D; a reset alone changes them with none (10_state.md R50). -/
def Obligations.LinesChangeOnlyWithEvents : Prop :=
  ∀ s t : State, step s = .next t → s.env.sched.head? ≠ some .reset →
    (t.lines.csS ≠ s.lines.csS → t.obs.portS = .select :: s.obs.portS ∨ t.obs.portS = .deselect :: s.obs.portS) ∧
    (t.lines.csD ≠ s.lines.csD → t.obs.portD = .select :: s.obs.portD ∨ t.obs.portD = .deselect :: s.obs.portD) ∧
    (t.lines.rst ≠ s.lines.rst → t.obs.portD = .drive .rst t.lines.rst :: s.obs.portD) ∧
    (t.lines.dc ≠ s.lines.dc → t.obs.portD = .drive .dc t.lines.dc :: s.obs.portD)

/-- The ports are independent, and a step is at most one event: a step that records an event of one port leaves the
other port's record and lines as they were (40_transport.md R135). -/
def Obligations.PortsAreIndependent : Prop :=
  ∀ s t : State, step s = .next t → s.env.sched.head? ≠ some .reset →
    (t.obs.portS = s.obs.portS ∧ t.lines.csS = s.lines.csS ∨
      (∃ e, t.obs.portS = e :: s.obs.portS) ∧ t.obs.portD = s.obs.portD ∧ t.lines.csD = s.lines.csD ∧
        t.lines.rst = s.lines.rst ∧ t.lines.dc = s.lines.dc) ∧
    (t.obs.portD = s.obs.portD ∨ ∃ e, t.obs.portD = e :: s.obs.portD)

/-! ## Faults and the halt sequence -/

/-- The faults' codes (60_exceptions.md R271), and taking a fault outside `Shutdown()`: FAULT_CODE is written if it is
0, the teardown's steps replace the rest of the operation, and nothing else changes yet (R273, R275, R276). That the
sequence's three tests are made here is the model's choice (log 20). -/
def Obligations.FaultEntersHalt : Prop :=
  [FaultCode.storageBus, .displayBus, .sdV2Unsupported, .sdAcmd41Unsupported, .cmd17Response, .cmd18Response,
    .unresponsive, .illegalOpcode, .reservedBits, .operand, .sequence].map FaultCode.code =
    [0x01#8, 0x02#8, 0x03#8, 0x04#8, 0x05#8, 0x06#8, 0x07#8, 0x10#8, 0x11#8, 0x12#8, 0x13#8] ∧
  ∀ (c : FaultCode) (s : State), Micro.shutEnd ∉ s.ctl.seq →
    raise c s =
      { s with
        regs.faultCode := if s.regs.faultCode = 0x00#8 then c.code else s.regs.faultCode
        ctl.tearing := true
        ctl.seq :=
          (if s.lines.csS = s.cfg.csActive then [.deselect .S] else []) ++
          (if s.lines.csD = s.cfg.csActive then [.deselect .D] else []) ++
          (if s.regs.dispReady = true then
            [.shutBegin, .dispOp 0x02#8, .enter .bsy, .busyLoop, .dispOp 0x07#8, .shutEnd, .drive .rst .low,
              .drive .dc .low, .shutRet]
           else []) ++ [.haltEnd] }

/-- The halt sequence with no display to power down: the asserted select lines are deasserted, and the engine halts with
everything else as the fault left it (60_exceptions.md R276). -/
def Obligations.HaltWithoutDisplay : Prop :=
  ∀ (c : FaultCode) (s : State), Undisturbed s → s.regs.running = true → s.regs.dispReady = false →
    Reaches (halt c s)
      { s with
        regs.faultCode := if s.regs.faultCode = 0x00#8 then c.code else s.regs.faultCode
        regs.halted := true
        regs.running := false
        lines.csS := s.cfg.csActive.not
        lines.csD := s.cfg.csActive.not
        ctl.seq := []
        ctl.poll := { r1 := none, tok := none, cmd0 := none, a41 := none, bsy := none }
        ctl.tearing := false
        obs.portS := (if s.lines.csS = s.cfg.csActive then [.deselect] else []) ++ s.obs.portS
        obs.portD := (if s.lines.csD = s.cfg.csActive then [.deselect] else []) ++ s.obs.portD }

/-- The halt sequence with a display: the panel is powered down and put to sleep, RST and DC go Low, and port S is sent
no byte (60_exceptions.md R276, 43_display.md R226, 41_storage.md R169). -/
def Obligations.HaltPowersPanelDown : Prop :=
  ∀ (c : FaultCode) (s : State) (busy : List Config.BusySample) (ready : Config.BusySample) (ps : List Bool)
    (vs : List Config.BusySample), Undisturbed s → s.regs.running = true → s.regs.dispReady = true →
    (∀ v ∈ busy, busyNow s.cfg.busyActive v = true) → busyNow s.cfg.busyActive ready = false →
    aboveLimit s.cfg.pollLimit (busy.length + 1) = false →
    s.env.panelIn = List.replicate (busy.length + 4) true ++ ps → s.env.busyIn = busy ++ ready :: vs →
    Reaches (halt c s)
      { s with
        regs.faultCode := if s.regs.faultCode = 0x00#8 then c.code else s.regs.faultCode
        regs.halted := true
        regs.running := false
        regs.dispReady := false
        lines.csS := s.cfg.csActive.not
        lines.csD := s.cfg.csActive.not
        lines.rst := .low
        lines.dc := .low
        ctl.seq := []
        ctl.poll := { r1 := none, tok := none, cmd0 := none, a41 := none, bsy := none }
        ctl.tearing := false
        ctl.shutErr := none
        env.panelIn := ps
        env.busyIn := vs
        obs.portS := (if s.lines.csS = s.cfg.csActive then [.deselect] else []) ++ s.obs.portS
        obs.portD := shutdownEvents s.cfg busy ready ++
          ((if s.lines.csD = s.cfg.csActive then [.deselect] else []) ++ s.obs.portD) }

/-- A fault inside the teardown's `Shutdown()` is caught: the remaining bus steps are skipped, CS_D is deasserted, RST
and DC are still driven Low, the halt ends, and FAULT_CODE keeps the first fault's code (60_exceptions.md R279). -/
def Obligations.TeardownFaultIsCaught : Prop :=
  ∀ (c : FaultCode) (s : State) (q : List Micro), Undisturbed s → s.regs.running = true → s.ctl.tearing = true →
    Micro.shutEnd ∉ q →
    s.ctl.seq = q ++ [.shutEnd, .drive .rst .low, .drive .dc .low, .shutRet, .haltEnd] →
    Reaches (raise c s)
      { s with
        regs.halted := true
        regs.running := false
        lines.csD := s.cfg.csActive.not
        lines.rst := .low
        lines.dc := .low
        ctl.seq := []
        ctl.poll := { r1 := none, tok := none, cmd0 := none, a41 := none, bsy := none }
        ctl.tearing := false
        ctl.shutErr := none
        obs.portD := .drive .dc .low :: .drive .rst .low ::
          ((if s.lines.csD = s.cfg.csActive then [.deselect] else []) ++ s.obs.portD) }

/-- A fault of DISP_SHUTDOWN's own bus steps is raised after the lines are Low, and the halt that follows does not run
`Shutdown()` again, DISP_READY being 0 (43_display.md R246). -/
def Obligations.ShutdownFaultRaisedAfterLinesLow : Prop :=
  ∀ (c : FaultCode) (s : State) (q : List Micro), Undisturbed s → s.regs.running = true → s.ctl.tearing = false →
    s.regs.dispReady = false → Micro.shutEnd ∉ q →
    s.ctl.seq = q ++ [.shutEnd, .drive .rst .low, .drive .dc .low, .shutRet] →
    Reaches (raise c s)
      { s with
        regs.faultCode := if s.regs.faultCode = 0x00#8 then c.code else s.regs.faultCode
        regs.halted := true
        regs.running := false
        lines.csS := s.cfg.csActive.not
        lines.csD := s.cfg.csActive.not
        lines.rst := .low
        lines.dc := .low
        ctl.seq := []
        ctl.poll := { r1 := none, tok := none, cmd0 := none, a41 := none, bsy := none }
        ctl.shutErr := none
        obs.portS := (if s.lines.csS = s.cfg.csActive then [.deselect] else []) ++ s.obs.portS
        obs.portD := .drive .dc .low :: .drive .rst .low ::
          ((if s.lines.csD = s.cfg.csActive then [.deselect] else []) ++ s.obs.portD) }

/-! ## The host's registers -/

/-- STATUS, field by field (10_state.md R36), and PINS, bit by bit (R48). -/
def Obligations.StatusAndPinsLayout : Prop :=
  (∀ r : Regs,
    (statusWord r).getLsbD 0 = r.running ∧ (statusWord r).getLsbD 1 = r.halted ∧
    (statusWord r).getLsbD 2 = r.sdReady ∧
    ((statusWord r).getLsbD 3 = true ↔ r.owner ≠ .none) ∧
    (statusWord r).extractLsb' 4 2 =
      (match r.owner with | .none => 0#2 | .raw => 1#2 | .iter => 2#2 | .refresh => 3#2) ∧
    (statusWord r).getLsbD 6 = r.iterActive ∧ (statusWord r).getLsbD 7 = r.iterEnded ∧
    (statusWord r).getLsbD 8 = r.dispReady ∧ (statusWord r).getLsbD 9 = r.ovr ∧
    (statusWord r).extractLsb' 10 6 = 0#6 ∧ (statusWord r).extractLsb' 16 8 = r.faultCode ∧
    (statusWord r).extractLsb' 24 8 = r.lastR1) ∧
  (∀ l : Lines,
    ((pinsWord l).getLsbD 0 = true ↔ l.csS = .high) ∧ ((pinsWord l).getLsbD 1 = true ↔ l.csD = .high) ∧
    ((pinsWord l).getLsbD 2 = true ↔ l.rst = .high) ∧ ((pinsWord l).getLsbD 3 = true ↔ l.dc = .high) ∧
    (pinsWord l).extractLsb' 4 28 = 0#28)

/-- What a host read of each register returns, with nothing changed but the record of the read (20_memory.md R71,
R72). -/
def Obligations.RegisterReads : Prop :=
  ∀ (s : State) (offset : Nat) (turns : List Turn), s.env.sched = .read offset 4 :: turns → offset % 4 = 0 →
    offset < 0x200 →
    step s = .next
      { s with
        env.sched := turns
        obs.host :=
          { offset := offset
            value :=
              if offset = 0x004 then s.regs.arg
              else if offset = 0x008 then 0#22 ++ s.regs.len
              else if offset = 0x00C then statusWord s.regs
              else if offset = 0x010 then 0#22 ++ s.regs.chunkLen
              else if offset = 0x014 then s.regs.iterCur
              else if offset = 0x018 then s.regs.iterEnd
              else if offset = 0x01C then pinsWord s.lines
              else 0x00000000#32 } :: s.obs.host }

/-- What a host write below BUF other than CMD does while the engine is not running: ARG and LEN store it, LEN only
bits [9:0]; a read-only register or a reserved offset is unchanged (20_memory.md R71, R72). -/
def Obligations.RegisterWrites : Prop :=
  ∀ (s : State) (offset : Nat) (v : Word) (turns : List Turn), s.env.sched = .write offset 4 v :: turns →
    offset % 4 = 0 → offset ≠ 0x000 → offset < 0x200 → s.regs.running = false →
    step s = .next
      (if offset = 0x004 then { s with env.sched := turns, regs.arg := v }
       else if offset = 0x008 then { s with env.sched := turns, regs.len := v.extractLsb' 0 10 }
       else { s with env.sched := turns })

/-- BUF words are little-endian, both ways (20_memory.md R74): a write of word k sets its four bytes and no other, and
changes nothing else; each byte that has been written reads back in its place. -/
def Obligations.BufWordsLittleEndian : Prop :=
  ∀ (s : State) (k : Nat) (turns : List Turn), k < 128 →
    (∀ v : Word, s.env.sched = .write (0x200 + 4 * k) 4 v :: turns → s.regs.running = false →
      ∃ m : Memory, step s = .next { s with env.sched := turns, buf := m } ∧
        (∀ j, j < 4 → m.read (4 * k + j) = some (v.extractLsb' (8 * j) 8)) ∧
        (∀ i, i < 4 * k ∨ 4 * k + 4 ≤ i → m.read i = s.buf.read i)) ∧
    (s.env.sched = .read (0x200 + 4 * k) 4 :: turns →
      ∃ (v : Word) (t : State), step s = .next t ∧ t.obs.host = { offset := 0x200 + 4 * k, value := v } :: s.obs.host ∧
        t.buf = s.buf ∧
        ∀ j b, j < 4 → s.buf.read (4 * k + j) = some b → v.extractLsb' (8 * j) 8 = b)

/-- No host read changes a register, BUF, a line, the sequencer or a port's record (20_memory.md R79). -/
def Obligations.ReadsHaveNoSideEffect : Prop :=
  ∀ (s t : State) (offset size : Nat) (turns : List Turn), s.env.sched = .read offset size :: turns →
    step s = .next t →
    t.cfg = s.cfg ∧ t.regs = s.regs ∧ t.buf = s.buf ∧ t.lines = s.lines ∧ t.ctl = s.ctl ∧
      t.obs.portS = s.obs.portS ∧ t.obs.portD = s.obs.portD ∧ t.env.cardIn = s.env.cardIn ∧
      t.env.panelIn = s.env.panelIn ∧ t.env.busyIn = s.env.busyIn ∧ t.env.sched = turns

/-- Host writes to ARG, LEN and BUF while RUNNING = 1 are dropped with no flag (70_reset_and_hazards.md R305). -/
def Obligations.WritesDroppedWhileRunning : Prop :=
  ∀ (s : State) (offset : Nat) (v : Word) (turns : List Turn), s.env.sched = .write offset 4 v :: turns →
    s.regs.running = true → (offset = 0x004 ∨ offset = 0x008 ∨ (0x200 ≤ offset ∧ offset < 0x400 ∧ offset % 4 = 0)) →
    step s = .next { s with env.sched := turns }

/-- A host access that is not one aligned 32-bit word gets no result (20_memory.md R73). -/
def Obligations.NarrowAccessRefused : Prop :=
  ∀ (s : State) (offset size : Nat) (v : Word) (turns : List Turn), size ≠ 4 ∨ offset % 4 ≠ 0 →
    (s.env.sched = .read offset size :: turns → step s = .refused (.hostAccessNotAWord offset size)) ∧
    (s.env.sched = .write offset size v :: turns → step s = .refused (.hostAccessNotAWord offset size))

/-! ## Reset -/

/-- The value of every state element after reset (10_state.md R53), at power-on and at a reset taken at any time; a BUF
byte is unwritten, so that each read of it is a draw. The reset answers a next state with no event recorded on any port
and the instance's parameters as they were (70_reset_and_hazards.md R300, R303). -/
def Obligations.ResetValues : Prop :=
  (∀ (s : State) (turns : List Turn), s.env.sched = .reset :: turns →
    ∃ t, step s = .next t ∧ t.cfg = s.cfg ∧ t.obs.portS = s.obs.portS ∧ t.obs.portD = s.obs.portD) ∧
  (∀ u : State, (u = State.reset ∨ ∃ s turns, s.env.sched = .reset :: turns ∧ step s = .next u) →
    u.regs.arg = 0x00000000#32 ∧ u.regs.len = 0#10 ∧ u.regs.running = false ∧ u.regs.halted = false ∧
    u.regs.sdReady = false ∧ streamOpen u.regs = false ∧ u.regs.iterActive = false ∧ u.regs.iterEnded = false ∧
    u.regs.dispReady = false ∧ u.regs.ovr = false ∧ u.regs.owner = .none ∧ u.regs.faultCode = 0x00#8 ∧
    u.regs.lastR1 = 0xFF#8 ∧ u.regs.chunkLen = 0#10 ∧ u.regs.iterCur = 0x00000000#32 ∧
    u.regs.iterEnd = 0x00000000#32 ∧ (∀ i, u.buf.read i = none) ∧
    u.lines.csS = u.cfg.csActive.not ∧ u.lines.csD = u.cfg.csActive.not ∧ u.lines.rst = .low ∧ u.lines.dc = .low ∧
    u.ctl.op = none ∧ u.ctl.seq = [] ∧ u.ctl.first41 = true ∧ u.ctl.tearing = false ∧
    u.ctl.poll = { r1 := none, tok := none, cmd0 := none, a41 := none, bsy := none })

/-! ## What never changes, and what changes only in one way -/

/-- No step writes the instance's parameters (70_reset_and_hazards.md R303). -/
def Obligations.ParametersNeverChange : Prop :=
  ∀ s t : State, step s = .next t → t.cfg = s.cfg

/-- Operand stability (40_transport.md R123): while RUNNING = 1, ARG and LEN do not change, no host access changes BUF,
and BUF changes only where a data phase stores a payload byte, and there at that byte's index alone. -/
def Obligations.OperandsStableWhileRunning : Prop :=
  ∀ s t : State, step s = .next t → s.regs.running = true → s.env.sched.head? ≠ some .reset →
    t.regs.arg = s.regs.arg ∧ t.regs.len = s.regs.len ∧
    ((∃ offset size v, s.env.sched.head? = some (.write offset size v)) ∨
      (∃ offset size, s.env.sched.head? = some (.read offset size)) → t.buf = s.buf) ∧
    (t.buf ≠ s.buf → ∃ i n q, s.ctl.seq = .payload i n :: q ∧ ∀ j, j ≠ i → t.buf.read j = s.buf.read j)

/-- Which turns and micro-steps change the fields of STATUS (10_state.md R37 to R45). RUNNING rises at a write to CMD and
falls at completion or at the end of a halt, where HALTED rises and lasts; SD_READY rises at the end of SD_INIT and lasts;
OWNER changes only where a stream is opened or closed; ITER_ACTIVE rises where a sequence is created and falls where it is
dropped; ITER_ENDED rises where a pull has sent read_end and falls where a sequence is created or dropped; DISP_READY rises
at the end of DISP_INIT and falls at the start of `Shutdown()`; OVR rises at a write to CMD while RUNNING = 1 and lasts; the
first fault's code is written as the halt begins and lasts; LAST_R1 changes only in the R1 poll. The micro-steps
at which these fall are the model's (log 1). -/
def Obligations.StatusChangesOnlyInPlace : Prop :=
  ∀ s t : State, step s = .next t → s.env.sched.head? ≠ some .reset →
    (t.regs.running ≠ s.regs.running →
      (t.regs.running = true ∧ s.regs.halted = false ∧ ∃ w, s.env.sched.head? = some (.write 0x000 4 w)) ∨
      (t.regs.running = false ∧ (s.ctl.seq = [] ∨ ∃ q, s.ctl.seq = .haltEnd :: q))) ∧
    (t.regs.halted ≠ s.regs.halted → t.regs.halted = true ∧ ∃ q, s.ctl.seq = .haltEnd :: q) ∧
    (t.regs.ovr ≠ s.regs.ovr →
      t.regs.ovr = true ∧ s.regs.running = true ∧ ∃ w, s.env.sched.head? = some (.write 0x000 4 w)) ∧
    (t.regs.faultCode ≠ s.regs.faultCode → s.regs.faultCode = 0x00#8 ∧ t.ctl.tearing = true) ∧
    (t.regs.lastR1 ≠ s.regs.lastR1 → ∃ q, s.ctl.seq = .r1Poll :: q) ∧
    (t.regs.sdReady ≠ s.regs.sdReady → t.regs.sdReady = true ∧ ∃ q, s.ctl.seq = .setSdReady :: q) ∧
    (t.regs.dispReady ≠ s.regs.dispReady →
      (t.regs.dispReady = true ∧ ∃ q, s.ctl.seq = .setDispReady :: q) ∨
      (t.regs.dispReady = false ∧ ∃ q, s.ctl.seq = .shutBegin :: q)) ∧
    (t.regs.iterActive ≠ s.regs.iterActive →
      (t.regs.iterActive = true ∧ ∃ start who q, s.ctl.seq = .itBegin start who :: q) ∨
      (t.regs.iterActive = false ∧ ∃ q, s.ctl.seq = .itDrop :: q ∨ s.ctl.seq = .dropEnd :: q)) ∧
    (t.regs.iterEnded ≠ s.regs.iterEnded →
      (t.regs.iterEnded = true ∧ ∃ q, s.ctl.seq = .pullEnd :: q) ∨
      (t.regs.iterEnded = false ∧
        ∃ q, (∃ start who, s.ctl.seq = .itBegin start who :: q) ∨ s.ctl.seq = .itDrop :: q ∨ s.ctl.seq = .dropEnd :: q)) ∧
    (t.regs.owner ≠ s.regs.owner →
      ∃ q, s.ctl.seq = .setOwner t.regs.owner :: q ∨ (∃ start, s.ctl.seq = .itBegin start t.regs.owner :: q) ∨
        (t.regs.owner = .none ∧ (s.ctl.seq = .pullEnd :: q ∨ s.ctl.seq = .dropEnd :: q)))

/-- ITER_CUR never moves backwards within a sequence: a pull advances it by min(512, ITER_END - ITER_CUR), a new
sequence sets it, a reset clears it, and nothing else changes it (42_chunk_sequencer.md R200, R209). -/
def Obligations.IterCurOnlyAdvances : Prop :=
  ∀ s t : State, step s = .next t → s.env.sched.head? ≠ some .reset → t.regs.iterCur ≠ s.regs.iterCur →
    (∃ q, s.ctl.seq = .itPull :: q ∧ s.regs.iterCur < s.regs.iterEnd ∧
      t.regs.iterCur.toNat = s.regs.iterCur.toNat + min 512 (s.regs.iterEnd.toNat - s.regs.iterCur.toNat)) ∨
    (∃ who q, s.ctl.seq = .itBegin t.regs.iterCur who :: q)

/-! ## Invariants -/

/-- Reset meets every invariant below. -/
def Obligations.ResetMeetsInvariants : Prop :=
  State.reset.buf.wf = true ∧ StepsBounded State.reset ∧ HaltSound State.reset ∧ SequenceSound State.reset ∧
  SelectSound State.reset

/-- Every step keeps BUF in its canonical form. -/
def Obligations.BufStaysCanonical : Prop :=
  ∀ s t : State, s.buf.wf = true → step s = .next t → t.buf.wf = true

/-- Every step keeps the micro-steps within their bounds: the frames sent are R97's seven, with their arguments and
check bytes, and no length exceeds a chunk (30_encoding.md R97). -/
def Obligations.StepsStayBounded : Prop :=
  ∀ s t : State, StepsBounded s → step s = .next t → StepsBounded t

/-- Every step keeps HALTED = 1 ⇒ RUNNING = 0 ∧ FAULT_CODE ≠ 0 (10_state.md R52 (v)). -/
def Obligations.HaltStaysSound : Prop :=
  ∀ s t : State, HaltSound s → step s = .next t → HaltSound t

/-- Every step keeps the chunk sequence's invariants (10_state.md R52 (ii), (iii), (iv)). -/
def Obligations.SequenceStaysSound : Prop :=
  ∀ s t : State, SequenceSound s → step s = .next t → SequenceSound t

/-- Every step keeps the select discipline: with RUNNING = 0 neither select line is asserted (10_state.md R52 (vi),
40_transport.md R134). -/
def Obligations.SelectStaysSound : Prop :=
  ∀ s t : State, SelectSound s → step s = .next t → SelectSound t

/-- Within the bounds of the micro-steps only a host access can be refused or fault: every other turn, the engine's, the
host's wait and a reset, answers a next state. -/
def Obligations.EngineNeverStops : Prop :=
  ∀ s : State, StepsBounded s → (∀ offset size, s.env.sched.head? ≠ some (.read offset size)) →
    (∀ offset size v, s.env.sched.head? ≠ some (.write offset size v)) → ∃ t, step s = .next t

/-- With a finite POLL_LIMIT every operation ends, by completion or by a halt, whatever the card and the panel answer
(60_exceptions.md R288, 70_reset_and_hazards.md R316). -/
def Obligations.BoundedEngineFinishes : Prop :=
  ∀ (s : State) (n : Nat), s.cfg.pollLimit = some n → StepsBounded s → Undisturbed s →
    ∃ t, Reaches s t ∧ t.regs.running = false ∧ (s.regs.running = true → t.ctl.seq = [])
end

