-- ==== Sys2Proof/Laws/Encoding.lean ====
section
/-! SUPPORT. The fields of an encoded word are the ones it was made of. -/

namespace Sys2Proof

theorem frameWord_start (idx : BitVec 6) (arg : Word) (chk : Byte) :
    (frameWord idx arg chk).extractLsb' 46 2 = 1#2 := by
  apply BitVec.eq_of_getLsbD_eq
  intro i hi
  simp only [frameWord, BitVec.getLsbD_extractLsb', BitVec.getLsbD_append]
  have : ¬ (46 + i < 8) := by omega
  have : ¬ (46 + i - 8 < 32) := by omega
  have : ¬ (46 + i - 8 - 32 < 6) := by omega
  simp [*, show 46 + i - 8 - 32 - 6 = i by omega]

theorem frameWord_idx (idx : BitVec 6) (arg : Word) (chk : Byte) :
    (frameWord idx arg chk).extractLsb' 40 6 = idx := by
  apply BitVec.eq_of_getLsbD_eq
  intro i hi
  simp only [frameWord, BitVec.getLsbD_extractLsb', BitVec.getLsbD_append]
  have : ¬ (40 + i < 8) := by omega
  have : ¬ (40 + i - 8 < 32) := by omega
  have : 40 + i - 8 - 32 < 6 := by omega
  simp [*, show 40 + i - 8 - 32 = i by omega]

theorem frameWord_arg (idx : BitVec 6) (arg : Word) (chk : Byte) :
    (frameWord idx arg chk).extractLsb' 8 32 = arg := by
  apply BitVec.eq_of_getLsbD_eq
  intro i hi
  simp only [frameWord, BitVec.getLsbD_extractLsb', BitVec.getLsbD_append]
  have : ¬ (8 + i < 8) := by omega
  simp [*]

theorem frameWord_chk (idx : BitVec 6) (arg : Word) (chk : Byte) :
    (frameWord idx arg chk).extractLsb' 0 8 = chk := by
  apply BitVec.eq_of_getLsbD_eq
  intro i hi
  simp only [frameWord, BitVec.getLsbD_extractLsb', BitVec.getLsbD_append]
  simp [*]

/-- A frame of a known index decodes to its command, with its argument and check byte. -/
theorem decode_frameWord (idx : BitVec 6) (arg : Word) (chk : Byte) {i : Instr}
    (h : cardCommandMap idx arg chk = some i) : decode (.frame (frameWord idx arg chk)) = .ok i := by
  simp only [decode, decodeFrame, frameWord_start, frameWord_idx, frameWord_arg, frameWord_chk, h]
  simp

theorem opWord_opc (opc : Byte) (p : Bool) : opcField (opWord opc p) = opc := by
  apply BitVec.eq_of_getLsbD_eq
  intro i hi
  simp only [opcField, opWord, BitVec.getLsbD_extractLsb', BitVec.getLsbD_append]
  simp [*]

theorem opWord_plane (opc : Byte) (p : Bool) : planeField (opWord opc p) = p := by
  simp only [planeField, opWord, BitVec.getLsbD_append]
  simp

theorem opWord_res (opc : Byte) (p : Bool) : resField (opWord opc p) = 0#23 := by
  apply BitVec.eq_of_getLsbD_eq
  intro i hi
  simp only [resField, opWord, BitVec.getLsbD_extractLsb', BitVec.getLsbD_append]
  have : ¬ (9 + i < 8) := by omega
  have : ¬ (9 + i - 8 < 1) := by omega
  simp [*]

end Sys2Proof
end

