-- ==== Sys2Proof/Laws/State.lean ====
section
/-! SUPPORT. One lemma per field per named update of the state, so that no proof unfolds a record update. -/

namespace Sys2Proof.Machine

/-! Events, and the micro-steps still to run. -/

@[simp] theorem emitS_cfg (e : EventS) (s : State) : (emitS e s).cfg = s.cfg := rfl
@[simp] theorem emitS_regs (e : EventS) (s : State) : (emitS e s).regs = s.regs := rfl
@[simp] theorem emitS_buf (e : EventS) (s : State) : (emitS e s).buf = s.buf := rfl
@[simp] theorem emitS_lines (e : EventS) (s : State) : (emitS e s).lines = s.lines := rfl
@[simp] theorem emitS_ctl (e : EventS) (s : State) : (emitS e s).ctl = s.ctl := rfl
@[simp] theorem emitS_env (e : EventS) (s : State) : (emitS e s).env = s.env := rfl
@[simp] theorem emitS_portS (e : EventS) (s : State) : (emitS e s).obs.portS = e :: s.obs.portS := rfl
@[simp] theorem emitS_portD (e : EventS) (s : State) : (emitS e s).obs.portD = s.obs.portD := rfl
@[simp] theorem emitS_host (e : EventS) (s : State) : (emitS e s).obs.host = s.obs.host := rfl

@[simp] theorem emitD_cfg (e : EventD) (s : State) : (emitD e s).cfg = s.cfg := rfl
@[simp] theorem emitD_regs (e : EventD) (s : State) : (emitD e s).regs = s.regs := rfl
@[simp] theorem emitD_buf (e : EventD) (s : State) : (emitD e s).buf = s.buf := rfl
@[simp] theorem emitD_lines (e : EventD) (s : State) : (emitD e s).lines = s.lines := rfl
@[simp] theorem emitD_ctl (e : EventD) (s : State) : (emitD e s).ctl = s.ctl := rfl
@[simp] theorem emitD_env (e : EventD) (s : State) : (emitD e s).env = s.env := rfl
@[simp] theorem emitD_portS (e : EventD) (s : State) : (emitD e s).obs.portS = s.obs.portS := rfl
@[simp] theorem emitD_portD (e : EventD) (s : State) : (emitD e s).obs.portD = e :: s.obs.portD := rfl
@[simp] theorem emitD_host (e : EventD) (s : State) : (emitD e s).obs.host = s.obs.host := rfl

@[simp] theorem setSeq_cfg (q : List Micro) (s : State) : (setSeq q s).cfg = s.cfg := rfl
@[simp] theorem setSeq_regs (q : List Micro) (s : State) : (setSeq q s).regs = s.regs := rfl
@[simp] theorem setSeq_buf (q : List Micro) (s : State) : (setSeq q s).buf = s.buf := rfl
@[simp] theorem setSeq_lines (q : List Micro) (s : State) : (setSeq q s).lines = s.lines := rfl
@[simp] theorem setSeq_op (q : List Micro) (s : State) : (setSeq q s).ctl.op = s.ctl.op := rfl
@[simp] theorem setSeq_seq (q : List Micro) (s : State) : (setSeq q s).ctl.seq = q := rfl
@[simp] theorem setSeq_poll (q : List Micro) (s : State) : (setSeq q s).ctl.poll = s.ctl.poll := rfl
@[simp] theorem setSeq_first41 (q : List Micro) (s : State) : (setSeq q s).ctl.first41 = s.ctl.first41 := rfl
@[simp] theorem setSeq_tearing (q : List Micro) (s : State) : (setSeq q s).ctl.tearing = s.ctl.tearing := rfl
@[simp] theorem setSeq_shutErr (q : List Micro) (s : State) : (setSeq q s).ctl.shutErr = s.ctl.shutErr := rfl
@[simp] theorem setSeq_env (q : List Micro) (s : State) : (setSeq q s).env = s.env := rfl
@[simp] theorem setSeq_obs (q : List Micro) (s : State) : (setSeq q s).obs = s.obs := rfl

@[simp] theorem push_cfg (q : List Micro) (s : State) : (push q s).cfg = s.cfg := rfl
@[simp] theorem push_regs (q : List Micro) (s : State) : (push q s).regs = s.regs := rfl
@[simp] theorem push_buf (q : List Micro) (s : State) : (push q s).buf = s.buf := rfl
@[simp] theorem push_lines (q : List Micro) (s : State) : (push q s).lines = s.lines := rfl
@[simp] theorem push_op (q : List Micro) (s : State) : (push q s).ctl.op = s.ctl.op := rfl
@[simp] theorem push_seq (q : List Micro) (s : State) : (push q s).ctl.seq = q ++ s.ctl.seq := rfl
@[simp] theorem push_poll (q : List Micro) (s : State) : (push q s).ctl.poll = s.ctl.poll := rfl
@[simp] theorem push_first41 (q : List Micro) (s : State) : (push q s).ctl.first41 = s.ctl.first41 := rfl
@[simp] theorem push_tearing (q : List Micro) (s : State) : (push q s).ctl.tearing = s.ctl.tearing := rfl
@[simp] theorem push_shutErr (q : List Micro) (s : State) : (push q s).ctl.shutErr = s.ctl.shutErr := rfl
@[simp] theorem push_env (q : List Micro) (s : State) : (push q s).env = s.env := rfl
@[simp] theorem push_obs (q : List Micro) (s : State) : (push q s).obs = s.obs := rfl

@[simp] theorem setSched_cfg (q : List Turn) (s : State) : (setSched q s).cfg = s.cfg := rfl
@[simp] theorem setSched_regs (q : List Turn) (s : State) : (setSched q s).regs = s.regs := rfl
@[simp] theorem setSched_buf (q : List Turn) (s : State) : (setSched q s).buf = s.buf := rfl
@[simp] theorem setSched_lines (q : List Turn) (s : State) : (setSched q s).lines = s.lines := rfl
@[simp] theorem setSched_ctl (q : List Turn) (s : State) : (setSched q s).ctl = s.ctl := rfl
@[simp] theorem setSched_sched (q : List Turn) (s : State) : (setSched q s).env.sched = q := rfl
@[simp] theorem setSched_cardIn (q : List Turn) (s : State) : (setSched q s).env.cardIn = s.env.cardIn := rfl
@[simp] theorem setSched_panelIn (q : List Turn) (s : State) : (setSched q s).env.panelIn = s.env.panelIn := rfl
@[simp] theorem setSched_busyIn (q : List Turn) (s : State) : (setSched q s).env.busyIn = s.env.busyIn := rfl
@[simp] theorem setSched_draws (q : List Turn) (s : State) : (setSched q s).env.draws = s.env.draws := rfl
@[simp] theorem setSched_obs (q : List Turn) (s : State) : (setSched q s).obs = s.obs := rfl

/-! BUF, and host reads. -/

@[simp] theorem bufWrite_cfg (i : Nat) (v : Byte) (s : State) : (bufWrite i v s).cfg = s.cfg := rfl
@[simp] theorem bufWrite_regs (i : Nat) (v : Byte) (s : State) : (bufWrite i v s).regs = s.regs := rfl
@[simp] theorem bufWrite_buf (i : Nat) (v : Byte) (s : State) : (bufWrite i v s).buf = s.buf.write i v := rfl
@[simp] theorem bufWrite_lines (i : Nat) (v : Byte) (s : State) : (bufWrite i v s).lines = s.lines := rfl
@[simp] theorem bufWrite_ctl (i : Nat) (v : Byte) (s : State) : (bufWrite i v s).ctl = s.ctl := rfl
@[simp] theorem bufWrite_env (i : Nat) (v : Byte) (s : State) : (bufWrite i v s).env = s.env := rfl
@[simp] theorem bufWrite_obs (i : Nat) (v : Byte) (s : State) : (bufWrite i v s).obs = s.obs := rfl

@[simp] theorem recordRead_cfg (o : Nat) (v : Word) (s : State) : (recordRead o v s).cfg = s.cfg := rfl
@[simp] theorem recordRead_regs (o : Nat) (v : Word) (s : State) : (recordRead o v s).regs = s.regs := rfl
@[simp] theorem recordRead_buf (o : Nat) (v : Word) (s : State) : (recordRead o v s).buf = s.buf := rfl
@[simp] theorem recordRead_lines (o : Nat) (v : Word) (s : State) : (recordRead o v s).lines = s.lines := rfl
@[simp] theorem recordRead_ctl (o : Nat) (v : Word) (s : State) : (recordRead o v s).ctl = s.ctl := rfl
@[simp] theorem recordRead_env (o : Nat) (v : Word) (s : State) : (recordRead o v s).env = s.env := rfl
@[simp] theorem recordRead_portS (o : Nat) (v : Word) (s : State) : (recordRead o v s).obs.portS = s.obs.portS := rfl
@[simp] theorem recordRead_portD (o : Nat) (v : Word) (s : State) : (recordRead o v s).obs.portD = s.obs.portD := rfl
@[simp] theorem recordRead_host (o : Nat) (v : Word) (s : State) : (recordRead o v s).obs.host = { offset := o, value := v } :: s.obs.host := rfl

/-! Loop counters. -/

@[simp] theorem setPoll_cfg (l : Loop) (n : Option Nat) (s : State) : (setPoll l n s).cfg = s.cfg := by cases l <;> rfl
@[simp] theorem setPoll_regs (l : Loop) (n : Option Nat) (s : State) : (setPoll l n s).regs = s.regs := by cases l <;> rfl
@[simp] theorem setPoll_buf (l : Loop) (n : Option Nat) (s : State) : (setPoll l n s).buf = s.buf := by cases l <;> rfl
@[simp] theorem setPoll_lines (l : Loop) (n : Option Nat) (s : State) : (setPoll l n s).lines = s.lines := by cases l <;> rfl
@[simp] theorem setPoll_env (l : Loop) (n : Option Nat) (s : State) : (setPoll l n s).env = s.env := by cases l <;> rfl
@[simp] theorem setPoll_obs (l : Loop) (n : Option Nat) (s : State) : (setPoll l n s).obs = s.obs := by cases l <;> rfl
@[simp] theorem setPoll_op (l : Loop) (n : Option Nat) (s : State) : (setPoll l n s).ctl.op = s.ctl.op := by cases l <;> rfl
@[simp] theorem setPoll_seq (l : Loop) (n : Option Nat) (s : State) : (setPoll l n s).ctl.seq = s.ctl.seq := by cases l <;> rfl
@[simp] theorem setPoll_first41 (l : Loop) (n : Option Nat) (s : State) : (setPoll l n s).ctl.first41 = s.ctl.first41 := by cases l <;> rfl
@[simp] theorem setPoll_tearing (l : Loop) (n : Option Nat) (s : State) : (setPoll l n s).ctl.tearing = s.ctl.tearing := by cases l <;> rfl
@[simp] theorem setPoll_shutErr (l : Loop) (n : Option Nat) (s : State) : (setPoll l n s).ctl.shutErr = s.ctl.shutErr := by cases l <;> rfl
@[simp] theorem pollCount_setPoll (l : Loop) (n : Option Nat) (s : State) : pollCount l (setPoll l n s) = n := by cases l <;> rfl

/-! Lines. -/

@[simp] theorem doSelect_cfg (p : Port) (s : State) : (doSelect p s).cfg = s.cfg := by cases p <;> rfl
@[simp] theorem doSelect_regs (p : Port) (s : State) : (doSelect p s).regs = s.regs := by cases p <;> rfl
@[simp] theorem doSelect_buf (p : Port) (s : State) : (doSelect p s).buf = s.buf := by cases p <;> rfl
@[simp] theorem doSelect_ctl (p : Port) (s : State) : (doSelect p s).ctl = s.ctl := by cases p <;> rfl
@[simp] theorem doSelect_env (p : Port) (s : State) : (doSelect p s).env = s.env := by cases p <;> rfl
@[simp] theorem doSelectS_lines (s : State) : (doSelect .S s).lines = { s.lines with csS := s.cfg.csActive } := rfl
@[simp] theorem doSelectD_lines (s : State) : (doSelect .D s).lines = { s.lines with csD := s.cfg.csActive } := rfl
@[simp] theorem doSelectS_obs (s : State) : (doSelect .S s).obs = { s.obs with portS := .select :: s.obs.portS } := rfl
@[simp] theorem doSelectD_obs (s : State) : (doSelect .D s).obs = { s.obs with portD := .select :: s.obs.portD } := rfl

@[simp] theorem doDeselect_cfg (p : Port) (s : State) : (doDeselect p s).cfg = s.cfg := by cases p <;> rfl
@[simp] theorem doDeselect_regs (p : Port) (s : State) : (doDeselect p s).regs = s.regs := by cases p <;> rfl
@[simp] theorem doDeselect_buf (p : Port) (s : State) : (doDeselect p s).buf = s.buf := by cases p <;> rfl
@[simp] theorem doDeselect_ctl (p : Port) (s : State) : (doDeselect p s).ctl = s.ctl := by cases p <;> rfl
@[simp] theorem doDeselect_env (p : Port) (s : State) : (doDeselect p s).env = s.env := by cases p <;> rfl
@[simp] theorem doDeselectS_lines (s : State) : (doDeselect .S s).lines = { s.lines with csS := s.cfg.csActive.not } := rfl
@[simp] theorem doDeselectD_lines (s : State) : (doDeselect .D s).lines = { s.lines with csD := s.cfg.csActive.not } := rfl
@[simp] theorem doDeselectS_obs (s : State) : (doDeselect .S s).obs = { s.obs with portS := .deselect :: s.obs.portS } := rfl
@[simp] theorem doDeselectD_obs (s : State) : (doDeselect .D s).obs = { s.obs with portD := .deselect :: s.obs.portD } := rfl

@[simp] theorem doDrive_cfg (l : OutLine) (v : Level) (s : State) : (doDrive l v s).cfg = s.cfg := by cases l <;> rfl
@[simp] theorem doDrive_regs (l : OutLine) (v : Level) (s : State) : (doDrive l v s).regs = s.regs := by cases l <;> rfl
@[simp] theorem doDrive_buf (l : OutLine) (v : Level) (s : State) : (doDrive l v s).buf = s.buf := by cases l <;> rfl
@[simp] theorem doDrive_ctl (l : OutLine) (v : Level) (s : State) : (doDrive l v s).ctl = s.ctl := by cases l <;> rfl
@[simp] theorem doDrive_env (l : OutLine) (v : Level) (s : State) : (doDrive l v s).env = s.env := by cases l <;> rfl
@[simp] theorem doDriveRst_lines (v : Level) (s : State) : (doDrive .rst v s).lines = { s.lines with rst := v } := rfl
@[simp] theorem doDriveDc_lines (v : Level) (s : State) : (doDrive .dc v s).lines = { s.lines with dc := v } := rfl
@[simp] theorem doDrive_obs (l : OutLine) (v : Level) (s : State) :
    (doDrive l v s).obs = { s.obs with portD := .drive l v :: s.obs.portD } := by cases l <;> rfl

@[simp] theorem doHold_cfg (h : HoldKind) (s : State) : (doHold h s).cfg = s.cfg := rfl
@[simp] theorem doHold_regs (h : HoldKind) (s : State) : (doHold h s).regs = s.regs := rfl
@[simp] theorem doHold_buf (h : HoldKind) (s : State) : (doHold h s).buf = s.buf := rfl
@[simp] theorem doHold_lines (h : HoldKind) (s : State) : (doHold h s).lines = s.lines := rfl
@[simp] theorem doHold_ctl (h : HoldKind) (s : State) : (doHold h s).ctl = s.ctl := rfl
@[simp] theorem doHold_env (h : HoldKind) (s : State) : (doHold h s).env = s.env := rfl
@[simp] theorem doHold_portS (h : HoldKind) (s : State) : (doHold h s).obs.portS = s.obs.portS := rfl
@[simp] theorem doHold_portD (h : HoldKind) (s : State) : (doHold h s).obs.portD = .hold h :: s.obs.portD := rfl
@[simp] theorem doHold_host (h : HoldKind) (s : State) : (doHold h s).obs.host = s.obs.host := rfl

/-! Faults, completion and reset. -/

@[simp] theorem halt_cfg (c : FaultCode) (s : State) : (halt c s).cfg = s.cfg := rfl
@[simp] theorem halt_arg (c : FaultCode) (s : State) : (halt c s).regs.arg = s.regs.arg := rfl
@[simp] theorem halt_len (c : FaultCode) (s : State) : (halt c s).regs.len = s.regs.len := rfl
@[simp] theorem halt_running (c : FaultCode) (s : State) : (halt c s).regs.running = s.regs.running := rfl
@[simp] theorem halt_halted (c : FaultCode) (s : State) : (halt c s).regs.halted = s.regs.halted := rfl
@[simp] theorem halt_sdReady (c : FaultCode) (s : State) : (halt c s).regs.sdReady = s.regs.sdReady := rfl
@[simp] theorem halt_owner (c : FaultCode) (s : State) : (halt c s).regs.owner = s.regs.owner := rfl
@[simp] theorem halt_iterActive (c : FaultCode) (s : State) : (halt c s).regs.iterActive = s.regs.iterActive := rfl
@[simp] theorem halt_iterEnded (c : FaultCode) (s : State) : (halt c s).regs.iterEnded = s.regs.iterEnded := rfl
@[simp] theorem halt_dispReady (c : FaultCode) (s : State) : (halt c s).regs.dispReady = s.regs.dispReady := rfl
@[simp] theorem halt_ovr (c : FaultCode) (s : State) : (halt c s).regs.ovr = s.regs.ovr := rfl
@[simp] theorem halt_faultCode (c : FaultCode) (s : State) : (halt c s).regs.faultCode = if s.regs.faultCode = 0x00#8 then c.code else s.regs.faultCode := rfl
@[simp] theorem halt_lastR1 (c : FaultCode) (s : State) : (halt c s).regs.lastR1 = s.regs.lastR1 := rfl
@[simp] theorem halt_chunkLen (c : FaultCode) (s : State) : (halt c s).regs.chunkLen = s.regs.chunkLen := rfl
@[simp] theorem halt_iterCur (c : FaultCode) (s : State) : (halt c s).regs.iterCur = s.regs.iterCur := rfl
@[simp] theorem halt_iterEnd (c : FaultCode) (s : State) : (halt c s).regs.iterEnd = s.regs.iterEnd := rfl
@[simp] theorem halt_buf (c : FaultCode) (s : State) : (halt c s).buf = s.buf := rfl
@[simp] theorem halt_lines (c : FaultCode) (s : State) : (halt c s).lines = s.lines := rfl
@[simp] theorem halt_op (c : FaultCode) (s : State) : (halt c s).ctl.op = s.ctl.op := rfl
@[simp] theorem halt_seq (c : FaultCode) (s : State) : (halt c s).ctl.seq = teardown s := rfl
@[simp] theorem halt_poll (c : FaultCode) (s : State) : (halt c s).ctl.poll = s.ctl.poll := rfl
@[simp] theorem halt_first41 (c : FaultCode) (s : State) : (halt c s).ctl.first41 = s.ctl.first41 := rfl
@[simp] theorem halt_tearing (c : FaultCode) (s : State) : (halt c s).ctl.tearing = true := rfl
@[simp] theorem halt_shutErr (c : FaultCode) (s : State) : (halt c s).ctl.shutErr = s.ctl.shutErr := rfl
@[simp] theorem halt_env (c : FaultCode) (s : State) : (halt c s).env = s.env := rfl
@[simp] theorem halt_obs (c : FaultCode) (s : State) : (halt c s).obs = s.obs := rfl

@[simp] theorem finishHalt_cfg (s : State) : (finishHalt s).cfg = s.cfg := rfl
@[simp] theorem finishHalt_arg (s : State) : (finishHalt s).regs.arg = s.regs.arg := rfl
@[simp] theorem finishHalt_len (s : State) : (finishHalt s).regs.len = s.regs.len := rfl
@[simp] theorem finishHalt_running (s : State) : (finishHalt s).regs.running = false := rfl
@[simp] theorem finishHalt_halted (s : State) : (finishHalt s).regs.halted = true := rfl
@[simp] theorem finishHalt_sdReady (s : State) : (finishHalt s).regs.sdReady = s.regs.sdReady := rfl
@[simp] theorem finishHalt_owner (s : State) : (finishHalt s).regs.owner = s.regs.owner := rfl
@[simp] theorem finishHalt_iterActive (s : State) : (finishHalt s).regs.iterActive = s.regs.iterActive := rfl
@[simp] theorem finishHalt_iterEnded (s : State) : (finishHalt s).regs.iterEnded = s.regs.iterEnded := rfl
@[simp] theorem finishHalt_dispReady (s : State) : (finishHalt s).regs.dispReady = s.regs.dispReady := rfl
@[simp] theorem finishHalt_ovr (s : State) : (finishHalt s).regs.ovr = s.regs.ovr := rfl
@[simp] theorem finishHalt_faultCode (s : State) : (finishHalt s).regs.faultCode = s.regs.faultCode := rfl
@[simp] theorem finishHalt_lastR1 (s : State) : (finishHalt s).regs.lastR1 = s.regs.lastR1 := rfl
@[simp] theorem finishHalt_chunkLen (s : State) : (finishHalt s).regs.chunkLen = s.regs.chunkLen := rfl
@[simp] theorem finishHalt_iterCur (s : State) : (finishHalt s).regs.iterCur = s.regs.iterCur := rfl
@[simp] theorem finishHalt_iterEnd (s : State) : (finishHalt s).regs.iterEnd = s.regs.iterEnd := rfl
@[simp] theorem finishHalt_buf (s : State) : (finishHalt s).buf = s.buf := rfl
@[simp] theorem finishHalt_lines (s : State) : (finishHalt s).lines = s.lines := rfl
@[simp] theorem finishHalt_op (s : State) : (finishHalt s).ctl.op = s.ctl.op := rfl
@[simp] theorem finishHalt_seq (s : State) : (finishHalt s).ctl.seq = [] := rfl
@[simp] theorem finishHalt_poll (s : State) : (finishHalt s).ctl.poll = .idle := rfl
@[simp] theorem finishHalt_first41 (s : State) : (finishHalt s).ctl.first41 = s.ctl.first41 := rfl
@[simp] theorem finishHalt_tearing (s : State) : (finishHalt s).ctl.tearing = false := rfl
@[simp] theorem finishHalt_shutErr (s : State) : (finishHalt s).ctl.shutErr = s.ctl.shutErr := rfl
@[simp] theorem finishHalt_env (s : State) : (finishHalt s).env = s.env := rfl
@[simp] theorem finishHalt_obs (s : State) : (finishHalt s).obs = s.obs := rfl

@[simp] theorem complete_cfg (s : State) : (complete s).cfg = s.cfg := rfl
@[simp] theorem complete_arg (s : State) : (complete s).regs.arg = s.regs.arg := rfl
@[simp] theorem complete_len (s : State) : (complete s).regs.len = s.regs.len := rfl
@[simp] theorem complete_running (s : State) : (complete s).regs.running = false := rfl
@[simp] theorem complete_halted (s : State) : (complete s).regs.halted = s.regs.halted := rfl
@[simp] theorem complete_sdReady (s : State) : (complete s).regs.sdReady = s.regs.sdReady := rfl
@[simp] theorem complete_owner (s : State) : (complete s).regs.owner = s.regs.owner := rfl
@[simp] theorem complete_iterActive (s : State) : (complete s).regs.iterActive = s.regs.iterActive := rfl
@[simp] theorem complete_iterEnded (s : State) : (complete s).regs.iterEnded = s.regs.iterEnded := rfl
@[simp] theorem complete_dispReady (s : State) : (complete s).regs.dispReady = s.regs.dispReady := rfl
@[simp] theorem complete_ovr (s : State) : (complete s).regs.ovr = s.regs.ovr := rfl
@[simp] theorem complete_faultCode (s : State) : (complete s).regs.faultCode = s.regs.faultCode := rfl
@[simp] theorem complete_lastR1 (s : State) : (complete s).regs.lastR1 = s.regs.lastR1 := rfl
@[simp] theorem complete_chunkLen (s : State) : (complete s).regs.chunkLen = s.regs.chunkLen := rfl
@[simp] theorem complete_iterCur (s : State) : (complete s).regs.iterCur = s.regs.iterCur := rfl
@[simp] theorem complete_iterEnd (s : State) : (complete s).regs.iterEnd = s.regs.iterEnd := rfl
@[simp] theorem complete_buf (s : State) : (complete s).buf = s.buf := rfl
@[simp] theorem complete_lines (s : State) : (complete s).lines = s.lines := rfl
@[simp] theorem complete_op (s : State) : (complete s).ctl.op = s.ctl.op := rfl
@[simp] theorem complete_seq (s : State) : (complete s).ctl.seq = [] := rfl
@[simp] theorem complete_poll (s : State) : (complete s).ctl.poll = s.ctl.poll := rfl
@[simp] theorem complete_first41 (s : State) : (complete s).ctl.first41 = s.ctl.first41 := rfl
@[simp] theorem complete_tearing (s : State) : (complete s).ctl.tearing = s.ctl.tearing := rfl
@[simp] theorem complete_shutErr (s : State) : (complete s).ctl.shutErr = s.ctl.shutErr := rfl
@[simp] theorem complete_env (s : State) : (complete s).env = s.env := rfl
@[simp] theorem complete_obs (s : State) : (complete s).obs = s.obs := rfl

@[simp] theorem resetEngine_cfg (s : State) : (resetEngine s).cfg = s.cfg := rfl
@[simp] theorem resetEngine_regs (s : State) : (resetEngine s).regs = Regs.reset := rfl
@[simp] theorem resetEngine_buf (s : State) : (resetEngine s).buf = [] := rfl
@[simp] theorem resetEngine_lines (s : State) : (resetEngine s).lines = Lines.reset s.cfg := rfl
@[simp] theorem resetEngine_ctl (s : State) : (resetEngine s).ctl = Ctl.reset := rfl
@[simp] theorem resetEngine_env (s : State) : (resetEngine s).env = s.env := rfl
@[simp] theorem resetEngine_obs (s : State) : (resetEngine s).obs = s.obs := rfl

/-! The chunk sequencer's register writes. -/

@[simp] theorem clearIter_cfg (s : State) : (clearIter s).cfg = s.cfg := rfl
@[simp] theorem clearIter_arg (s : State) : (clearIter s).regs.arg = s.regs.arg := rfl
@[simp] theorem clearIter_len (s : State) : (clearIter s).regs.len = s.regs.len := rfl
@[simp] theorem clearIter_running (s : State) : (clearIter s).regs.running = s.regs.running := rfl
@[simp] theorem clearIter_halted (s : State) : (clearIter s).regs.halted = s.regs.halted := rfl
@[simp] theorem clearIter_sdReady (s : State) : (clearIter s).regs.sdReady = s.regs.sdReady := rfl
@[simp] theorem clearIter_owner (s : State) : (clearIter s).regs.owner = s.regs.owner := rfl
@[simp] theorem clearIter_iterActive (s : State) : (clearIter s).regs.iterActive = false := rfl
@[simp] theorem clearIter_iterEnded (s : State) : (clearIter s).regs.iterEnded = false := rfl
@[simp] theorem clearIter_dispReady (s : State) : (clearIter s).regs.dispReady = s.regs.dispReady := rfl
@[simp] theorem clearIter_ovr (s : State) : (clearIter s).regs.ovr = s.regs.ovr := rfl
@[simp] theorem clearIter_faultCode (s : State) : (clearIter s).regs.faultCode = s.regs.faultCode := rfl
@[simp] theorem clearIter_lastR1 (s : State) : (clearIter s).regs.lastR1 = s.regs.lastR1 := rfl
@[simp] theorem clearIter_chunkLen (s : State) : (clearIter s).regs.chunkLen = 0#10 := rfl
@[simp] theorem clearIter_iterCur (s : State) : (clearIter s).regs.iterCur = s.regs.iterCur := rfl
@[simp] theorem clearIter_iterEnd (s : State) : (clearIter s).regs.iterEnd = s.regs.iterEnd := rfl
@[simp] theorem clearIter_buf (s : State) : (clearIter s).buf = s.buf := rfl
@[simp] theorem clearIter_lines (s : State) : (clearIter s).lines = s.lines := rfl
@[simp] theorem clearIter_ctl (s : State) : (clearIter s).ctl = s.ctl := rfl
@[simp] theorem clearIter_env (s : State) : (clearIter s).env = s.env := rfl
@[simp] theorem clearIter_obs (s : State) : (clearIter s).obs = s.obs := rfl

end Sys2Proof.Machine
end

