-- ==== Sys2Proof/Laws/Memory.lean ====
section
/-! SUPPORT. BUF's laws: a read after a write, and the canonical form. -/

namespace Sys2Proof.Machine

theorem Memory.read_write_same (m : Memory) (i : Nat) (v : Byte) : (m.write i v).read i = some v := by
  induction m with
  | nil => simp [Memory.write, Memory.read]
  | cons c m ih =>
    obtain ⟨a, b⟩ := c
    simp only [Memory.write]
    split
    · simp [Memory.read]
    · split
      · simp [Memory.read]
      · rename_i h
        simp [Memory.read, h, ih]

theorem Memory.read_write_ne (m : Memory) {i j : Nat} (v : Byte) (h : j ≠ i) : (m.write i v).read j = m.read j := by
  induction m with
  | nil => simp [Memory.write, Memory.read, h]
  | cons c m ih =>
    obtain ⟨a, b⟩ := c
    simp only [Memory.write]
    split
    · simp [Memory.read, h]
    · split
      · rename_i hia
        subst hia
        simp [Memory.read, h]
      · simp [Memory.read, ih]

theorem Memory.wfFrom_mono {lo lo' : Nat} (h : lo' ≤ lo) {m : Memory} (hm : Memory.wfFrom lo m = true) :
    Memory.wfFrom lo' m = true := by
  cases m with
  | nil => rfl
  | cons c m =>
    obtain ⟨a, b⟩ := c
    simp only [Memory.wfFrom, Bool.and_eq_true, decide_eq_true_eq] at hm ⊢
    exact ⟨⟨by omega, hm.1.2⟩, hm.2⟩

theorem Memory.wfFrom_write {lo i : Nat} (hlo : lo ≤ i) (hi : i < bufSize) (v : Byte) {m : Memory}
    (hm : Memory.wfFrom lo m = true) : Memory.wfFrom lo (m.write i v) = true := by
  induction m generalizing lo with
  | nil => simp [Memory.write, Memory.wfFrom, hlo, hi]
  | cons c m ih =>
    obtain ⟨a, b⟩ := c
    simp only [Memory.wfFrom, Bool.and_eq_true, decide_eq_true_eq] at hm
    simp only [Memory.write]
    split
    · simp only [Memory.wfFrom, Bool.and_eq_true, decide_eq_true_eq]
      exact ⟨⟨hlo, hi⟩, ⟨by omega, hm.1.2⟩, hm.2⟩
    · split
      · rename_i hia
        subst hia
        simp only [Memory.wfFrom, Bool.and_eq_true, decide_eq_true_eq]
        exact ⟨⟨hlo, hi⟩, hm.2⟩
      · simp only [Memory.wfFrom, Bool.and_eq_true, decide_eq_true_eq]
        exact ⟨hm.1, ih (by omega) hm.2⟩

/-- A write keeps BUF's canonical form. -/
theorem Memory.wf_write {m : Memory} (hm : m.wf = true) {i : Nat} (hi : i < bufSize) (v : Byte) :
    (m.write i v).wf = true :=
  Memory.wfFrom_write (Nat.zero_le i) hi v hm

/-- A host write of a BUF word keeps the canonical form. -/
theorem writeBufWord_wf {s : State} (hs : s.buf.wf = true) {k : Nat} (hk : k < 128) (v : Word) :
    (writeBufWord k v s).buf.wf = true := by
  simp only [writeBufWord, bufWrite_buf]
  refine Memory.wf_write (Memory.wf_write (Memory.wf_write (Memory.wf_write hs ?_ _) ?_ _) ?_ _) ?_ _ <;>
    simp only [bufSize] <;> omega

/-- Reading a byte leaves BUF and every register as they were; only the draw counter may move. -/
theorem bufRead_spec (i : Nat) (s : State) :
    (bufRead i s).2 = s ∨ (bufRead i s).2 = { s with env.draws := s.env.draws + 1 } := by
  simp only [bufRead]
  split
  · exact .inl rfl
  · exact .inr rfl

/-- A byte that has been written is read as it is stored. -/
theorem bufRead_of_some {i : Nat} {s : State} {b : Byte} (h : s.buf.read i = some b) : bufRead i s = (b, s) := by
  simp [bufRead, h]

/-- Storing bytes from index i up leaves every other index as it was. -/
theorem storeBytes_read_outside (m : Memory) (i : Nat) (bs : List Byte) (j : Nat) (h : j < i ∨ i + bs.length ≤ j) :
    (storeBytes m i bs).read j = m.read j := by
  induction bs generalizing m i with
  | nil => rfl
  | cons b bs ih =>
    simp only [List.length_cons] at h
    rw [storeBytes, ih _ _ (by omega), Memory.read_write_ne _ _ (by omega)]

/-- Storing bytes from index i up stores the k-th at i + k. -/
theorem storeBytes_read (m : Memory) (i : Nat) (bs : List Byte) (k : Nat) (h : k < bs.length) :
    (storeBytes m i bs).read (i + k) = some (bs[k]) := by
  induction bs generalizing m i k with
  | nil => simp at h
  | cons b bs ih =>
    cases k with
    | zero =>
      rw [storeBytes, storeBytes_read_outside _ _ _ _ (by omega), Nat.add_zero, Memory.read_write_same]
      rfl
    | succ k =>
      have := ih (m.write i b) (i + 1) k (by simpa using h)
      rw [storeBytes, show i + (k + 1) = i + 1 + k by omega, this]
      rfl

/-- Storing bytes below index 512 keeps the canonical form. -/
theorem storeBytes_wf {m : Memory} (hm : m.wf = true) (i : Nat) (bs : List Byte) (h : i + bs.length ≤ bufSize) :
    (storeBytes m i bs).wf = true := by
  induction bs generalizing m i with
  | nil => exact hm
  | cons b bs ih =>
    simp only [List.length_cons] at h
    exact ih (Memory.wf_write hm (by omega) b) (i + 1) (by omega)

theorem unwritten_succ (m : Memory) (i n : Nat) :
    unwritten m i (n + 1) = (if (m.read i).isNone then 1 else 0) + unwritten m (i + 1) n := by
  simp [unwritten, List.range'_succ, List.countP_cons, Nat.add_comm]

theorem reset_buf_wf : State.reset.buf.wf = true := by decide

end Sys2Proof.Machine
end

