-- ==== Sys2Proof/Laws/Ops.lean ====
section
/-! SUPPORT. One lemma per shared operation: everything it can do. -/

namespace Sys2Proof.Machine

/-! Draws. -/

theorem drawCard_cons {r : Option Byte} {q : List (Option Byte)} {s : State} (h : s.env.cardIn = r :: q) :
    drawCard s = (r, { s with env.cardIn := q }) := by simp [drawCard, h]

theorem drawPanel_cons {r : Bool} {q : List Bool} {s : State} (h : s.env.panelIn = r :: q) :
    drawPanel s = (r, { s with env.panelIn := q }) := by simp [drawPanel, h]

theorem drawBusy_cons {v : Config.BusySample} {q : List Config.BusySample} {s : State} (h : s.env.busyIn = v :: q) :
    drawBusy s = (v, { s with env.busyIn := q }) := by simp [drawBusy, h]

/-- A card draw changes the environment only, and no turn of the schedule. -/
theorem drawCard_spec (s : State) : ∃ e : Env, e.sched = s.env.sched ∧ (drawCard s).2 = { s with env := e } := by
  simp only [drawCard]
  split
  · rename_i q _
    exact ⟨{ s.env with cardIn := q }, rfl, rfl⟩
  · exact ⟨{ s.env with draws := s.env.draws + 1 }, rfl, rfl⟩

/-- A panel draw changes the environment only, and no turn of the schedule. -/
theorem drawPanel_spec (s : State) : ∃ e : Env, e.sched = s.env.sched ∧ (drawPanel s).2 = { s with env := e } := by
  simp only [drawPanel]
  split
  · rename_i q _
    exact ⟨{ s.env with panelIn := q }, rfl, rfl⟩
  · exact ⟨{ s.env with draws := s.env.draws + 1 }, rfl, rfl⟩

/-- A BUSY draw changes the environment only, and no turn of the schedule. -/
theorem drawBusy_spec (s : State) : ∃ e : Env, e.sched = s.env.sched ∧ (drawBusy s).2 = { s with env := e } := by
  simp only [drawBusy]
  split
  · rename_i q _
    exact ⟨{ s.env with busyIn := q }, rfl, rfl⟩
  · exact ⟨{ s.env with draws := s.env.draws + 1 }, rfl, rfl⟩

/-- A BUF read changes the environment only, and no turn of the schedule. -/
theorem bufRead_env (i : Nat) (s : State) :
    ∃ e : Env, e.sched = s.env.sched ∧ (bufRead i s).2 = { s with env := e } := by
  rcases bufRead_spec i s with h | h
  · exact ⟨s.env, rfl, h⟩
  · exact ⟨{ s.env with draws := s.env.draws + 1 }, rfl, h⟩

/-! Faults. -/

theorem FaultCode.code_ne_zero (c : FaultCode) : c.code ≠ 0x00#8 := by cases c <;> decide

theorem catchPoint_head {q p : List Micro} (h : catchPoint q = some p) : ∃ r, p = .shutEnd :: r := by
  induction q with
  | nil => simp [catchPoint] at h
  | cons m q ih =>
    cases m <;> simp only [catchPoint, Option.some.injEq] at h <;> first | exact ih h | exact ⟨q, h.symm⟩

theorem catchPoint_suffix {q p : List Micro} (h : catchPoint q = some p) : p <:+ q := by
  induction q with
  | nil => simp [catchPoint] at h
  | cons m q ih =>
    cases m <;> simp only [catchPoint, Option.some.injEq] at h <;>
      first | exact (ih h).trans (List.suffix_cons _ _) | exact h ▸ List.suffix_refl _

/-- A raised fault either is caught at the return point of `Shutdown()`, or halts. -/
theorem raise_cases (c : FaultCode) (s : State) :
    (∃ q, catchPoint s.ctl.seq = some (.shutEnd :: q) ∧
      raise c s = { s with ctl.seq := .shutEnd :: q, ctl.shutErr := some c, ctl.poll.bsy := none }) ∨
    (catchPoint s.ctl.seq = none ∧ raise c s = halt c s) := by
  simp only [raise]
  split
  · rename_i q h
    obtain ⟨r, rfl⟩ := catchPoint_head h
    exact .inl ⟨r, h, rfl⟩
  · rename_i h
    exact .inr ⟨h, rfl⟩

@[simp] theorem raise_cfg (c : FaultCode) (s : State) : (raise c s).cfg = s.cfg := by
  rcases raise_cases c s with ⟨q, _, h⟩ | ⟨_, h⟩ <;> simp [h]

@[simp] theorem raise_buf (c : FaultCode) (s : State) : (raise c s).buf = s.buf := by
  rcases raise_cases c s with ⟨q, _, h⟩ | ⟨_, h⟩ <;> simp [h]

@[simp] theorem raise_lines (c : FaultCode) (s : State) : (raise c s).lines = s.lines := by
  rcases raise_cases c s with ⟨q, _, h⟩ | ⟨_, h⟩ <;> simp [h]

@[simp] theorem raise_env (c : FaultCode) (s : State) : (raise c s).env = s.env := by
  rcases raise_cases c s with ⟨q, _, h⟩ | ⟨_, h⟩ <;> simp [h]

@[simp] theorem raise_obs (c : FaultCode) (s : State) : (raise c s).obs = s.obs := by
  rcases raise_cases c s with ⟨q, _, h⟩ | ⟨_, h⟩ <;> simp [h]

/-- A raised fault changes no register but FAULT_CODE. -/
theorem raise_regs (c : FaultCode) (s : State) :
    (raise c s).regs = s.regs ∨
    (raise c s).regs = { s.regs with faultCode := if s.regs.faultCode = 0x00#8 then c.code else s.regs.faultCode } := by
  rcases raise_cases c s with ⟨q, _, h⟩ | ⟨_, h⟩
  · exact .inl (by simp [h])
  · exact .inr (by simp [h, halt])

/-! Transport. -/

/-- One byte written: taken, and the rest goes on, or the fatal fault of its port (R127). -/
theorem spiByte_cases (p : Port) (b : Byte) (k : State → State) (s : State) :
    (p = .S ∧ ∃ e : Env, e.sched = s.env.sched ∧ spiByte p b k s = k (emitS (.write b true) { s with env := e })) ∨
    (p = .D ∧ ∃ e : Env, e.sched = s.env.sched ∧ spiByte p b k s = k (emitD (.write b true) { s with env := e })) ∨
    (p = .S ∧ ∃ e : Env, e.sched = s.env.sched ∧
      spiByte p b k s = raise .storageBus (emitS (.write b false) { s with env := e })) ∨
    (p = .D ∧ ∃ e : Env, e.sched = s.env.sched ∧
      spiByte p b k s = raise .displayBus (emitD (.write b false) { s with env := e })) := by
  cases p with
  | S =>
    obtain ⟨e, he, h⟩ := drawCard_spec s
    simp only [spiByte]
    split
    · rename_i b' s' hd
      rw [hd] at h
      exact .inl ⟨trivial, e, he, by rw [← h]⟩
    · rename_i s' hd
      rw [hd] at h
      exact .inr (.inr (.inl ⟨trivial, e, he, by rw [← h]⟩))
  | D =>
    obtain ⟨e, he, h⟩ := drawPanel_spec s
    simp only [spiByte]
    split
    · rename_i s' hd
      rw [hd] at h
      exact .inr (.inl ⟨trivial, e, he, by rw [← h]⟩)
    · rename_i s' hd
      rw [hd] at h
      exact .inr (.inr (.inr ⟨trivial, e, he, by rw [← h]⟩))

/-- One byte transferred: some in-byte comes, and the rest goes on with it, or F_STORAGE_BUS is raised (R128). -/
theorem spiXfer_cases (o : Byte) (k : Byte → State → Result) (s : State) :
    ∃ e : Env, e.sched = s.env.sched ∧
      ((∃ i, spiXfer o k s = k i (emitS (.xfer o (some i)) { s with env := e })) ∨
        spiXfer o k s = .next (raise .storageBus (emitS (.xfer o none) { s with env := e }))) := by
  obtain ⟨e, he, h⟩ := drawCard_spec s
  refine ⟨e, he, ?_⟩
  simp only [spiXfer]
  split
  · rename_i i s' hd
    rw [hd] at h
    exact .inl ⟨i, by rw [← h]⟩
  · rename_i s' hd
    rw [hd] at h
    exact .inr (by rw [← h])

/-- An iteration of a loop goes on with its counter raised, or raises F_UNRESPONSIVE (R133). -/
theorem poll_cases (l : Loop) (k : State → Result) (s : State) :
    ∃ n, n = (pollCount l s).getD 0 + 1 ∧
      (poll l k s = k (setPoll l (some n) s) ∨
        (aboveLimit s.cfg.pollLimit n = true ∧ poll l k s = .next (raise .unresponsive (setPoll l (some n) s)))) := by
  refine ⟨_, rfl, ?_⟩
  simp only [poll]
  split
  · rename_i h
    exact .inr ⟨h, rfl⟩
  · exact .inl rfl

/-- Without a bound an iteration always goes on (R133). -/
theorem poll_unbounded (l : Loop) (k : State → Result) {s : State} (h : s.cfg.pollLimit = none) :
    poll l k s = k (setPoll l (some ((pollCount l s).getD 0 + 1)) s) := by
  simp [poll, h, aboveLimit]

/-! Issue. -/

/-- A write to CMD is ignored, dropped or accepted (R120 to R122). -/
theorem accept_cases (opc : Byte) (p : Bool) (k : State → State) (s : State) :
    (s.regs.halted = true ∧ accept opc p k s = s) ∨
    (s.regs.halted = false ∧ s.regs.running = true ∧ accept opc p k s = { s with regs.ovr := true }) ∨
    (s.regs.halted = false ∧ s.regs.running = false ∧
      accept opc p k s = k { s with regs.running := true, ctl.op := some (opc, p) }) := by
  simp only [accept]
  split
  · rename_i h
    exact .inl ⟨h, rfl⟩
  · rename_i h
    split
    · rename_i h'
      exact .inr (.inl ⟨by simpa using h, h', rfl⟩)
    · rename_i h'
      exact .inr (.inr ⟨by simpa using h, by simpa using h', rfl⟩)

/-- An issue is ignored, dropped, halted with E_SEQUENCE or E_OPERAND, or runs its micro-steps (R120, R274). -/
theorem issue_cases (opc : Byte) (p pre operands : Bool) (prog : List Micro) (s : State) :
    (s.regs.halted = true ∧ issue opc p pre operands prog s = s) ∨
    (s.regs.halted = false ∧ s.regs.running = true ∧ issue opc p pre operands prog s = { s with regs.ovr := true }) ∨
    (Idle s ∧ pre = false ∧
      issue opc p pre operands prog s = halt .sequence { s with regs.running := true, ctl.op := some (opc, p) }) ∨
    (Idle s ∧ pre = true ∧ operands = false ∧
      issue opc p pre operands prog s = halt .operand { s with regs.running := true, ctl.op := some (opc, p) }) ∨
    (Idle s ∧ pre = true ∧ operands = true ∧
      issue opc p pre operands prog s = setSeq prog { s with regs.running := true, ctl.op := some (opc, p) }) := by
  rcases accept_cases opc p
    (fun s' => if pre = false then halt .sequence s' else if operands = false then halt .operand s' else setSeq prog s') s
    with ⟨h, e⟩ | ⟨h, h', e⟩ | ⟨h, h', e⟩
  · exact .inl ⟨h, e⟩
  · exact .inr (.inl ⟨h, h', e⟩)
  · refine .inr (.inr ?_)
    simp only [issue, e]
    cases pre <;> cases operands <;> simp [Idle, h, h']

/-- An accepted issue runs its micro-steps. -/
theorem issue_accepted {s : State} (h : Idle s) (opc : Byte) (p : Bool) (prog : List Micro) :
    issue opc p true true prog s = setSeq prog { s with regs.running := true, ctl.op := some (opc, p) } := by
  simp [issue, accept, h.1, h.2]

/-- A host access is refused, faults, or is made (20_memory.md R73). -/
theorem hostAccess_cases (offset size : Nat) (k : State → Result) (s : State) :
    ((size ≠ 4 ∨ offset % 4 ≠ 0) ∧ hostAccess offset size k s = .refused (.hostAccessNotAWord offset size)) ∨
    (size = 4 ∧ offset % 4 = 0 ∧ 0x400 ≤ offset ∧ hostAccess offset size k s = .fault (.hostOffsetOutsideSpace offset)) ∨
    (size = 4 ∧ offset % 4 = 0 ∧ offset < 0x400 ∧ hostAccess offset size k s = k s) := by
  simp only [hostAccess]
  split
  · rename_i h
    exact .inl ⟨h, rfl⟩
  · rename_i h
    simp only [not_or, not_not] at h
    split
    · rename_i h'
      exact .inr (.inl ⟨h.1, h.2, h', rfl⟩)
    · rename_i h'
      exact .inr (.inr ⟨h.1, h.2, by omega, rfl⟩)

/-! The engine's turn. -/

theorem engineStep_idle {s : State} (h : s.regs.running = false) : engineStep s = .next s := by
  simp [engineStep, h]

theorem engineStep_complete {s : State} (h : s.regs.running = true) (hq : s.ctl.seq = []) :
    engineStep s = .next (complete s) := by simp [engineStep, h, hq]

theorem engineStep_micro {s : State} {m : Micro} {q : List Micro} (h : s.regs.running = true) (hq : s.ctl.seq = m :: q) :
    engineStep s = microStep m (setSeq q s) := by simp [engineStep, h, hq]

theorem step_undisturbed {s : State} (h : Undisturbed s) : step s = engineStep s := by
  have h' : s.env.sched = [] := h
  simp [step, takeTurn, h']

end Sys2Proof.Machine
end

