-- ==== Sys2Proof/Laws/PerInstr.lean ====
section
/-! SUPPORT. A statement made of each instruction: its encoding lies in its row of spec/opcode_table.json. -/

namespace Sys2Proof.Laws.TableRow

/-- A row of the opcode table: the format's width, the bits it fixes and their mask. -/
structure Row where
  width : Nat
  fixed : Nat
  mask : Nat
  deriving DecidableEq, Repr

/-- The row of each instruction, as the table writes it. -/
def row : Instr → Row
  | .sdInit => ⟨32, 0x00000001, 0xFFFFFFFF⟩
  | .sdReadSector => ⟨32, 0x00000002, 0xFFFFFFFF⟩
  | .sdReadStart => ⟨32, 0x00000003, 0xFFFFFFFF⟩
  | .sdReadNext => ⟨32, 0x00000004, 0xFFFFFFFF⟩
  | .sdReadEnd => ⟨32, 0x00000005, 0xFFFFFFFF⟩
  | .iterStart _ => ⟨32, 0x00000010, 0xFFFFFEFF⟩
  | .iterPull => ⟨32, 0x00000011, 0xFFFFFFFF⟩
  | .iterDrop => ⟨32, 0x00000012, 0xFFFFFFFF⟩
  | .dispInit => ⟨32, 0x00000020, 0xFFFFFFFF⟩
  | .dispCmd => ⟨32, 0x00000021, 0xFFFFFFFF⟩
  | .dispData => ⟨32, 0x00000022, 0xFFFFFFFF⟩
  | .dispWaitIdle => ⟨32, 0x00000023, 0xFFFFFFFF⟩
  | .dispRefresh => ⟨32, 0x00000024, 0xFFFFFFFF⟩
  | .dispShutdown => ⟨32, 0x00000025, 0xFFFFFFFF⟩
  | .cmd0 _ _ => ⟨48, 0x400000000000, 0xFF0000000000⟩
  | .cmd8 _ _ => ⟨48, 0x480000000000, 0xFF0000000000⟩
  | .cmd55 _ _ => ⟨48, 0x770000000000, 0xFF0000000000⟩
  | .cmd41 _ _ => ⟨48, 0x690000000000, 0xFF0000000000⟩
  | .cmd17 _ _ => ⟨48, 0x510000000000, 0xFF0000000000⟩
  | .cmd18 _ _ => ⟨48, 0x520000000000, 0xFF0000000000⟩
  | .cmd12 _ _ => ⟨48, 0x4C0000000000, 0xFF0000000000⟩
  | .startToken => ⟨8, 0xFE, 0xFF⟩
  | .r1 _ => ⟨8, 0x00, 0x00⟩
  | .dPsr => ⟨8, 0x00, 0xFF⟩
  | .dPwr => ⟨8, 0x01, 0xFF⟩
  | .dPof => ⟨8, 0x02, 0xFF⟩
  | .dPon => ⟨8, 0x04, 0xFF⟩
  | .dDslp => ⟨8, 0x07, 0xFF⟩
  | .dDtm1 => ⟨8, 0x10, 0xFF⟩
  | .dDrf => ⟨8, 0x12, 0xFF⟩
  | .dDtm2 => ⟨8, 0x13, 0xFF⟩
  | .dDuspi => ⟨8, 0x15, 0xFF⟩
  | .dCdi => ⟨8, 0x50, 0xFF⟩
  | .dTcon => ⟨8, 0x60, 0xFF⟩
  | .dTres => ⟨8, 0x61, 0xFF⟩
  | .dFlg => ⟨8, 0x71, 0xFF⟩

/-- Bits lie in a row: they have its width, and under its mask they are its fixed bits. -/
def Row.Admits (r : Row) : Wire → Prop
  | .op w => r.width = 32 ∧ w &&& BitVec.ofNat 32 r.mask = BitVec.ofNat 32 r.fixed
  | .frame w => r.width = 48 ∧ w &&& BitVec.ofNat 48 r.mask = BitVec.ofNat 48 r.fixed
  | .r1 b => r.width = 8 ∧ b &&& BitVec.ofNat 8 r.mask = BitVec.ofNat 8 r.fixed
  | .token b => r.width = 8 ∧ b &&& BitVec.ofNat 8 r.mask = BitVec.ofNat 8 r.fixed
  | .disp b => r.width = 8 ∧ b &&& BitVec.ofNat 8 r.mask = BitVec.ofNat 8 r.fixed

/-- The instruction's encoding lies in its row. -/
def Statement (i : Instr) : Prop := (row i).Admits (encode i)

theorem sdInit : Statement .sdInit := ⟨rfl, rfl⟩
theorem sdReadSector : Statement .sdReadSector := ⟨rfl, rfl⟩
theorem sdReadStart : Statement .sdReadStart := ⟨rfl, rfl⟩
theorem sdReadNext : Statement .sdReadNext := ⟨rfl, rfl⟩
theorem sdReadEnd : Statement .sdReadEnd := ⟨rfl, rfl⟩
theorem iterStart (p : Bool) : Statement (.iterStart p) := by cases p <;> exact ⟨rfl, rfl⟩
theorem iterPull : Statement .iterPull := ⟨rfl, rfl⟩
theorem iterDrop : Statement .iterDrop := ⟨rfl, rfl⟩
theorem dispInit : Statement .dispInit := ⟨rfl, rfl⟩
theorem dispCmd : Statement .dispCmd := ⟨rfl, rfl⟩
theorem dispData : Statement .dispData := ⟨rfl, rfl⟩
theorem dispWaitIdle : Statement .dispWaitIdle := ⟨rfl, rfl⟩
theorem dispRefresh : Statement .dispRefresh := ⟨rfl, rfl⟩
theorem dispShutdown : Statement .dispShutdown := ⟨rfl, rfl⟩

/-- A frame under the mask of its first byte is that byte: 01 and the index. -/
theorem frameWord_masked (idx : BitVec 6) (arg : Word) (chk : Byte) :
    frameWord idx arg chk &&& 0xFF0000000000#48 = frameWord idx 0#32 0#8 := by
  apply BitVec.eq_of_getLsbD_eq
  intro i hi
  have hmask : (0xFF0000000000#48).getLsbD i = decide (40 ≤ i) := by
    have : ∀ j : Fin 48, (0xFF0000000000#48).getLsbD j = decide (40 ≤ j.val) := by decide
    exact this ⟨i, hi⟩
  simp only [frameWord, BitVec.getLsbD_and, BitVec.getLsbD_append, hmask]
  by_cases h : 40 ≤ i
  · have : ¬ (i < 8) := by omega
    have : ¬ (i - 8 < 32) := by omega
    simp [*]
  · by_cases h8 : i < 8
    · simp [h, h8]
    · have : i - 8 < 32 := by omega
      simp [*]

theorem cmd0 (arg : Word) (chk : Byte) : Statement (.cmd0 arg chk) := ⟨rfl, (frameWord_masked _ _ _).trans (by simp [row, frameWord])⟩
theorem cmd8 (arg : Word) (chk : Byte) : Statement (.cmd8 arg chk) := ⟨rfl, (frameWord_masked _ _ _).trans (by simp [row, frameWord])⟩
theorem cmd55 (arg : Word) (chk : Byte) : Statement (.cmd55 arg chk) := ⟨rfl, (frameWord_masked _ _ _).trans (by simp [row, frameWord])⟩
theorem cmd41 (arg : Word) (chk : Byte) : Statement (.cmd41 arg chk) := ⟨rfl, (frameWord_masked _ _ _).trans (by simp [row, frameWord])⟩
theorem cmd17 (arg : Word) (chk : Byte) : Statement (.cmd17 arg chk) := ⟨rfl, (frameWord_masked _ _ _).trans (by simp [row, frameWord])⟩
theorem cmd18 (arg : Word) (chk : Byte) : Statement (.cmd18 arg chk) := ⟨rfl, (frameWord_masked _ _ _).trans (by simp [row, frameWord])⟩
theorem cmd12 (arg : Word) (chk : Byte) : Statement (.cmd12 arg chk) := ⟨rfl, (frameWord_masked _ _ _).trans (by simp [row, frameWord])⟩

theorem startToken : Statement .startToken := ⟨rfl, rfl⟩
theorem r1 (b : Byte) : Statement (.r1 b) := ⟨rfl, BitVec.and_zero⟩
theorem dPsr : Statement .dPsr := ⟨rfl, rfl⟩
theorem dPwr : Statement .dPwr := ⟨rfl, rfl⟩
theorem dPof : Statement .dPof := ⟨rfl, rfl⟩
theorem dPon : Statement .dPon := ⟨rfl, rfl⟩
theorem dDslp : Statement .dDslp := ⟨rfl, rfl⟩
theorem dDtm1 : Statement .dDtm1 := ⟨rfl, rfl⟩
theorem dDrf : Statement .dDrf := ⟨rfl, rfl⟩
theorem dDtm2 : Statement .dDtm2 := ⟨rfl, rfl⟩
theorem dDuspi : Statement .dDuspi := ⟨rfl, rfl⟩
theorem dCdi : Statement .dCdi := ⟨rfl, rfl⟩
theorem dTcon : Statement .dTcon := ⟨rfl, rfl⟩
theorem dTres : Statement .dTres := ⟨rfl, rfl⟩
theorem dFlg : Statement .dFlg := ⟨rfl, rfl⟩

end Sys2Proof.Laws.TableRow
end

