-- ==== Sys2Proof/Laws/Run.lean ====
section
/-! SUPPORT. Runs compose; and the runs of the transactions that every operation is made of. -/

namespace Sys2Proof.Machine

theorem Reaches.refl (s : State) : Reaches s s := ⟨0, rfl⟩

theorem Reaches.head {s t u : State} (h : step s = .next t) (r : Reaches t u) : Reaches s u := by
  obtain ⟨n, hn⟩ := r
  exact ⟨n + 1, by simpa only [runSteps, h] using hn⟩

theorem Reaches.single {s t : State} (h : step s = .next t) : Reaches s t := Reaches.head h (Reaches.refl t)

theorem runSteps_add (m n : Nat) {s t : State} (h : runSteps m s = .next t) : runSteps (m + n) s = runSteps n t := by
  induction m generalizing s with
  | zero =>
    simp only [runSteps, Host.Outcome.next.injEq] at h
    subst h
    simp
  | succ m ih =>
    rw [show m + 1 + n = (m + n) + 1 by omega]
    cases hs : step s with
    | next s' =>
      simp only [runSteps, hs] at h ⊢
      exact ih h
    | fault r => simp [runSteps, hs] at h
    | refused r => simp [runSteps, hs] at h

theorem Reaches.of_eq {s t : State} (h : s = t) : Reaches s t := h ▸ Reaches.refl s

theorem Reaches.trans {s t u : State} (h : Reaches s t) (h' : Reaches t u) : Reaches s u := by
  obtain ⟨m, hm⟩ := h
  obtain ⟨n, hn⟩ := h'
  exact ⟨m + n, (runSteps_add m n hm).trans hn⟩

/-- One micro-step of an undisturbed engine. -/
theorem Reaches.micro {s t u : State} {m : Micro} {q : List Micro} (hu : Undisturbed s) (hr : s.regs.running = true)
    (hq : s.ctl.seq = m :: q) (hm : microStep m (setSeq q s) = .next t) (h : Reaches t u) : Reaches s u :=
  Reaches.head (by rw [step_undisturbed hu, engineStep_micro hr hq, hm]) h

/-- The end of an operation. -/
theorem Reaches.done {s : State} (hu : Undisturbed s) (hr : s.regs.running = true) (hq : s.ctl.seq = []) :
    Reaches s (complete s) :=
  Reaches.single (by rw [step_undisturbed hu, engineStep_complete hr hq])

theorem aboveLimit_mono {l : Option Nat} {m n : Nat} (h : m ≤ n) (hn : aboveLimit l n = false) :
    aboveLimit l m = false := by
  cases l with
  | none => rfl
  | some k =>
    simp only [aboveLimit, decide_eq_false_iff_not, Nat.not_lt] at hn ⊢
    omega

theorem poll_within (l : Loop) (k : State → Result) {s : State}
    (h : aboveLimit s.cfg.pollLimit ((pollCount l s).getD 0 + 1) = false) :
    poll l k s = k (setPoll l (some ((pollCount l s).getD 0 + 1)) s) := by
  simp [poll, h]

/-! Port S. -/

/-- The bytes of a `SpiWrite(S, …)` that the card takes (40_transport.md R127). -/
theorem reaches_writeS {bs ws : List Byte} (hb : bs ≠ []) (hl : ws.length = bs.length) {s : State} {q : List Micro}
    {cs : List (Option Byte)} (hu : Undisturbed s) (hr : s.regs.running = true) (hq : s.ctl.seq = .spiWrite .S bs :: q)
    (hc : s.env.cardIn = ws.map some ++ cs) :
    Reaches s
      { s with
        ctl.seq := q
        env.cardIn := cs
        obs.portS := (bs.map (fun b => EventS.write b true)).reverse ++ s.obs.portS } := by
  induction bs generalizing ws s with
  | nil => exact absurd rfl hb
  | cons b bs ih =>
    cases ws with
    | nil => simp at hl
    | cons w ws =>
      simp only [List.length_cons, Nat.add_right_cancel_iff] at hl
      cases bs with
      | nil =>
        have hws : ws = [] := List.eq_nil_of_length_eq_zero (by simpa using hl)
        subst hws
        refine Reaches.micro hu hr hq ?_ (Reaches.refl _)
        simp [microStep, stepSpiWrite, spiByte, drawCard, setSeq, hc, emitS]
      | cons b' bs =>
        refine Reaches.micro hu hr hq (t := ?_) ?_ ?_
        · exact
            { s with
              ctl.seq := .spiWrite .S (b' :: bs) :: q
              env.cardIn := ws.map some ++ cs
              obs.portS := .write b true :: s.obs.portS }
        · simp [microStep, stepSpiWrite, spiByte, drawCard, setSeq, hc, emitS, push]
        · refine (ih (s :=
            { s with
              ctl.seq := .spiWrite .S (b' :: bs) :: q
              env.cardIn := ws.map some ++ cs
              obs.portS := .write b true :: s.obs.portS }) (by simp) hl hu hr rfl rfl).trans ?_
          exact Reaches.of_eq (by simp)

/-- An R1 poll that meets k fillers and then a response (41_storage.md R151). -/
theorem reaches_r1Poll {k n : Nat} {r : Byte} (hr1 : r ≠ 0xFF#8) {s : State} {q : List Micro} {cs : List (Option Byte)}
    (hu : Undisturbed s) (hr : s.regs.running = true) (hq : s.ctl.seq = .r1Poll :: q)
    (hc : s.env.cardIn = List.replicate k (some 0xFF#8) ++ some r :: cs) (hn : s.ctl.poll.r1 = some n)
    (hlim : aboveLimit s.cfg.pollLimit (n + k + 1) = false) :
    Reaches s
      { s with
        regs.lastR1 := r
        ctl.seq := q
        ctl.poll.r1 := none
        env.cardIn := cs
        obs.portS := .xfer s.cfg.fillRd (some r) :: (List.replicate k (.xfer s.cfg.fillRd (some 0xFF#8)) ++ s.obs.portS) } := by
  induction k generalizing n s with
  | zero =>
    refine Reaches.micro hu hr hq ?_ (Reaches.refl _)
    have hl' : aboveLimit s.cfg.pollLimit (n + 1) = false := aboveLimit_mono (by omega) hlim
    simp [microStep, pollToken, poll, pollCount, setSeq, hn, hl', spiXfer, drawCard, setPoll, hc, runToken, decode, hr1,
      exec, execR1, emitS]
  | succ k ih =>
    have hl' : aboveLimit s.cfg.pollLimit (n + 1) = false := aboveLimit_mono (by omega) hlim
    refine Reaches.micro hu hr hq (t := ?_) ?_ ?_
    · exact
        { s with
          ctl.seq := .r1Poll :: q
          ctl.poll.r1 := some (n + 1)
          env.cardIn := List.replicate k (some 0xFF#8) ++ some r :: cs
          obs.portS := .xfer s.cfg.fillRd (some 0xFF#8) :: s.obs.portS }
    · simp [microStep, pollToken, poll, pollCount, setSeq, hn, hl', spiXfer, drawCard, setPoll, hc, runToken, decode,
        pollAgain, push, emitS, List.replicate_succ]
    · refine (ih (n := n + 1) (s :=
        { s with
          ctl.seq := .r1Poll :: q
          ctl.poll.r1 := some (n + 1)
          env.cardIn := List.replicate k (some 0xFF#8) ++ some r :: cs
          obs.portS := .xfer s.cfg.fillRd (some 0xFF#8) :: s.obs.portS }) hu hr rfl rfl rfl ?_).trans ?_
      · simpa [show n + 1 + k + 1 = n + (k + 1) + 1 by omega] using hlim
      · have : List.replicate k (EventS.xfer s.cfg.fillRd (some 0xFF#8)) ++ .xfer s.cfg.fillRd (some 0xFF#8) :: s.obs.portS =
            List.replicate (k + 1) (EventS.xfer s.cfg.fillRd (some 0xFF#8)) ++ s.obs.portS := by
          simp [List.replicate_succ']
        exact Reaches.of_eq (by simp [this])

/-- A command transaction that the sequencer has just begun by `startFrame` (41_storage.md R150 to R152). -/
theorem reaches_transaction {w : BitVec 48} {ws : List Byte} (hw : ws.length = 6) {k : Nat} {r x : Byte}
    (hr1 : r ≠ 0xFF#8) {s : State} {cs : List (Option Byte)} (hu : Undisturbed s) (hr : s.regs.running = true)
    (hc : s.env.cardIn = txAnswers ws k r x ++ cs) (hlim : aboveLimit s.cfg.pollLimit (k + 1) = false) :
    Reaches (startFrame w s)
      { s with
        regs.lastR1 := r
        lines.csS := s.cfg.csActive.not
        ctl.poll.r1 := none
        env.cardIn := cs
        obs.portS := txEvents s.cfg.fillRd w k r ++ s.obs.portS } := by
  let s1 : State :=
    { s with
      lines.csS := s.cfg.csActive
      ctl.seq := [.enter .r1, .r1Poll, .deselect .S, .spiWrite .S [0xFF#8]] ++ s.ctl.seq
      env.cardIn := List.replicate k (some 0xFF#8) ++ some r :: some x :: cs
      obs.portS := ((frameBytes w).map (fun b => EventS.write b true)).reverse ++ .select :: s.obs.portS }
  have h1 : Reaches (startFrame w s) s1 :=
    reaches_writeS (bs := frameBytes w) (ws := ws) (by simp [frameBytes]) (by simpa [frameBytes] using hw)
      (s := startFrame w s) hu hr rfl (by simp [startFrame, hc, txAnswers])
  let s2 : State := { s1 with ctl.seq := [.r1Poll, .deselect .S, .spiWrite .S [0xFF#8]] ++ s.ctl.seq, ctl.poll.r1 := some 0 }
  have h2 : Reaches s1 s2 := Reaches.micro (m := .enter .r1) hu hr rfl rfl (Reaches.refl _)
  have h3 := reaches_r1Poll (k := k) (n := 0) (cs := some x :: cs) (q := [.deselect .S, .spiWrite .S [0xFF#8]] ++ s.ctl.seq)
    hr1 (s := s2) hu hr rfl rfl rfl (by simpa using hlim)
  refine h1.trans (h2.trans (h3.trans ?_))
  let s3 : State :=
    { s with
      regs.lastR1 := r
      lines.csS := s.cfg.csActive.not
      ctl.seq := [.spiWrite .S [0xFF#8]] ++ s.ctl.seq
      ctl.poll.r1 := none
      env.cardIn := some x :: cs
      obs.portS := .deselect :: .xfer s.cfg.fillRd (some r) :: (List.replicate k (.xfer s.cfg.fillRd (some 0xFF#8)) ++
        (((frameBytes w).map (fun b => EventS.write b true)).reverse ++ .select :: s.obs.portS)) }
  refine Reaches.micro (t := s3) (m := .deselect .S) (q := [.spiWrite .S [0xFF#8]] ++ s.ctl.seq) hu hr rfl rfl ?_
  refine (reaches_writeS (bs := [0xFF#8]) (ws := [x]) (by simp) rfl (cs := cs) (q := s.ctl.seq) (s := s3) hu hr rfl
    rfl).trans ?_
  exact Reaches.of_eq (by simp [s3, txEvents])

end Sys2Proof.Machine
end

