-- ==== Sys2Proof/Laws/PortS.lean ====
section
/-! SUPPORT. The runs of port S: a card command from its fetch to its release byte, and a data phase. -/

namespace Sys2Proof.Machine

/-- Fetching a card command begins its transaction. -/
theorem microStep_frame {idx : BitVec 6} {arg : Word} {chk : Byte} {i : Instr}
    (h : cardCommandMap idx arg chk = some i) (s : State) :
    microStep (.frame (frameWord idx arg chk)) s = .next (startFrame (frameWord idx arg chk) s) := by
  simp only [microStep, runFrame, decode_frameWord _ _ _ h]
  unfold cardCommandMap at h
  split at h <;> first | (cases h; rfl) | cases h

/-- A card command: its transaction, and the response in LAST_R1 (41_storage.md R150). -/
theorem reaches_frame {idx : BitVec 6} {arg : Word} {chk : Byte} {i : Instr} (hi : cardCommandMap idx arg chk = some i)
    {ws : List Byte} (hw : ws.length = 6) {k : Nat} {r x : Byte} (hr1 : r ≠ 0xFF#8) {s : State} {q : List Micro}
    {cs : List (Option Byte)} (hu : Undisturbed s) (hr : s.regs.running = true)
    (hq : s.ctl.seq = .frame (frameWord idx arg chk) :: q) (hc : s.env.cardIn = txAnswers ws k r x ++ cs)
    (hlim : aboveLimit s.cfg.pollLimit (k + 1) = false) :
    Reaches s
      { s with
        regs.lastR1 := r
        lines.csS := s.cfg.csActive.not
        ctl.seq := q
        ctl.poll.r1 := none
        env.cardIn := cs
        obs.portS := txEvents s.cfg.fillRd (frameWord idx arg chk) k r ++ s.obs.portS } :=
  Reaches.micro hu hr hq (microStep_frame hi _)
    (reaches_transaction (s := setSeq q s) hw hr1 (cs := cs) hu hr hc hlim)

/-- A start-token poll that discards bytes and then meets the token (R154). -/
theorem reaches_tokenPoll {junk : List Byte} (hj : ∀ b ∈ junk, b ≠ 0xFE#8) {n : Nat} {s : State} {q : List Micro}
    {cs : List (Option Byte)} (hu : Undisturbed s) (hr : s.regs.running = true) (hq : s.ctl.seq = .tokenPoll :: q)
    (hc : s.env.cardIn = junk.map some ++ some 0xFE#8 :: cs) (hn : s.ctl.poll.tok = some n)
    (hlim : aboveLimit s.cfg.pollLimit (n + junk.length + 1) = false) :
    Reaches s
      { s with
        ctl.seq := q
        ctl.poll.tok := none
        env.cardIn := cs
        obs.portS := .xfer s.cfg.fillRd (some 0xFE#8) ::
          ((junk.map (fun b => EventS.xfer s.cfg.fillRd (some b))).reverse ++ s.obs.portS) } := by
  induction junk generalizing n s with
  | nil =>
    refine Reaches.micro hu hr hq ?_ (Reaches.refl _)
    have hl' : aboveLimit s.cfg.pollLimit (n + 1) = false := aboveLimit_mono (by simp) hlim
    simp [microStep, pollToken, poll, pollCount, setSeq, hn, hl', spiXfer, drawCard, setPoll, hc, runToken, decode,
      exec, execStartToken, emitS]
  | cons b junk ih =>
    have hl' : aboveLimit s.cfg.pollLimit (n + 1) = false := aboveLimit_mono (by simp) hlim
    have hb : b ≠ 0xFE#8 := hj b (by simp)
    let t : State :=
      { s with
        ctl.seq := .tokenPoll :: q
        ctl.poll.tok := some (n + 1)
        env.cardIn := junk.map some ++ some 0xFE#8 :: cs
        obs.portS := .xfer s.cfg.fillRd (some b) :: s.obs.portS }
    refine Reaches.micro (t := t) hu hr hq ?_ ?_
    · simp [t, microStep, pollToken, poll, pollCount, setSeq, hn, hl', spiXfer, drawCard, setPoll, hc, runToken, decode,
        hb, pollAgain, push, emitS]
    · refine (ih (fun c hc => hj c (by simp [hc])) (n := n + 1) (s := t) hu hr rfl rfl rfl ?_).trans ?_
      · have : n + 1 + junk.length + 1 = n + (b :: junk).length + 1 := by simp; omega
        rw [this]
        exact hlim
      · exact Reaches.of_eq (by simp [t])

/-- The payload transfers of a data phase (R153). -/
theorem reaches_payload {data : List Byte} (hd : data ≠ []) {i n : Nat} (hn : i + data.length = n) (hmax : n ≤ 512)
    {s : State} {q : List Micro} {cs : List (Option Byte)} (hu : Undisturbed s) (hr : s.regs.running = true)
    (hq : s.ctl.seq = .payload i n :: q) (hc : s.env.cardIn = data.map some ++ cs) :
    Reaches s
      { s with
        buf := storeBytes s.buf i data
        ctl.seq := q
        env.cardIn := cs
        obs.portS := (data.map (fun b => EventS.xfer s.cfg.fillRd (some b))).reverse ++ s.obs.portS } := by
  induction data generalizing i s with
  | nil => exact absurd rfl hd
  | cons b data ih =>
    simp only [List.length_cons] at hn
    have h1 : ¬ n ≤ i := by omega
    have h2 : ¬ bufSize ≤ i := by simp only [bufSize]; omega
    cases data with
    | nil =>
      have h3 : ¬ i + 1 < n := by simp at hn; omega
      refine Reaches.micro hu hr hq ?_ (Reaches.refl _)
      simp [microStep, stepPayload, h1, h2, h3, spiXfer, drawCard, setSeq, hc, emitS, bufWrite, storeBytes]
    | cons c data =>
      have h3 : i + 1 < n := by simp at hn; omega
      let t : State :=
        { s with
          buf := s.buf.write i b
          ctl.seq := .payload (i + 1) n :: q
          env.cardIn := (c :: data).map some ++ cs
          obs.portS := .xfer s.cfg.fillRd (some b) :: s.obs.portS }
      refine Reaches.micro (t := t) hu hr hq ?_ ?_
      · simp [t, microStep, stepPayload, h1, h2, h3, spiXfer, drawCard, setSeq, hc, emitS, bufWrite, push]
      · refine (ih (by simp) (by omega) (s := t) hu hr rfl rfl).trans ?_
        exact Reaches.of_eq (by simp [t, storeBytes])

/-- The payload transfers of a data phase up to one that errs (R153, 40_transport.md R128): the bytes before it are in BUF,
and F_STORAGE_BUS is raised with the steps after the payload still to run. -/
theorem reaches_payload_error {data : List Byte} {i n : Nat} (hn : i + data.length < n) (hmax : n ≤ 512) {s : State}
    {q : List Micro} {cs : List (Option Byte)} (hu : Undisturbed s) (hr : s.regs.running = true)
    (hq : s.ctl.seq = .payload i n :: q) (hc : s.env.cardIn = data.map some ++ none :: cs) :
    Reaches s
      (raise .storageBus
        { s with
          buf := storeBytes s.buf i data
          ctl.seq := q
          env.cardIn := cs
          obs.portS := .xfer s.cfg.fillRd none ::
            ((data.map (fun b => EventS.xfer s.cfg.fillRd (some b))).reverse ++ s.obs.portS) }) := by
  have h1 : ¬ n ≤ i := by omega
  have h2 : ¬ bufSize ≤ i := by simp only [bufSize]; omega
  induction data generalizing i s with
  | nil =>
    refine Reaches.micro hu hr hq ?_ (Reaches.refl _)
    simp [microStep, stepPayload, h1, h2, spiXfer, drawCard, setSeq, hc, emitS, storeBytes]
  | cons b data ih =>
    simp only [List.length_cons] at hn
    have h3 : i + 1 < n := by omega
    let t : State :=
      { s with
        buf := s.buf.write i b
        ctl.seq := .payload (i + 1) n :: q
        env.cardIn := data.map some ++ none :: cs
        obs.portS := .xfer s.cfg.fillRd (some b) :: s.obs.portS }
    refine Reaches.micro (t := t) hu hr hq ?_ ?_
    · simp [t, microStep, stepPayload, h1, h2, h3, spiXfer, drawCard, setSeq, hc, emitS, bufWrite, push]
    · refine (ih (s := t) (by omega) hu hr rfl rfl (by omega) (by simp only [bufSize]; omega)).trans ?_
      exact Reaches.of_eq (by simp [t, storeBytes])

/-- A data phase: the payload in BUF from index 0, the rest of BUF and every register as before (R153). -/
theorem reaches_dataPhase {junk data : List Byte} (hj : ∀ b ∈ junk, b ≠ 0xFE#8) (hd : data ≠ []) {n : Nat}
    (hn : data.length = n) (hmax : n ≤ 512) {t0 t1 : Byte} {s : State} {q : List Micro} {cs : List (Option Byte)}
    (hu : Undisturbed s) (hr : s.regs.running = true) (hq : s.ctl.seq = .dataPhase n :: q)
    (hc : s.env.cardIn = phaseAnswers junk data t0 t1 ++ cs)
    (hlim : aboveLimit s.cfg.pollLimit (junk.length + 1) = false) :
    Reaches s
      { s with
        buf := storeBytes s.buf 0 data
        lines.csS := s.cfg.csActive.not
        ctl.seq := q
        ctl.poll.tok := none
        env.cardIn := cs
        obs.portS := phaseEvents s.cfg.fillRd junk data t0 t1 ++ s.obs.portS } := by
  let s1 : State :=
    { s with
      lines.csS := s.cfg.csActive
      ctl.seq := [.enter .tok, .tokenPoll, .payload 0 n, .trailer, .trailer, .deselect .S] ++ q
      obs.portS := .select :: s.obs.portS }
  let s2 : State :=
    { s1 with ctl.seq := [.tokenPoll, .payload 0 n, .trailer, .trailer, .deselect .S] ++ q, ctl.poll.tok := some 0 }
  let s3 : State :=
    { s with
      lines.csS := s.cfg.csActive
      ctl.seq := [.payload 0 n, .trailer, .trailer, .deselect .S] ++ q
      ctl.poll.tok := none
      env.cardIn := data.map some ++ some t0 :: some t1 :: cs
      obs.portS := .xfer s.cfg.fillRd (some 0xFE#8) ::
        ((junk.map (fun b => EventS.xfer s.cfg.fillRd (some b))).reverse ++ .select :: s.obs.portS) }
  let s4 : State :=
    { s3 with
      buf := storeBytes s.buf 0 data
      ctl.seq := [.trailer, .trailer, .deselect .S] ++ q
      env.cardIn := some t0 :: some t1 :: cs
      obs.portS := (data.map (fun b => EventS.xfer s.cfg.fillRd (some b))).reverse ++ s3.obs.portS }
  let s5 : State :=
    { s4 with
      ctl.seq := [.trailer, .deselect .S] ++ q
      env.cardIn := some t1 :: cs
      obs.portS := .xfer s.cfg.fillRd (some t0) :: s4.obs.portS }
  let s6 : State :=
    { s4 with
      ctl.seq := [.deselect .S] ++ q
      env.cardIn := cs
      obs.portS := .xfer s.cfg.fillRd (some t1) :: s5.obs.portS }
  refine Reaches.micro (t := s1) hu hr hq rfl ?_
  refine Reaches.micro (t := s2) (m := .enter .tok) hu hr rfl rfl ?_
  have h3 : Reaches s2 s3 := reaches_tokenPoll hj (s := s2) (n := 0) hu hr rfl
    (by simp [s1, s2, hc, phaseAnswers]) rfl (by simpa using hlim)
  have h4 : Reaches s3 s4 := reaches_payload hd (by omega) hmax (s := s3) hu hr rfl rfl
  refine h3.trans (h4.trans ?_)
  refine Reaches.micro (t := s5) (m := .trailer) hu hr rfl rfl ?_
  refine Reaches.micro (t := s6) (m := .trailer) hu hr rfl rfl ?_
  refine Reaches.micro (m := .deselect .S) hu hr rfl rfl ?_
  exact Reaches.of_eq (by simp [s3, s4, s5, s6, doDeselect, emitS, setSeq, phaseEvents])

end Sys2Proof.Machine
end

