-- ==== Sys2Proof/Laws/PortD.lean ====
section
/-! SUPPORT. The runs of port D: the transactions of the panel, and the busy-wait. -/

namespace Sys2Proof.Machine

/-- The bytes of a `SpiWrite(D, …)` that the panel takes (40_transport.md R127). -/
theorem reaches_writeD {bs : List Byte} (hb : bs ≠ []) {s : State} {q : List Micro} {ps : List Bool} (hu : Undisturbed s)
    (hr : s.regs.running = true) (hq : s.ctl.seq = .spiWrite .D bs :: q)
    (hp : s.env.panelIn = List.replicate bs.length true ++ ps) :
    Reaches s
      { s with
        ctl.seq := q
        env.panelIn := ps
        obs.portD := (bs.map (fun b => EventD.write b true)).reverse ++ s.obs.portD } := by
  induction bs generalizing s with
  | nil => exact absurd rfl hb
  | cons b bs ih =>
    cases bs with
    | nil =>
      refine Reaches.micro hu hr hq ?_ (Reaches.refl _)
      simp only [List.length_cons, List.length_nil, Nat.zero_add, List.replicate_one, List.cons_append, List.nil_append] at hp
      simp [microStep, stepSpiWrite, spiByte, drawPanel, setSeq, hp, emitD]
    | cons b' bs =>
      let t : State :=
        { s with
          ctl.seq := .spiWrite .D (b' :: bs) :: q
          env.panelIn := List.replicate (b' :: bs).length true ++ ps
          obs.portD := .write b true :: s.obs.portD }
      refine Reaches.micro (t := t) hu hr hq ?_ ?_
      · rw [List.length_cons, List.replicate_succ, List.cons_append] at hp
        simp [t, microStep, stepSpiWrite, spiByte, drawPanel, setSeq, hp, emitD, push]
      · refine (ih (s := t) (by simp) hu hr rfl rfl).trans ?_
        exact Reaches.of_eq (by simp [t])

/-- The opcode's transaction of `startDCmd`, from its select to its deselect (43_display.md R220). -/
theorem reaches_startDCmd {b : Byte} {s : State} {ps : List Bool} (hu : Undisturbed s) (hr : s.regs.running = true)
    (hp : s.env.panelIn = true :: ps) :
    Reaches (startDCmd b s)
      { s with
        lines.dc := s.cfg.dcCmd
        lines.csD := s.cfg.csActive.not
        env.panelIn := ps
        obs.portD := dcmdEvents s.cfg b ++ s.obs.portD } := by
  let s1 : State :=
    { s with
      lines.dc := s.cfg.dcCmd
      lines.csD := s.cfg.csActive
      ctl.seq := .spiWrite .D [b] :: .deselect .D :: s.ctl.seq
      obs.portD := .select :: .drive .dc s.cfg.dcCmd :: s.obs.portD }
  refine Reaches.micro (t := s1) (m := .select .D) hu hr rfl rfl ?_
  refine (reaches_writeD (bs := [b]) (by simp) (s := s1) hu hr rfl hp).trans ?_
  exact Reaches.micro (m := .deselect .D) hu hr rfl rfl (Reaches.of_eq (by simp [s1, doDeselect, emitD, setSeq, dcmdEvents]))

/-- The data transaction of `startDData` (43_display.md R221). -/
theorem reaches_startDData {bs : List Byte} (hb : bs ≠ []) {s : State} {ps : List Bool} (hu : Undisturbed s)
    (hr : s.regs.running = true) (hp : s.env.panelIn = List.replicate bs.length true ++ ps) :
    Reaches (startDData bs s)
      { s with
        lines.dc := s.cfg.dcData
        lines.csD := s.cfg.csActive.not
        env.panelIn := ps
        obs.portD := ddataEvents s.cfg bs ++ s.obs.portD } := by
  let s1 : State :=
    { s with
      lines.dc := s.cfg.dcData
      lines.csD := s.cfg.csActive
      ctl.seq := .spiWrite .D bs :: .deselect .D :: s.ctl.seq
      obs.portD := .select :: .drive .dc s.cfg.dcData :: s.obs.portD }
  refine Reaches.micro (t := s1) (m := .select .D) hu hr rfl rfl ?_
  refine (reaches_writeD hb (s := s1) hu hr rfl hp).trans ?_
  exact Reaches.micro (m := .deselect .D) hu hr rfl rfl (Reaches.of_eq (by simp [s1, doDeselect, emitD, setSeq, ddataEvents]))

/-- A data transaction that stands next in the sequencer. -/
theorem reaches_dispData {bs : List Byte} (hb : bs ≠ []) {s : State} {q : List Micro} {ps : List Bool}
    (hu : Undisturbed s) (hr : s.regs.running = true) (hq : s.ctl.seq = .dispData bs :: q)
    (hp : s.env.panelIn = List.replicate bs.length true ++ ps) :
    Reaches s
      { s with
        lines.dc := s.cfg.dcData
        lines.csD := s.cfg.csActive.not
        ctl.seq := q
        env.panelIn := ps
        obs.portD := ddataEvents s.cfg bs ++ s.obs.portD } :=
  Reaches.micro hu hr hq rfl (reaches_startDData (s := setSeq q s) hb hu hr hp)

/-- A display opcode and its parameter bytes, from its start (30_encoding.md R100). -/
theorem reaches_startDispOp {b : Byte} {params : List Byte} {s : State} {ps : List Bool} (hu : Undisturbed s)
    (hr : s.regs.running = true) (hp : s.env.panelIn = List.replicate (params.length + 1) true ++ ps) :
    Reaches (startDispOp b params s)
      { s with
        lines.dc := if params = [] then s.cfg.dcCmd else s.cfg.dcData
        lines.csD := s.cfg.csActive.not
        env.panelIn := ps
        obs.portD := (if params = [] then [] else ddataEvents s.cfg params) ++ (dcmdEvents s.cfg b ++ s.obs.portD) } := by
  rw [List.replicate_succ, List.cons_append] at hp
  by_cases h : params = []
  · subst h
    simp only [List.length_nil, List.replicate_zero, List.nil_append] at hp
    exact (reaches_startDCmd (s := s) hu hr hp).trans (Reaches.of_eq (by simp))
  · let s0 : State := push [.dispData params] s
    let s1 : State :=
      { s with
        lines.dc := s.cfg.dcCmd
        lines.csD := s.cfg.csActive.not
        ctl.seq := .dispData params :: s.ctl.seq
        env.panelIn := List.replicate params.length true ++ ps
        obs.portD := dcmdEvents s.cfg b ++ s.obs.portD }
    have h0 : startDispOp b params s = startDCmd b s0 := by simp [startDispOp, h, s0]
    rw [h0]
    have h1 : Reaches (startDCmd b s0) s1 := reaches_startDCmd (s := s0) hu hr hp
    refine h1.trans ((reaches_dispData h (s := s1) hu hr rfl rfl).trans (Reaches.of_eq (by simp [s1, h])))

/-- BUF's bytes from an index up, sent one by one (43_display.md R242): those that have been written, and a draw for each
other one (10_state.md R49). -/
theorem reaches_sendBuf {m : Nat} (hm : m ≠ 0) {i n : Nat} (hn : i + m = n) (hmax : n ≤ 512) {s : State} {q : List Micro}
    {ps : List Bool} (hu : Undisturbed s) (hr : s.regs.running = true) (hq : s.ctl.seq = .sendBuf i n :: q)
    (hp : s.env.panelIn = List.replicate m true ++ ps) :
    ∃ bs : List Byte, bs.length = m ∧ (∀ k b, k < bs.length → s.buf.read (i + k) = some b → bs[k]? = some b) ∧
      Reaches s
        { s with
          ctl.seq := q
          env.panelIn := ps
          env.draws := s.env.draws + unwritten s.buf i m
          obs.portD := (bs.map (fun b => EventD.write b true)).reverse ++ s.obs.portD } := by
  induction m generalizing i s with
  | zero => exact absurd rfl hm
  | succ m ih =>
    have h1 : ¬ n ≤ i := by omega
    have h2 : ¬ bufSize ≤ i := by simp only [bufSize]; omega
    rw [List.replicate_succ, List.cons_append] at hp
    obtain ⟨b, d, hb, hd, hread⟩ : ∃ (b : Byte) (d : Nat), (∀ b', s.buf.read i = some b' → b = b') ∧
        unwritten s.buf i (m + 1) = d + unwritten s.buf (i + 1) m ∧
        bufRead i (setSeq q s) = (b, { setSeq q s with env.draws := s.env.draws + d }) := by
      rw [unwritten_succ]
      cases h : s.buf.read i with
      | some b => exact ⟨b, 0, fun _ h' => Option.some.inj h', by simp, by simp only [bufRead, setSeq_buf, h]; rfl⟩
      | none => exact ⟨_, 1, (by simp), by simp, by simp only [bufRead, setSeq_buf, h]; rfl⟩
    let t : State :=
      { s with
        ctl.seq := if i + 1 < n then .sendBuf (i + 1) n :: q else q
        env.panelIn := List.replicate m true ++ ps
        env.draws := s.env.draws + d
        obs.portD := .write b true :: s.obs.portD }
    have ht : Reaches s t := by
      refine Reaches.micro hu hr hq ?_ (Reaches.refl _)
      simp only [microStep, stepSendBuf, h1, h2, if_false, hread]
      by_cases h3 : i + 1 < n <;> simp [t, h3, spiByte, drawPanel, hp, emitD, push, setSeq]
    by_cases hz : m = 0
    · subst hz
      have h3 : ¬ i + 1 < n := by omega
      refine ⟨[b], rfl, ?_, ht.trans (Reaches.of_eq (by rw [hd]; simp [t, h3, unwritten]))⟩
      intro k b' hk h
      have : k = 0 := by simpa using hk
      subst this
      simpa using hb b' h
    · have h3 : i + 1 < n := by omega
      obtain ⟨bs, hl, ha, hR⟩ := ih hz (i := i + 1) (s := t) (by omega) hu hr (by simp [t, h3]) rfl
      refine ⟨b :: bs, by simp [hl], ?_, ht.trans (hR.trans (Reaches.of_eq ?_))⟩
      · intro k b' hk h
        cases k with
        | zero => simpa using hb b' h
        | succ k =>
          refine ha k b' (by simpa using hk) ?_
          rw [show i + 1 + k = i + (k + 1) by omega]
          exact h
      · simp [t, hd, Nat.add_assoc]

/-- One data transaction of BUF's first bytes (43_display.md R242): the written ones, and a draw for each other one. -/
theorem reaches_dispBuf_draws {n : Nat} (hn : n ≠ 0) (hmax : n ≤ 512) {s : State} {q : List Micro} {ps : List Bool}
    (hu : Undisturbed s) (hr : s.regs.running = true) (hq : s.ctl.seq = .dispBuf n :: q)
    (hp : s.env.panelIn = List.replicate n true ++ ps) :
    ∃ bs : List Byte, bs.length = n ∧ (∀ k b, k < bs.length → s.buf.read k = some b → bs[k]? = some b) ∧
      Reaches s
        { s with
          lines.dc := s.cfg.dcData
          lines.csD := s.cfg.csActive.not
          ctl.seq := q
          env.panelIn := ps
          env.draws := s.env.draws + unwritten s.buf 0 n
          obs.portD := ddataEvents s.cfg bs ++ s.obs.portD } := by
  let s1 : State :=
    { s with
      lines.dc := s.cfg.dcData
      ctl.seq := .select .D :: .sendBuf 0 n :: .deselect .D :: q
      obs.portD := .drive .dc s.cfg.dcData :: s.obs.portD }
  let s2 : State :=
    { s1 with
      lines.csD := s.cfg.csActive
      ctl.seq := .sendBuf 0 n :: .deselect .D :: q
      obs.portD := .select :: s1.obs.portD }
  obtain ⟨bs, hl, ha, hR⟩ := reaches_sendBuf hn (i := 0) (n := n) (by omega) hmax (s := s2) hu hr rfl hp
  refine ⟨bs, hl, fun k b hk h => ha k b hk (by simpa using h), ?_⟩
  refine Reaches.micro (t := s1) hu hr hq rfl ?_
  refine Reaches.micro (t := s2) (m := .select .D) hu hr rfl rfl ?_
  refine hR.trans ?_
  exact Reaches.micro (m := .deselect .D) hu hr rfl rfl
    (Reaches.of_eq (by simp [s1, s2, doDeselect, emitD, setSeq, ddataEvents]))

/-- One data transaction of BUF's first bytes, all of them written (43_display.md R244). -/
theorem reaches_dispBuf {bs : List Byte} (hb : bs ≠ []) {n : Nat} (hn : bs.length = n) (hmax : n ≤ 512) {s : State}
    {q : List Micro} {ps : List Bool} (hbuf : ∀ k (h : k < bs.length), s.buf.read k = some bs[k])
    (hu : Undisturbed s) (hr : s.regs.running = true) (hq : s.ctl.seq = .dispBuf n :: q)
    (hp : s.env.panelIn = List.replicate bs.length true ++ ps) :
    Reaches s
      { s with
        lines.dc := s.cfg.dcData
        lines.csD := s.cfg.csActive.not
        ctl.seq := q
        env.panelIn := ps
        obs.portD := ddataEvents s.cfg bs ++ s.obs.portD } := by
  subst hn
  obtain ⟨bs', hl, ha, hR⟩ := reaches_dispBuf_draws (by simpa using hb) hmax hu hr hq hp
  have he : bs' = bs := by
    refine List.ext_getElem hl fun k h1 h2 => ?_
    have h3 := ha k _ h1 (hbuf k h2)
    rw [List.getElem?_eq_getElem h1] at h3
    exact Option.some.inj h3
  have hz : unwritten s.buf 0 bs.length = 0 := by
    rw [unwritten, List.countP_eq_zero]
    intro k hk
    simp [hbuf k (by simpa using hk)]
  simpa [he, hz] using hR

/-- The busy-wait's loop, from an iteration's start, with the panel busy for some samples and then ready
(43_display.md R222). -/
theorem reaches_busyLoop {busy : List Config.BusySample} {ready : Config.BusySample} {s : State}
    (hbusy : ∀ v ∈ busy, busyNow s.cfg.busyActive v = true) (hready : busyNow s.cfg.busyActive ready = false) {n : Nat}
    {q : List Micro} {ps : List Bool} {vs : List Config.BusySample} (hu : Undisturbed s) (hr : s.regs.running = true)
    (hq : s.ctl.seq = .busyLoop :: q) (hp : s.env.panelIn = List.replicate (busy.length + 1) true ++ ps)
    (hv : s.env.busyIn = busy ++ ready :: vs) (hn : s.ctl.poll.bsy = some n)
    (hlim : aboveLimit s.cfg.pollLimit (n + busy.length + 1) = false) :
    Reaches s
      { s with
        lines.dc := s.cfg.dcCmd
        lines.csD := s.cfg.csActive.not
        ctl.seq := q
        ctl.poll.bsy := none
        env.panelIn := ps
        env.busyIn := vs
        obs.portD := waitEvents s.cfg busy ready ++ s.obs.portD } := by
  induction busy generalizing n s with
  | nil =>
    have hl' : aboveLimit s.cfg.pollLimit (n + 1) = false := aboveLimit_mono (by simp) hlim
    simp only [List.length_nil, Nat.zero_add, List.replicate_one, List.cons_append, List.nil_append] at hp hv
    let s0 : State := { s with ctl.seq := .busySample :: q, ctl.poll.bsy := some (n + 1) }
    let s1 : State := { s with ctl.seq := .dispOp 0x71#8 :: .busySample :: q, ctl.poll.bsy := some (n + 1) }
    let s2 : State :=
      { s0 with
        lines.dc := s.cfg.dcCmd
        lines.csD := s.cfg.csActive.not
        env.panelIn := ps
        obs.portD := dcmdEvents s.cfg 0x71#8 ++ s.obs.portD }
    refine Reaches.micro (t := s1) hu hr hq ?_ ?_
    · simp [s1, microStep, stepBusyLoop, poll, pollCount, setSeq, hn, hl', setPoll, push]
    refine Reaches.micro (t := startDCmd 0x71#8 s0) (m := .dispOp 0x71#8) hu hr rfl rfl ?_
    have h2 : Reaches (startDCmd 0x71#8 s0) s2 := reaches_startDCmd (s := s0) hu hr hp
    refine h2.trans (Reaches.micro (m := .busySample) hu hr rfl ?_ (Reaches.refl _))
    simp [s2, s0, microStep, stepBusySample, drawBusy, hv, hready, setSeq, emitD, setPoll, waitEvents]
  | cons v busy ih =>
    have hl' : aboveLimit s.cfg.pollLimit (n + 1) = false := aboveLimit_mono (by simp) hlim
    have hv1 : busyNow s.cfg.busyActive v = true := hbusy v (by simp)
    rw [List.length_cons, List.replicate_succ, List.cons_append] at hp
    simp only [List.cons_append] at hv
    let s0 : State := { s with ctl.seq := .busySample :: q, ctl.poll.bsy := some (n + 1) }
    let s1 : State := { s with ctl.seq := .dispOp 0x71#8 :: .busySample :: q, ctl.poll.bsy := some (n + 1) }
    let s2 : State :=
      { s0 with
        lines.dc := s.cfg.dcCmd
        lines.csD := s.cfg.csActive.not
        env.panelIn := List.replicate (busy.length + 1) true ++ ps
        obs.portD := dcmdEvents s.cfg 0x71#8 ++ s.obs.portD }
    let s3 : State :=
      { s2 with
        ctl.seq := .hold .tPoll :: .busyLoop :: q
        env.busyIn := busy ++ ready :: vs
        obs.portD := .busy v :: s2.obs.portD }
    let s4 : State := { s3 with ctl.seq := .busyLoop :: q, obs.portD := .hold .tPoll :: s3.obs.portD }
    refine Reaches.micro (t := s1) hu hr hq ?_ ?_
    · simp [s1, microStep, stepBusyLoop, poll, pollCount, setSeq, hn, hl', setPoll, push]
    refine Reaches.micro (t := startDCmd 0x71#8 s0) (m := .dispOp 0x71#8) hu hr rfl rfl ?_
    have h2 : Reaches (startDCmd 0x71#8 s0) s2 := reaches_startDCmd (s := s0) hu hr hp
    refine h2.trans (Reaches.micro (t := s3) (m := .busySample) hu hr rfl ?_ ?_)
    · simp [s3, s2, s0, microStep, stepBusySample, drawBusy, hv, hv1, setSeq, emitD, push]
    refine Reaches.micro (t := s4) (m := .hold .tPoll) hu hr rfl rfl ?_
    refine (ih (s := s4) (fun w hw => hbusy w (by simp [hw])) hready (n := n + 1) hu hr rfl rfl rfl rfl ?_).trans ?_
    · have : n + 1 + busy.length + 1 = n + (v :: busy).length + 1 := by simp; omega
      rw [this]
      exact hlim
    · exact Reaches.of_eq (by simp [s4, s3, s2, s0, waitEvents])

/-- `WaitIdle()` (43_display.md R222). -/
theorem reaches_waitIdle {busy : List Config.BusySample} {ready : Config.BusySample} {s : State}
    (hbusy : ∀ v ∈ busy, busyNow s.cfg.busyActive v = true) (hready : busyNow s.cfg.busyActive ready = false)
    {q : List Micro} {ps : List Bool} {vs : List Config.BusySample} (hu : Undisturbed s) (hr : s.regs.running = true)
    (hq : s.ctl.seq = waitIdle ++ q) (hp : s.env.panelIn = List.replicate (busy.length + 1) true ++ ps)
    (hv : s.env.busyIn = busy ++ ready :: vs) (hlim : aboveLimit s.cfg.pollLimit (busy.length + 1) = false) :
    Reaches s
      { s with
        lines.dc := s.cfg.dcCmd
        lines.csD := s.cfg.csActive.not
        ctl.seq := q
        ctl.poll.bsy := none
        env.panelIn := ps
        env.busyIn := vs
        obs.portD := waitEvents s.cfg busy ready ++ s.obs.portD } := by
  let s1 : State := { s with ctl.seq := .busyLoop :: q, ctl.poll.bsy := some 0 }
  refine Reaches.micro (t := s1) (m := .enter .bsy) (q := .busyLoop :: q) hu hr hq rfl ?_
  exact (reaches_busyLoop (s := s1) hbusy hready (n := 0) hu hr rfl hp hv rfl (by simpa using hlim)).trans
    (Reaches.of_eq (by simp [s1]))

end Sys2Proof.Machine
end

