-- ==== Sys2Proof/Laws/Steps.lean ====
section
/-! SUPPORT. Everything a step can do, said once: the turns, the accepted issues, and the micro-steps. A proof about every
step takes these apart with `cases` and unfolds no operation. -/

namespace Sys2Proof.Machine

/-! Turns. -/

/-- A step that answers a next state: a reset, nothing, the end of an operation, a micro-step, a host read, a host write
below CMD, or an issue. `q` is the schedule that is left. -/
inductive Turned (s : State) : State → Prop where
  | reset (q : List Turn) (h : s.env.sched = .reset :: q) : Turned s (resetEngine (setSched q s))
  | nothing (q : List Turn) (h : s.env.sched.head? ≠ some .reset) : Turned s (setSched q s)
  | done (q : List Turn) (h : s.env.sched = [] ∨ s.env.sched = .engine :: q ∨ (s.env.sched = q ∧ q.head? = some .wait))
      (hr : s.regs.running = true) (hq : s.ctl.seq = []) : Turned s (complete (setSched q s))
  | micro (q : List Turn)
      (h : s.env.sched = [] ∨ s.env.sched = .engine :: q ∨ (s.env.sched = q ∧ q.head? = some .wait)) (m : Micro)
      (rest : List Micro) (t : State) (hr : s.regs.running = true) (hq : s.ctl.seq = m :: rest)
      (ht : microStep m (setSeq rest (setSched q s)) = .next t) : Turned s t
  | read (q : List Turn) (offset n : Nat) (v : Word) (h : s.env.sched = .read offset 4 :: q) :
      Turned s (recordRead offset v { s with env := { s.env with sched := q, draws := n } })
  | write (q : List Turn) (offset : Nat) (v : Word) (h : s.env.sched = .write offset 4 v :: q) (h4 : offset % 4 = 0)
      (hlt : offset < 0x400) (h0 : offset ≠ 0) : Turned s (writeWord offset v (setSched q s))
  | issue (q : List Turn) (w : Word) (t : State) (h : s.env.sched = .write 0x000 4 w :: q)
      (ht : issueWord w (setSched q s) = .next t) : Turned s t

theorem engineStep_turned {s t : State} {q : List Turn}
    (h : s.env.sched = [] ∨ s.env.sched = .engine :: q ∨ (s.env.sched = q ∧ q.head? = some .wait))
    (hs : engineStep (setSched q s) = .next t) : Turned s t := by
  simp only [engineStep] at hs
  split at hs
  · rename_i hr
    split at hs
    · rename_i hq
      cases hs
      exact .done q h hr hq
    · rename_i m rest hq
      exact .micro q h m rest t hr hq hs
  · cases hs
    refine .nothing q ?_
    rcases h with h | h | ⟨h, h'⟩
    · simp [h]
    · simp [h]
    · simp [h, h']

theorem bufRead_draws (i : Nat) (s : State) : ∃ n, (bufRead i s).2 = { s with env.draws := n } := by
  rcases bufRead_spec i s with h | h
  · exact ⟨s.env.draws, h⟩
  · exact ⟨_, h⟩

/-- A host read changes the draw counter at most. -/
theorem readWord_draws (offset : Nat) (s : State) : ∃ n, (readWord offset s).2 = { s with env.draws := n } := by
  by_cases h : 0x200 ≤ offset
  · simp only [readWord, h, if_true, readBufWord]
    obtain ⟨n0, h0⟩ := bufRead_draws (4 * ((offset - 0x200) / 4)) s
    obtain ⟨n1, h1⟩ := bufRead_draws (4 * ((offset - 0x200) / 4) + 1) { s with env.draws := n0 }
    obtain ⟨n2, h2⟩ := bufRead_draws (4 * ((offset - 0x200) / 4) + 2) { s with env.draws := n1 }
    obtain ⟨n3, h3⟩ := bufRead_draws (4 * ((offset - 0x200) / 4) + 3) { s with env.draws := n2 }
    exact ⟨n3, by simp only [h0, h1, h2, h3]⟩
  · refine ⟨s.env.draws, ?_⟩
    simp only [readWord, h, if_false]
    repeat' split
    all_goals rfl

/-- Every step that answers a next state is one of these turns (20_memory.md R81). -/
theorem step_turned {s t : State} (h : step s = .next t) : Turned s t := by
  simp only [step, takeTurn] at h
  split at h
  · rename_i hq
    exact engineStep_turned (q := []) (.inl hq) (by rw [← hq]; exact h)
  · rename_i q hq
    exact engineStep_turned (.inr (.inl hq)) h
  · rename_i q hq
    split at h
    · refine engineStep_turned (q := .wait :: q) (.inr (.inr ⟨hq, rfl⟩)) ?_
      rw [← hq]
      exact h
    · cases h
      exact .nothing q (by simp [hq])
  · rename_i offset size q hq
    simp only [hostRead] at h
    rcases hostAccess_cases offset size _ (setSched q s) with ⟨-, e⟩ | ⟨-, -, -, e⟩ | ⟨h4, -, -, e⟩
    · rw [e] at h; cases h
    · rw [e] at h; cases h
    · rw [e] at h
      cases h
      obtain ⟨n, hn⟩ := readWord_draws offset (setSched q s)
      rw [hn]
      subst h4
      exact .read q offset n _ hq
  · rename_i offset size v q hq
    simp only [hostWrite] at h
    rcases hostAccess_cases offset size (fun s' => if offset = 0x000 then issueWord v s' else .next (writeWord offset v s'))
      (setSched q s) with ⟨-, e⟩ | ⟨-, -, -, e⟩ | ⟨h4, h5, h6, e⟩
    · rw [e] at h; cases h
    · rw [e] at h; cases h
    · rw [e] at h
      subst h4
      by_cases h0 : offset = 0
      · subst h0
        exact .issue q v t hq h
      · simp only [h0, if_false] at h
        cases h
        exact .write q offset v hq h5 h6 h0
  · rename_i q hq
    cases h
    exact .reset q hq

/-! Issues. -/

/-- The micro-steps an operation begins with (R163 to R167, R204 to R206, R240 to R246). -/
inductive Program (s : State) : Instr → List Micro → Prop where
  | sdInit : Program s .sdInit (sdInitSteps s.cfg)
  | sdReadSector : Program s .sdReadSector (sdReadSectorSteps s)
  | sdReadStart : Program s .sdReadStart (sdReadStartSteps s)
  | sdReadNext : Program s .sdReadNext (sdReadNextSteps s)
  | sdReadEnd : Program s .sdReadEnd (sdReadEndSteps s)
  | iterStart (p : Bool) : Program s (.iterStart p) (iterStartSteps p s)
  | iterPull : Program s .iterPull [.itPull]
  | iterDrop : Program s .iterDrop [.itDrop]
  | dispInit : Program s .dispInit (dispInitSteps s.cfg)
  | dispCmd : Program s .dispCmd [.dispCmd (dispCmdOpcode s)]
  | dispData : Program s .dispData [.dispBuf s.regs.len.toNat]
  | dispWaitIdle : Program s .dispWaitIdle waitIdle
  | dispRefresh : Program s .dispRefresh (dispRefreshSteps s)
  | dispShutdown : Program s .dispShutdown shutdown

/-- What an issue that answers a next state does: nothing, OVR, a halt, or an operation whose checks pass. -/
inductive Issued (s : State) : State → Prop where
  | ignored (h : s.regs.halted = true) : Issued s s
  | dropped (h : s.regs.halted = false) (h' : s.regs.running = true) : Issued s { s with regs.ovr := true }
  | illegal (h : Idle s) (c : FaultCode) (opc : Byte) (p : Bool) : Issued s (halt c (issued opc p s))
  | accepted (h : Idle s) (i : Instr) (opc : Byte) (p : Bool) (q : List Micro) (hs : stateCheck i s = true)
      (ho : operandCheck i s = true) (hq : Program s i q) : Issued s (setSeq q (issued opc p s))

theorem issue_issued {s : State} {i : Instr} {opc : Byte} {p pre operands : Bool} {prog : List Micro}
    (hs : pre = true → stateCheck i s = true) (ho : operands = true → operandCheck i s = true) (hq : Program s i prog) :
    Issued s (issue opc p pre operands prog s) := by
  rcases issue_cases opc p pre operands prog s with ⟨h, e⟩ | ⟨h, h', e⟩ | ⟨h, -, e⟩ | ⟨h, -, -, e⟩ | ⟨h, h1, h2, e⟩ <;>
    rw [e]
  · exact .ignored h
  · exact .dropped h h'
  · exact .illegal h _ opc p
  · exact .illegal h _ opc p
  · exact .accepted h i opc p prog (hs h1) (ho h2) hq

/-- An operation word's instruction is a host operation. -/
theorem decode_op_host {w : Word} {i : Instr} (h : decode (.op w) = .ok i) :
    opcodeMap (opcField w) (planeField w) = some i := by
  simp only [decode, decodeOp] at h
  split at h
  · cases h
  · rename_i j hj
    split at h
    · cases h
    · cases h
      exact hj

/-- Every issue that answers a next state is one of these (R120 to R122, 60_exceptions.md R274). -/
theorem issueWord_issued {w : Word} {s t : State} (h : issueWord w s = .next t) : Issued s t := by
  simp only [issueWord] at h
  split at h
  · rename_i i hi
    have hm := decode_op_host hi
    unfold opcodeMap at hm
    split at hm <;> cases hm <;> cases h
    · exact issue_issued (by simp [preSdInit, stateCheck]) (fun _ => rfl) .sdInit
    · exact issue_issued (by simp [preStreamFree, stateCheck]) (by simp [sectorOk, lenOk, operandCheck]) .sdReadSector
    · exact issue_issued (by simp [preStreamFree, stateCheck]) (fun _ => rfl) .sdReadStart
    · exact issue_issued (by simp [preRaw, stateCheck]) (by simp [lenOk, operandCheck]) .sdReadNext
    · exact issue_issued (by simp [preRaw, stateCheck]) (fun _ => rfl) .sdReadEnd
    · exact issue_issued (i := .iterStart (planeField w)) (by simp [preStreamFree, stateCheck]) (fun h => h) (.iterStart _)
    · exact issue_issued (by simp [preIterActive, stateCheck]) (fun _ => rfl) .iterPull
    · exact issue_issued (fun _ => rfl) (fun _ => rfl) .iterDrop
    · exact issue_issued (by simp [preDispOff, stateCheck]) (fun _ => rfl) .dispInit
    · exact issue_issued (by simp [preDispOn, stateCheck]) (by simp [dispCmdOk, operandCheck]) .dispCmd
    · exact issue_issued (by simp [preDispOn, stateCheck]) (by simp [lenOk, operandCheck]) .dispData
    · exact issue_issued (by simp [preDispOn, stateCheck]) (fun _ => rfl) .dispWaitIdle
    · exact issue_issued (by simp [preRefresh, preStreamFree, stateCheck, and_assoc])
        (by simp [planeOk, planeStart, operandCheck]) .dispRefresh
    · exact issue_issued (by simp [preDispOn, stateCheck]) (fun _ => rfl) .dispShutdown
  · rename_i e he
    cases h
    rcases accept_cases (opcField w) (planeField w) (halt (issueFault e)) s with ⟨h, e⟩ | ⟨h, h', e⟩ | ⟨h, h', e⟩ <;> rw [e]
    · exact .ignored h
    · exact .dropped h h'
    · exact .illegal ⟨h, h'⟩ _ _ _

/-! Micro-steps. -/

/-- The micro-steps that can raise a fault. -/
def Micro.mayRaise : Micro → Bool
  | .spiWrite _ _ => true
  | .sendBuf _ _ => true
  | .r1Poll => true
  | .tokenPoll => true
  | .payload _ _ => true
  | .trailer => true
  | .cmd0Loop => true
  | .cmd8Test => true
  | .a41Loop => true
  | .cmd41Test => true
  | .cmd17Test => true
  | .cmd18Test => true
  | .busyLoop => true
  | .shutRet => true
  | _ => false

/-- At most one event has been recorded, on one port. -/
inductive OneEvent (os : List EventS) (od : List EventD) : List EventS → List EventD → Prop where
  | none : OneEvent os od os od
  | storage (e : EventS) : OneEvent os od (e :: os) od
  | panel (e : EventD) : OneEvent os od os (e :: od)

/-- What one micro-step does that answers a next state, from a state in which `seq` holds the steps after it. `e` is the
environment after a draw. -/
inductive Moved : Micro → State → State → Prop where
  | raised (m : Micro) (s : State) (c : FaultCode) (e : Env) (pc : PollCounts) (os : List EventS) (od : List EventD)
      (hm : m.mayRaise = true) (he : e.sched = s.env.sched) (ho : OneEvent s.obs.portS s.obs.portD os od)
      (ht : m = .shutRet → s.ctl.tearing = false) :
      Moved m s (raise c
        { s with
          ctl.poll := pc
          ctl.shutErr := if m = .shutRet then none else s.ctl.shutErr
          env := e
          obs.portS := os
          obs.portD := od })
  | selectS (s : State) :
      Moved (.select .S) s { s with lines.csS := s.cfg.csActive, obs.portS := .select :: s.obs.portS }
  | selectD (s : State) :
      Moved (.select .D) s { s with lines.csD := s.cfg.csActive, obs.portD := .select :: s.obs.portD }
  | deselectS (s : State) :
      Moved (.deselect .S) s { s with lines.csS := s.cfg.csActive.not, obs.portS := .deselect :: s.obs.portS }
  | deselectD (s : State) :
      Moved (.deselect .D) s { s with lines.csD := s.cfg.csActive.not, obs.portD := .deselect :: s.obs.portD }
  | writeNone (p : Port) (s : State) : Moved (.spiWrite p []) s s
  | writeS (b : Byte) (bs : List Byte) (s : State) (e : Env) (he : e.sched = s.env.sched) :
      Moved (.spiWrite .S (b :: bs)) s
        { s with
          ctl.seq := if bs = [] then s.ctl.seq else .spiWrite .S bs :: s.ctl.seq
          env := e
          obs.portS := .write b true :: s.obs.portS }
  | writeD (b : Byte) (bs : List Byte) (s : State) (e : Env) (he : e.sched = s.env.sched) :
      Moved (.spiWrite .D (b :: bs)) s
        { s with
          ctl.seq := if bs = [] then s.ctl.seq else .spiWrite .D bs :: s.ctl.seq
          env := e
          obs.portD := .write b true :: s.obs.portD }
  | sendBufNone (i n : Nat) (s : State) (h : n ≤ i) : Moved (.sendBuf i n) s s
  | sendBuf (i n : Nat) (b : Byte) (s : State) (e : Env) (h : i < n) (he : e.sched = s.env.sched) :
      Moved (.sendBuf i n) s
        { s with
          ctl.seq := if i + 1 < n then .sendBuf (i + 1) n :: s.ctl.seq else s.ctl.seq
          env := e
          obs.portD := .write b true :: s.obs.portD }
  | driveRst (v : Level) (s : State) :
      Moved (.drive .rst v) s { s with lines.rst := v, obs.portD := .drive .rst v :: s.obs.portD }
  | driveDc (v : Level) (s : State) :
      Moved (.drive .dc v) s { s with lines.dc := v, obs.portD := .drive .dc v :: s.obs.portD }
  | hold (h : HoldKind) (s : State) : Moved (.hold h) s { s with obs.portD := .hold h :: s.obs.portD }
  | enter (l : Loop) (s : State) : Moved (.enter l) s (setPoll l (some 0) s)
  | frame (w w' : BitVec 48) (s : State) :
      Moved (.frame w) s
        { s with
          lines.csS := s.cfg.csActive
          ctl.seq := [.spiWrite .S (frameBytes w'), .enter .r1, .r1Poll, .deselect .S, .spiWrite .S [0xFF#8]] ++ s.ctl.seq
          obs.portS := .select :: s.obs.portS }
  | r1Again (s : State) (n : Nat) (e : Env) (o : EventS) (he : e.sched = s.env.sched)
      (hn : aboveLimit s.cfg.pollLimit n = false) (hc : n = s.ctl.poll.r1.getD 0 + 1) :
      Moved .r1Poll s
        { s with
          ctl.seq := .r1Poll :: s.ctl.seq
          ctl.poll.r1 := some n
          env := e
          obs.portS := o :: s.obs.portS }
  | r1Got (s : State) (b : Byte) (e : Env) (o : EventS) (he : e.sched = s.env.sched) (hb : b ≠ 0xFF#8) :
      Moved .r1Poll s
        { s with regs.lastR1 := b, ctl.poll.r1 := none, env := e, obs.portS := o :: s.obs.portS }
  | tokenAgain (s : State) (n : Nat) (e : Env) (o : EventS) (he : e.sched = s.env.sched)
      (hn : aboveLimit s.cfg.pollLimit n = false) (hc : n = s.ctl.poll.tok.getD 0 + 1) :
      Moved .tokenPoll s
        { s with
          ctl.seq := .tokenPoll :: s.ctl.seq
          ctl.poll.tok := some n
          env := e
          obs.portS := o :: s.obs.portS }
  | tokenGot (s : State) (e : Env) (o : EventS) (he : e.sched = s.env.sched) :
      Moved .tokenPoll s { s with ctl.poll.tok := none, env := e, obs.portS := o :: s.obs.portS }
  | payloadNone (i n : Nat) (s : State) (h : n ≤ i) : Moved (.payload i n) s s
  | payload (i n : Nat) (b : Byte) (s : State) (e : Env) (o : EventS) (h : i < n) (hi : i < 512)
      (he : e.sched = s.env.sched) :
      Moved (.payload i n) s
        { s with
          buf := s.buf.write i b
          ctl.seq := if i + 1 < n then .payload (i + 1) n :: s.ctl.seq else s.ctl.seq
          env := e
          obs.portS := o :: s.obs.portS }
  | trailer (s : State) (e : Env) (o : EventS) (he : e.sched = s.env.sched) :
      Moved .trailer s { s with env := e, obs.portS := o :: s.obs.portS }
  | dataPhase (n : Nat) (s : State) :
      Moved (.dataPhase n) s
        { s with
          lines.csS := s.cfg.csActive
          ctl.seq := [.enter .tok, .tokenPoll, .payload 0 n, .trailer, .trailer, .deselect .S] ++ s.ctl.seq
          obs.portS := .select :: s.obs.portS }
  | cmd0Loop (s : State) (n : Nat) (hn : aboveLimit s.cfg.pollLimit n = false) (hc : n = s.ctl.poll.cmd0.getD 0 + 1) :
      Moved .cmd0Loop s { s with ctl.seq := frameCmd0 :: .cmd0Test :: s.ctl.seq, ctl.poll.cmd0 := some n }
  | cmd0End (s : State) : Moved .cmd0Test s { s with ctl.poll.cmd0 := none }
  | cmd0Again (s : State) : Moved .cmd0Test s { s with ctl.seq := .cmd0Loop :: s.ctl.seq }
  | cmd8Other (s : State) : Moved .cmd8Test s s
  | a41Enter (s : State) : Moved .a41Enter s { s with ctl.first41 := true, ctl.poll.a41 := some 0 }
  | a41Loop (s : State) (n : Nat) (hn : aboveLimit s.cfg.pollLimit n = false) (hc : n = s.ctl.poll.a41.getD 0 + 1) :
      Moved .a41Loop s
        { s with ctl.seq := frameCmd55 s.cfg :: frameCmd41 s.cfg :: .cmd41Test :: s.ctl.seq, ctl.poll.a41 := some n }
  | cmd41End (s : State) : Moved .cmd41Test s { s with ctl.first41 := false, ctl.poll.a41 := none }
  | cmd41Again (s : State) : Moved .cmd41Test s { s with ctl.seq := .a41Loop :: s.ctl.seq, ctl.first41 := false }
  | setSdReady (s : State) : Moved .setSdReady s { s with regs.sdReady := true }
  | cmd17Ok (s : State) : Moved .cmd17Test s s
  | cmd18Ok (s : State) : Moved .cmd18Test s s
  | setOwner (o : Owner) (s : State) : Moved (.setOwner o) s { s with regs.owner := o }
  | itBegin (start : Word) (who : Owner) (s : State) : Moved (.itBegin start who) s (stepItBegin start who s)
  | pullChunk (s : State) (h : s.regs.iterCur < s.regs.iterEnd) :
      Moved .itPull s
        { s with
          regs.iterCur := BitVec.ofNat 32 (s.regs.iterCur.toNat + nextChunk s.regs)
          ctl.seq := .dataPhase (nextChunk s.regs) :: .setChunkLen (nextChunk s.regs) :: s.ctl.seq }
  | pullLast (s : State) (h : ¬ s.regs.iterCur < s.regs.iterEnd) (h' : s.regs.iterEnded = false) :
      Moved .itPull s { s with ctl.seq := frameCmd12 s.cfg :: .pullEnd :: s.ctl.seq }
  | pullAfter (s : State) (h : ¬ s.regs.iterCur < s.regs.iterEnd) (h' : s.regs.iterEnded = true) :
      Moved .itPull s { s with regs.chunkLen := 0#10 }
  | setChunkLen (n : Nat) (s : State) : Moved (.setChunkLen n) s { s with regs.chunkLen := BitVec.ofNat 10 n }
  | pullEnd (s : State) :
      Moved .pullEnd s { s with regs.owner := .none, regs.iterEnded := true, regs.chunkLen := 0#10 }
  | dropSends (s : State) (h : s.regs.iterActive = true) (h' : s.regs.iterEnded = false) :
      Moved .itDrop s { s with ctl.seq := frameCmd12 s.cfg :: .dropEnd :: s.ctl.seq }
  | dropClears (s : State) (h : s.regs.iterActive = false ∨ s.regs.iterEnded = true) : Moved .itDrop s (clearIter s)
  | dropEnd (s : State) : Moved .dropEnd s (clearIter { s with regs.owner := .none })
  | opcode (b : Byte) (s : State) (params : List Byte) :
      Moved (.dispOp b) s
        { s with
          lines.dc := s.cfg.dcCmd
          ctl.seq := [.select .D, .spiWrite .D [b], .deselect .D] ++
            ((if params = [] then [] else [.dispData params]) ++ s.ctl.seq)
          obs.portD := .drive .dc s.cfg.dcCmd :: s.obs.portD }
  | dispCmd (b : Byte) (s : State) :
      Moved (.dispCmd b) s
        { s with
          lines.dc := s.cfg.dcCmd
          ctl.seq := [.select .D, .spiWrite .D [b], .deselect .D] ++ s.ctl.seq
          obs.portD := .drive .dc s.cfg.dcCmd :: s.obs.portD }
  | dispData (bs : List Byte) (s : State) :
      Moved (.dispData bs) s
        { s with
          lines.dc := s.cfg.dcData
          ctl.seq := [.select .D, .spiWrite .D bs, .deselect .D] ++ s.ctl.seq
          obs.portD := .drive .dc s.cfg.dcData :: s.obs.portD }
  | dispBuf (n : Nat) (s : State) :
      Moved (.dispBuf n) s
        { s with
          lines.dc := s.cfg.dcData
          ctl.seq := [.select .D, .sendBuf 0 n, .deselect .D] ++ s.ctl.seq
          obs.portD := .drive .dc s.cfg.dcData :: s.obs.portD }
  | busyLoop (s : State) (n : Nat) (hn : aboveLimit s.cfg.pollLimit n = false) (hc : n = s.ctl.poll.bsy.getD 0 + 1) :
      Moved .busyLoop s { s with ctl.seq := .dispOp 0x71#8 :: .busySample :: s.ctl.seq, ctl.poll.bsy := some n }
  | busyAgain (s : State) (v : Config.BusySample) (e : Env) (he : e.sched = s.env.sched) :
      Moved .busySample s
        { s with
          ctl.seq := .hold .tPoll :: .busyLoop :: s.ctl.seq
          env := e
          obs.portD := .busy v :: s.obs.portD }
  | busyDone (s : State) (v : Config.BusySample) (e : Env) (he : e.sched = s.env.sched) :
      Moved .busySample s { s with ctl.poll.bsy := none, env := e, obs.portD := .busy v :: s.obs.portD }
  | setDispReady (s : State) : Moved .setDispReady s { s with regs.dispReady := true }
  | refreshLoop (s : State) : Moved .refreshLoop s { s with ctl.seq := .itPull :: .refreshTest :: s.ctl.seq }
  | refreshEnd (s : State) (h : s.regs.chunkLen = 0#10) : Moved .refreshTest s s
  | refreshAgain (s : State) (h : s.regs.chunkLen ≠ 0#10) :
      Moved .refreshTest s { s with ctl.seq := .dispBuf s.regs.chunkLen.toNat :: .refreshLoop :: s.ctl.seq }
  | redFillEnd (s : State) : Moved (.redFill 0) s s
  | redFill (rem : Nat) (h : rem ≠ 0) (s : State) :
      Moved (.redFill rem) s
        { s with ctl.seq := .dispData (List.replicate (min 512 rem) 0x00#8) :: .redFill (rem - 512) :: s.ctl.seq }
  | shutBegin (s : State) : Moved .shutBegin s { s with regs.dispReady := false, ctl.shutErr := none }
  | shutDeselect (s : State) (h : s.ctl.shutErr ≠ none) (h' : s.lines.csD = s.cfg.csActive) :
      Moved .shutEnd s { s with lines.csD := s.cfg.csActive.not, obs.portD := .deselect :: s.obs.portD }
  | shutEnd (s : State) (h : s.ctl.shutErr = none ∨ s.lines.csD ≠ s.cfg.csActive) : Moved .shutEnd s s
  | shutRetTearing (s : State) (h : s.ctl.tearing = true) : Moved .shutRet s { s with ctl.shutErr := none }
  | shutRet (s : State) (h : s.ctl.tearing = false) (h' : s.ctl.shutErr = none) : Moved .shutRet s s
  | haltEnd (s : State) : Moved .haltEnd s (finishHalt s)

/-- A transfer on port S: what it goes on with, or the fault. -/
theorem spiXfer_moved {m : Micro} {o : Byte} {k : Byte → State → Result} {s t : State} {pc : PollCounts}
    (hm : m.mayRaise = true) (hs : m ≠ .shutRet)
    (hk : ∀ (i : Byte) (e : Env), e.sched = s.env.sched →
      k i { s with ctl.poll := pc, env := e, obs.portS := .xfer o (some i) :: s.obs.portS } = .next t → Moved m s t)
    (h : spiXfer o k { s with ctl.poll := pc } = .next t) : Moved m s t := by
  obtain ⟨e, he, h' | h'⟩ := spiXfer_cases o k { s with ctl.poll := pc }
  · obtain ⟨i, h'⟩ := h'
    rw [h'] at h
    exact hk i e he h
  · rw [h'] at h
    cases h
    have := Moved.raised m s .storageBus e pc (.xfer o none :: s.obs.portS) s.obs.portD hm he (.storage _)
      (fun h => absurd h hs)
    simpa [hs, emitS] using this

/-- One byte written: what it goes on with, or the fault. -/
theorem spiByte_moved {m : Micro} {p : Port} {b : Byte} {k : State → State} {s t : State} {e0 : Env}
    (he0 : e0.sched = s.env.sched) (hm : m.mayRaise = true) (hs : m ≠ .shutRet)
    (hS : p = .S → ∀ e : Env, e.sched = s.env.sched →
      Moved m s (k { s with env := e, obs.portS := .write b true :: s.obs.portS }))
    (hD : p = .D → ∀ e : Env, e.sched = s.env.sched →
      Moved m s (k { s with env := e, obs.portD := .write b true :: s.obs.portD }))
    (h : t = spiByte p b k { s with env := e0 }) : Moved m s t := by
  subst h
  rcases spiByte_cases p b k { s with env := e0 } with ⟨hp, e, he, h⟩ | ⟨hp, e, he, h⟩ | ⟨-, e, he, h⟩ | ⟨-, e, he, h⟩ <;>
    rw [h]
  · exact hS hp e (he.trans he0)
  · exact hD hp e (he.trans he0)
  · have := Moved.raised m s .storageBus e s.ctl.poll (.write b false :: s.obs.portS) s.obs.portD hm (he.trans he0)
      (.storage _) (fun h => absurd h hs)
    simpa [hs, emitS] using this
  · have := Moved.raised m s .displayBus e s.ctl.poll s.obs.portS (.write b false :: s.obs.portD) hm (he.trans he0)
      (.panel _) (fun h => absurd h hs)
    simpa [hs, emitD] using this

/-- An iteration of a loop: what it goes on with, or F_UNRESPONSIVE. -/
theorem poll_moved {m : Micro} {l : Loop} {k : State → Result} {s t : State} (hm : m.mayRaise = true) (hs : m ≠ .shutRet)
    (hk : ∀ n, n = (pollCount l s).getD 0 + 1 → aboveLimit s.cfg.pollLimit n = false →
      k (setPoll l (some n) s) = .next t → Moved m s t)
    (h : poll l k s = .next t) : Moved m s t := by
  simp only [poll] at h
  split at h
  · cases h
    have : setPoll l (some ((pollCount l s).getD 0 + 1)) s =
        { s with ctl.poll := (setPoll l (some ((pollCount l s).getD 0 + 1)) s).ctl.poll } := by cases l <;> rfl
    have h2 := Moved.raised m s .unresponsive s.env (setPoll l (some ((pollCount l s).getD 0 + 1)) s).ctl.poll s.obs.portS
      s.obs.portD hm rfl .none (fun h => absurd h hs)
    rw [this]
    simpa [hs] using h2
  · rename_i hl
    exact hk _ rfl (by simpa using hl) h

/-- A test that raises a fault. -/
theorem raised_moved {m : Micro} {s : State} (c : FaultCode) (hm : m.mayRaise = true) (hs : m ≠ .shutRet) :
    Moved m s (raise c s) := by
  have := Moved.raised m s c s.env s.ctl.poll s.obs.portS s.obs.portD hm rfl .none (fun h => absurd h hs)
  simpa [hs] using this

/-- Sending a display opcode, with or without parameter bytes. -/
theorem startDispOp_moved (b : Byte) (params : List Byte) (s : State) : Moved (.dispOp b) s (startDispOp b params s) := by
  have := Moved.opcode b s params
  by_cases h : params = []
  · simpa [startDispOp, startDCmd, h, push, setSeq, doDrive, emitD] using this
  · simpa [startDispOp, startDCmd, h, push, setSeq, doDrive, emitD] using this

/-- Every micro-step that answers a next state is one of these. -/
theorem microStep_moved {m : Micro} {s t : State} (h : microStep m s = .next t) : Moved m s t := by
  cases m with
  | select p => cases p <;> cases h <;> constructor
  | deselect p => cases p <;> cases h <;> constructor
  | spiWrite p bs =>
    cases h
    cases bs with
    | nil => exact .writeNone p s
    | cons b bs =>
      simp only [stepSpiWrite]
      refine spiByte_moved (s := s) (e0 := s.env) rfl rfl (by simp) ?_ ?_ rfl
      · rintro rfl e he
        have := Moved.writeS b bs s e he
        split <;> simpa [*, push, setSeq] using this
      · rintro rfl e he
        have := Moved.writeD b bs s e he
        split <;> simpa [*, push, setSeq] using this
  | sendBuf i n =>
    simp only [microStep, stepSendBuf] at h
    split at h
    · cases h
      exact .sendBufNone i n s ‹_›
    · rename_i hi
      split at h
      · cases h
      · obtain ⟨d, hd⟩ := bufRead_draws i s
        cases h
        rw [hd]
        refine spiByte_moved (m := .sendBuf i n) (p := .D) (s := s) (e0 := { s.env with draws := d }) rfl rfl (by simp)
          (by intro hp; cases hp) ?_ rfl
        intro _ e he
        have := Moved.sendBuf i n (bufRead i s).1 s e (by omega) he
        split <;> simpa [*, push, setSeq] using this
  | drive l v => cases l <;> cases h <;> constructor
  | hold k => cases h; exact .hold k s
  | enter l => cases h; exact .enter l s
  | frame w =>
    simp only [microStep, runFrame] at h
    split at h
    · rename_i i hi
      simp only [decode, decodeFrame] at hi
      split at hi
      · cases hi
      · split at hi
        · cases hi
        · rename_i j hj
          cases hi
          unfold cardCommandMap at hj
          split at hj <;> cases hj <;> cases h <;> exact .frame w _ s
    · cases h
  | r1Poll =>
    refine poll_moved (m := .r1Poll) rfl (by simp) ?_ h
    intro n hn hl h
    refine spiXfer_moved (m := .r1Poll) rfl (by simp) ?_ h
    intro i e he h
    simp only [runToken, decode] at h
    by_cases hi : i = 0xFF#8
    · simp only [hi, if_true] at h
      cases h
      exact .r1Again s n e _ he hl hn
    · simp only [hi, if_false] at h
      cases h
      exact .r1Got s i e _ he hi
  | tokenPoll =>
    refine poll_moved (m := .tokenPoll) rfl (by simp) ?_ h
    intro n hn hl h
    refine spiXfer_moved (m := .tokenPoll) rfl (by simp) ?_ h
    intro i e he h
    simp only [runToken, decode] at h
    by_cases hi : i = 0xFE#8
    · simp only [hi, if_true] at h
      cases h
      exact .tokenGot s e _ he
    · simp only [hi, if_false] at h
      cases h
      exact .tokenAgain s n e _ he hl hn
  | payload i n =>
    simp only [microStep, stepPayload] at h
    split at h
    · cases h
      exact .payloadNone i n s ‹_›
    · split at h
      · cases h
      · rename_i h1 h2
        refine spiXfer_moved (m := .payload i n) (pc := s.ctl.poll) rfl (by simp) ?_ h
        intro b e he h
        cases h
        have := Moved.payload i n b s e (.xfer s.cfg.fillRd (some b)) (by omega) (by simp only [bufSize] at h2; omega) he
        split <;> simpa [*, push, setSeq, bufWrite] using this
  | trailer =>
    refine spiXfer_moved (m := .trailer) (pc := s.ctl.poll) rfl (by simp) ?_ h
    intro b e he h
    cases h
    exact .trailer s e _ he
  | dataPhase n => cases h; exact .dataPhase n s
  | cmd0Loop =>
    simp only [microStep, stepCmd0Loop] at h
    refine poll_moved (m := .cmd0Loop) rfl (by simp) ?_ h
    intro n hn hl h
    cases h
    exact .cmd0Loop s n hl hn
  | cmd0Test =>
    cases h
    simp only [stepCmd0Test]
    split
    · exact .cmd0End s
    · exact .cmd0Again s
  | cmd8Test =>
    cases h
    simp only [stepCmd8Test]
    split
    · exact raised_moved _ rfl (by simp)
    · exact .cmd8Other s
  | a41Enter => cases h; exact .a41Enter s
  | a41Loop =>
    simp only [microStep, stepA41Loop] at h
    refine poll_moved (m := .a41Loop) rfl (by simp) ?_ h
    intro n hn hl h
    cases h
    exact .a41Loop s n hl hn
  | cmd41Test =>
    cases h
    simp only [stepCmd41Test]
    split
    · exact raised_moved _ rfl (by simp)
    · split
      · exact .cmd41End s
      · exact .cmd41Again s
  | setSdReady => cases h; exact .setSdReady s
  | cmd17Test =>
    cases h
    simp only [stepCmd17Test]
    split
    · exact .cmd17Ok s
    · exact raised_moved _ rfl (by simp)
  | cmd18Test =>
    cases h
    simp only [stepCmd18Test]
    split
    · exact .cmd18Ok s
    · exact raised_moved _ rfl (by simp)
  | setOwner o => cases h; exact .setOwner o s
  | itBegin start who => cases h; exact .itBegin start who s
  | itPull =>
    cases h
    simp only [stepItPull]
    split
    · exact .pullChunk s ‹_›
    · rename_i h1
      split
      · exact .pullLast s h1 ‹_›
      · rename_i h2
        exact .pullAfter s h1 (by simpa using h2)
  | setChunkLen n => cases h; exact .setChunkLen n s
  | pullEnd => cases h; exact .pullEnd s
  | itDrop =>
    cases h
    simp only [stepItDrop]
    split
    · rename_i h1
      exact .dropSends s h1.1 h1.2
    · rename_i h1
      refine .dropClears s ?_
      revert h1
      cases s.regs.iterActive <;> cases s.regs.iterEnded <;> simp
  | dropEnd => cases h; exact .dropEnd s
  | dispOp b =>
    simp only [microStep, runDispOp] at h
    split at h
    · rename_i i hi
      simp only [decode] at hi
      split at hi
      · cases hi
      · rename_i j hj
        cases hi
        unfold displayOpcodeMap at hj
        split at hj <;> cases hj <;> cases h <;> exact startDispOp_moved _ _ s
    · cases h
      have := Moved.opcode b s []
      simpa [startDCmd, push, setSeq, doDrive, emitD] using this
  | dispCmd b => cases h; exact .dispCmd b s
  | dispData bs => cases h; exact .dispData bs s
  | dispBuf n => cases h; exact .dispBuf n s
  | busyLoop =>
    simp only [microStep, stepBusyLoop] at h
    refine poll_moved (m := .busyLoop) rfl (by simp) ?_ h
    intro n hn hl h
    cases h
    exact .busyLoop s n hl hn
  | busySample =>
    cases h
    obtain ⟨e, he, hd⟩ := drawBusy_spec s
    simp only [stepBusySample, hd]
    split
    · exact .busyAgain s _ e he
    · exact .busyDone s _ e he
  | setDispReady => cases h; exact .setDispReady s
  | refreshLoop => cases h; exact .refreshLoop s
  | refreshTest =>
    cases h
    simp only [stepRefreshTest]
    split
    · exact .refreshEnd s ‹_›
    · exact .refreshAgain s ‹_›
  | redFill n =>
    cases h
    simp only [stepRedFill]
    split
    · rename_i hn
      subst hn
      exact .redFillEnd s
    · exact .redFill n ‹_› s
  | shutBegin => cases h; exact .shutBegin s
  | shutEnd =>
    cases h
    simp only [stepShutEnd]
    split
    · rename_i h1
      exact .shutDeselect s h1.1 h1.2
    · rename_i h1
      refine .shutEnd s ?_
      by_cases h2 : s.ctl.shutErr = none
      · exact .inl h2
      · exact .inr (fun h3 => h1 ⟨h2, h3⟩)
  | shutRet =>
    cases h
    simp only [stepShutRet]
    split
    · exact .shutRetTearing s ‹_›
    · rename_i h1
      split
      · exact .shutRet s (by simpa using h1) ‹_›
      · rename_i c hc
        have := Moved.raised .shutRet s c s.env s.ctl.poll s.obs.portS s.obs.portD rfl rfl .none
          (fun _ => by simpa using h1)
        simpa using this
  | haltEnd => cases h; exact .haltEnd s

end Sys2Proof.Machine
end

