-- ==== Sys2Proof/Laws/Preserve.lean ====
section
/-! SUPPORT. Lemmas about what keeps the invariants of Safety.lean: host writes, where a fault leads, the teardown, the
frames and programs the operations run, and the two checks over lists of micro-steps. -/

namespace Sys2Proof.Machine

/-! Host writes below CMD. -/

@[simp] theorem writeWord_cfg (offset : Nat) (v : Word) (s : State) : (writeWord offset v s).cfg = s.cfg := by
  simp only [writeWord, writeBufWord]
  repeat' split
  all_goals rfl

@[simp] theorem writeWord_ctl (offset : Nat) (v : Word) (s : State) : (writeWord offset v s).ctl = s.ctl := by
  simp only [writeWord, writeBufWord]
  repeat' split
  all_goals rfl

@[simp] theorem writeWord_lines (offset : Nat) (v : Word) (s : State) : (writeWord offset v s).lines = s.lines := by
  simp only [writeWord, writeBufWord]
  repeat' split
  all_goals rfl

@[simp] theorem writeWord_env (offset : Nat) (v : Word) (s : State) : (writeWord offset v s).env = s.env := by
  simp only [writeWord, writeBufWord]
  repeat' split
  all_goals rfl

@[simp] theorem writeWord_obs (offset : Nat) (v : Word) (s : State) : (writeWord offset v s).obs = s.obs := by
  simp only [writeWord, writeBufWord]
  repeat' split
  all_goals rfl

/-- A host write changes ARG and LEN only, and nothing while RUNNING = 1. -/
theorem writeWord_regs (offset : Nat) (v : Word) (s : State) :
    ∃ a l, (writeWord offset v s).regs = { s.regs with arg := a, len := l } ∧
      (s.regs.running = true → writeWord offset v s = s) := by
  simp only [writeWord, writeBufWord]
  repeat' split
  all_goals first
    | exact ⟨s.regs.arg, s.regs.len, rfl, fun _ => rfl⟩
    | exact ⟨s.regs.arg, s.regs.len, rfl, fun h => absurd h ‹_›⟩
    | exact ⟨_, s.regs.len, rfl, fun h => absurd h ‹_›⟩
    | exact ⟨s.regs.arg, _, rfl, fun h => absurd h ‹_›⟩

theorem writeWord_wf {offset : Nat} {s : State} (v : Word) (h4 : offset % 4 = 0) (hlt : offset < 0x400)
    (hb : s.buf.wf = true) : (writeWord offset v s).buf.wf = true := by
  simp only [writeWord]
  repeat' split
  all_goals try exact hb
  exact writeBufWord_wf hb (by omega) v

/-! Where a fault leads. -/

/-- The micro-steps after a fault: those from the return point of `Shutdown()`, or the teardown. -/
theorem raise_seq (c : FaultCode) (s : State) :
    (∃ p, catchPoint s.ctl.seq = some p ∧ (raise c s).ctl.seq = p ∧ (raise c s).regs = s.regs) ∨
      (catchPoint s.ctl.seq = none ∧ (raise c s).ctl.seq = teardown s) := by
  simp only [raise]
  split
  · rename_i p hp
    exact .inl ⟨p, hp, rfl, rfl⟩
  · rename_i hp
    exact .inr ⟨hp, rfl⟩

theorem catchPoint_cons {m : Micro} (h : m ≠ .shutEnd) (q : List Micro) : catchPoint (m :: q) = catchPoint q := by
  cases m <;> first | rfl | exact absurd rfl h

/-- What holds of the teardown's steps holds of each of them. -/
theorem teardown_forall (P : Micro → Prop) (s : State) (h1 : ∀ p, P (.deselect p)) (h2 : ∀ m ∈ shutdown, P m)
    (h3 : P .haltEnd) : ∀ m ∈ teardown s, P m := by
  intro m hm
  simp only [teardown, List.mem_append] at hm
  rcases hm with ((hm | hm) | hm) | hm
  · split at hm <;> simp_all
  · split at hm <;> simp_all
  · split at hm <;> simp_all
  · simp_all

theorem teardown_bounded (s : State) : ∀ m ∈ teardown s, m.bounded s.cfg = true :=
  teardown_forall _ s (fun _ => rfl) (by simp [shutdown, waitIdle, shutdownTail, Micro.bounded]) rfl

/-- An encoding of a card command is its frame. -/
theorem encode_frame {i : Instr} {w : BitVec 48} (h : encode i = .frame w) :
    ∃ idx arg chk, w = frameWord idx arg chk ∧ cardCommandMap idx arg chk = some i := by
  cases i <;> simp [encode] at h <;> subst h <;> exact ⟨_, _, _, rfl, rfl⟩

/-! Bounds of the frames and programs (StepsBounded). -/

theorem frameCmd0_bounded (p : Config.Params) : frameCmd0.bounded p = true := rfl

theorem frameCmd8_bounded (p : Config.Params) : frameCmd8.bounded p = true := rfl

theorem frameCmd55_bounded (p : Config.Params) : (frameCmd55 p).bounded p = true := by
  simp [frameCmd55, Micro.bounded, decode_frameWord 55#6 _ _ rfl, Instr.wf]

theorem frameCmd41_bounded (p : Config.Params) : (frameCmd41 p).bounded p = true := by
  simp [frameCmd41, Micro.bounded, decode_frameWord 41#6 _ _ rfl, Instr.wf]

theorem frameCmd12_bounded (p : Config.Params) : (frameCmd12 p).bounded p = true := by
  simp [frameCmd12, Micro.bounded, decode_frameWord 12#6 _ _ rfl, Instr.wf]

theorem frameCmd18_bounded (p : Config.Params) (a : Word) : (frameCmd18 p a).bounded p = true := by
  simp [frameCmd18, Micro.bounded, decode_frameWord 18#6 _ _ rfl, Instr.wf]

theorem frameCmd17_bounded (p : Config.Params) (a : Word) (h : a.toNat % 512 = 0) : (frameCmd17 p a).bounded p = true := by
  simp [frameCmd17, Micro.bounded, decode_frameWord 17#6 _ _ rfl, Instr.wf, h]

theorem initStep_bounded (p : Config.Params) (a : Config.InitStep) : ∀ m ∈ initStep a, m.bounded p = true := by
  cases a <;> simp [initStep, waitIdle, Micro.bounded]

theorem forall_cons {P : Micro → Prop} {m : Micro} {q : List Micro} (h : P m) (hq : ∀ x ∈ q, P x) : ∀ x ∈ m :: q, P x := by
  intro x hx
  rcases List.mem_cons.mp hx with rfl | hx
  · exact h
  · exact hq x hx

theorem forall_nil {P : Micro → Prop} : ∀ x ∈ ([] : List Micro), P x := by
  intro x hx
  cases hx

/-- Every operation whose operands are checked runs micro-steps within their bounds. -/
theorem program_bounded {s : State} {i : Instr} {q : List Micro} (hq : Program s i q) (ho : operandCheck i s = true) :
    ∀ m ∈ q, m.bounded s.cfg = true := by
  have hplane : ∀ n : Nat, n + s.cfg.planeLen ≤ 0xFFFFFFFF → (BitVec.ofNat 32 n).toNat + s.cfg.planeLen ≤ 0xFFFFFFFF := by
    intro n h
    rw [BitVec.toNat_ofNat, Nat.mod_eq_of_lt] <;> omega
  cases hq
  case sdInit =>
    exact forall_cons rfl (forall_cons rfl (forall_cons rfl (forall_cons rfl (forall_cons (frameCmd8_bounded _)
      (forall_cons rfl (forall_cons rfl (forall_cons rfl (forall_cons rfl forall_nil))))))))
  case sdReadSector =>
    simp only [operandCheck, Bool.and_eq_true, decide_eq_true_eq] at ho
    refine forall_cons (frameCmd17_bounded _ _ ?_) (forall_cons rfl (forall_cons ?_ forall_nil))
    · simp only [sectorArg, BitVec.toNat_ofNat]
      omega
    · simpa [Micro.bounded] using ho.1.2
  case sdReadStart => exact forall_cons (frameCmd18_bounded _ _) (forall_cons rfl (forall_cons rfl forall_nil))
  case sdReadNext =>
    simp only [operandCheck, Bool.and_eq_true, decide_eq_true_eq] at ho
    exact forall_cons (by simpa [Micro.bounded] using ho.2) forall_nil
  case sdReadEnd => exact forall_cons (frameCmd12_bounded _) (forall_cons rfl forall_nil)
  case iterStart p =>
    simp only [operandCheck, decide_eq_true_eq] at ho
    exact forall_cons (frameCmd18_bounded _ _) (forall_cons rfl (forall_cons
      (decide_eq_true (hplane (planeStart p s) ho)) forall_nil))
  case iterPull => exact forall_cons rfl forall_nil
  case iterDrop => exact forall_cons rfl forall_nil
  case dispInit =>
    intro m hm
    simp only [dispInitSteps, resetPulse, List.cons_append, List.nil_append, List.mem_cons, List.mem_append,
      List.mem_flatMap, List.not_mem_nil, or_false] at hm
    rcases hm with rfl | rfl | rfl | rfl | ⟨a, -, hm⟩ | rfl
    · rfl
    · rfl
    · rfl
    · rfl
    · exact initStep_bounded _ _ _ hm
    · rfl
  case dispCmd => exact forall_cons rfl forall_nil
  case dispData =>
    simp only [operandCheck, Bool.and_eq_true, decide_eq_true_eq] at ho
    exact forall_cons (by simpa [Micro.bounded] using ho.2) forall_nil
  case dispWaitIdle => exact forall_cons rfl (forall_cons rfl forall_nil)
  case dispRefresh =>
    simp only [operandCheck, decide_eq_true_eq] at ho
    exact forall_cons (frameCmd18_bounded _ _) (forall_cons rfl (forall_cons
      (decide_eq_true (hplane (planeStart false s) ho))
      (forall_cons rfl (forall_cons rfl (forall_cons rfl (forall_cons rfl (forall_cons rfl (forall_cons rfl
        (forall_cons rfl (forall_cons rfl (forall_cons rfl forall_nil)))))))))))
  case dispShutdown =>
    intro m hm
    simp only [shutdown, waitIdle, shutdownTail, List.cons_append, List.nil_append, List.mem_cons, List.not_mem_nil,
      or_false] at hm
    rcases hm with rfl | rfl | rfl | rfl | rfl | rfl | rfl | rfl | rfl <;> rfl

/-! The chunk sequence's lifecycle (SequenceSound). -/

theorem sequenceOk_offSequence {p : Config.Params} {q : List Micro} (h : q.all Micro.offSequence = true) (a l : Bool) :
    sequenceOk p a l q = true := by
  induction q generalizing a l with
  | nil => rfl
  | cons m q ih =>
    simp only [List.all_cons, Bool.and_eq_true] at h
    obtain ⟨h1, h2⟩ := h
    cases m <;> first
      | (simp [Micro.offSequence] at h1; done)
      | exact ih h2 _ _
      | exact h2

/-- What is sound of an unexhausted sequence is sound of an exhausted one. -/
theorem sequenceOk_exhausted {p : Config.Params} {q : List Micro} {a : Bool} (h : sequenceOk p a true q = true) :
    sequenceOk p a false q = true := by
  induction q generalizing a with
  | nil => rfl
  | cons m q ih =>
    cases m <;> simp only [sequenceOk, Bool.and_eq_true] at h ⊢ <;> first
      | exact h
      | exact ih h
      | exact ⟨h.1, ih h.2⟩
      | exact ⟨by simp, ih h.2⟩

theorem sequenceOk_catchPoint {p : Config.Params} {q r : List Micro} {a l : Bool} (h : sequenceOk p a l q = true)
    (hc : catchPoint q = some r) : r.all Micro.offSequence = true := by
  induction q generalizing a l with
  | nil => cases hc
  | cons m q ih =>
    by_cases hm : m = .shutEnd
    · subst hm
      simp only [catchPoint, Option.some.injEq] at hc
      subst hc
      simpa [sequenceOk, Micro.offSequence] using h
    · rw [catchPoint_cons hm] at hc
      cases m <;> simp only [sequenceOk, Bool.and_eq_true] at h <;> first
        | exact absurd rfl hm
        | exact ih h hc
        | exact ih h.2 hc

theorem sequenceOk_append {p : Config.Params} {q : List Micro} (r : List Micro) (h : q.all Micro.offSequence = true)
    (hn : Micro.shutEnd ∉ q) (a l : Bool) : sequenceOk p a l (q ++ r) = sequenceOk p a l r := by
  induction q with
  | nil => rfl
  | cons m q ih =>
    simp only [List.all_cons, Bool.and_eq_true, List.mem_cons, not_or] at h hn
    have := ih h.2 hn.2
    cases m <;> simp_all [sequenceOk, Micro.offSequence]

theorem teardown_offSequence (s : State) : (teardown s).all Micro.offSequence = true := by
  simp only [teardown, List.all_append, Bool.and_eq_true]
  refine ⟨⟨⟨?_, ?_⟩, ?_⟩, rfl⟩ <;> split <;> rfl

theorem initSteps_offSequence (l : List Config.InitStep) :
    (l.flatMap initStep).all Micro.offSequence = true ∧ Micro.shutEnd ∉ l.flatMap initStep := by
  induction l with
  | nil => exact ⟨rfl, by simp⟩
  | cons a l ih => cases a <;> simpa [List.flatMap_cons, initStep, waitIdle, Micro.offSequence] using ih

/-! The select discipline (SelectSound). -/

theorem Level.not_beq (l : Level) : (l.not == l) = false := by cases l <;> rfl

theorem selectOk_catchPoint {q r : List Micro} {cs cd : Bool} (h : selectOk cs cd q = true) (hc : catchPoint q = some r) :
    ∃ r', r = .shutEnd :: r' ∧ afterShutdown r' = true := by
  induction q generalizing cs cd with
  | nil => cases hc
  | cons m q ih =>
    simp only [selectOk, Bool.and_eq_true] at h
    by_cases hm : m = .shutEnd
    · subst hm
      simp only [catchPoint, Option.some.injEq] at hc
      exact ⟨q, hc.symm, h.1.2⟩
    · rw [catchPoint_cons hm] at hc
      exact ih h.2 hc

/-- The teardown keeps the select discipline from any levels of the select lines. -/
theorem teardown_selectOk (s : State) :
    selectOk (selectedS s) (selectedD s) (teardown s) = true ∧
      ((catchPoint (teardown s)).isNone = true ∨ (selectedS s = false ∧ shutdownOk (teardown s) = true) ∨
        ∃ q, teardown s = .deselect .S :: q ∧ shutdownOk q = true) := by
  have e : ∀ a b d : Bool, ∀ q, q = (if a = true then [.deselect .S] else []) ++ (if b = true then [.deselect .D] else []) ++
      (if d = true then shutdown else []) ++ [.haltEnd] →
      selectOk a b q = true ∧ ((catchPoint q).isNone = true ∨ (a = false ∧ shutdownOk q = true) ∨
        ∃ q', q = .deselect .S :: q' ∧ shutdownOk q' = true) := by
    intro a b d q h
    subst h
    cases a <;> cases b <;> cases d <;> refine ⟨by decide, ?_⟩
    all_goals first
      | exact .inl (by decide)
      | exact .inr (.inl (by decide))
      | exact .inr (.inr ⟨_, rfl, by decide⟩)
  exact e (selectedS s) (selectedD s) s.regs.dispReady _ (by simp only [teardown, selectedS, selectedD, beq_iff_eq])

theorem initSteps_selectOk (l : List Config.InitStep) :
    selectOk false false (l.flatMap initStep ++ [.setDispReady]) = true ∧
      (catchPoint (l.flatMap initStep ++ [.setDispReady])).isNone = true := by
  induction l with
  | nil => exact ⟨by decide, by decide⟩
  | cons a l ih => cases a <;> exact ih

end Sys2Proof.Machine
end

