-- ==== Sys2Proof/Laws/Turns.lean ====
section
/-! SUPPORT. No micro-step reads or changes the turns still to be taken: the engine's step commutes with the schedule. -/

namespace Sys2Proof.Machine

@[simp] theorem withTurns_next (q : List Turn) (s : State) : withTurns q (.next s) = .next (setSched q s) := rfl
@[simp] theorem withTurns_fault (q : List Turn) (r : Fault) : withTurns q (.fault r) = .fault r := rfl
@[simp] theorem withTurns_refused (q : List Turn) (r : Refusal) : withTurns q (.refused r) = .refused r := rfl

theorem next_setSched {q : List Turn} {s t : State} (h : t = setSched q s) : Host.Outcome.next t = withTurns q (.next s) :=
  congrArg Host.Outcome.next h

theorem ite_setSched (c : Prop) [Decidable c] (q : List Turn) (s t : State) :
    setSched q (if c then s else t) = if c then setSched q s else setSched q t := by split <;> rfl

theorem setSched_self {q : List Turn} {s : State} (h : s.env.sched = q) : setSched q s = s := by subst h; rfl

theorem emitS_setSched (e : EventS) (q : List Turn) (s : State) : emitS e (setSched q s) = setSched q (emitS e s) := rfl
theorem emitD_setSched (e : EventD) (q : List Turn) (s : State) : emitD e (setSched q s) = setSched q (emitD e s) := rfl
theorem push_setSched (l : List Micro) (q : List Turn) (s : State) : push l (setSched q s) = setSched q (push l s) := rfl
theorem setSeq_setSched (l : List Micro) (q : List Turn) (s : State) :
    setSeq l (setSched q s) = setSched q (setSeq l s) := rfl

theorem setPoll_setSched (l : Loop) (n : Option Nat) (q : List Turn) (s : State) :
    setPoll l n (setSched q s) = setSched q (setPoll l n s) := by cases l <;> rfl

theorem drawCard_setSched (q : List Turn) (s : State) :
    drawCard (setSched q s) = ((drawCard s).1, setSched q (drawCard s).2) := by
  simp only [drawCard, setSched_cardIn]
  split <;> rfl

theorem drawPanel_setSched (q : List Turn) (s : State) :
    drawPanel (setSched q s) = ((drawPanel s).1, setSched q (drawPanel s).2) := by
  simp only [drawPanel, setSched_panelIn]
  split <;> rfl

theorem drawBusy_setSched (q : List Turn) (s : State) :
    drawBusy (setSched q s) = ((drawBusy s).1, setSched q (drawBusy s).2) := by
  simp only [drawBusy, setSched_busyIn]
  split <;> rfl

theorem bufRead_setSched (i : Nat) (q : List Turn) (s : State) :
    bufRead i (setSched q s) = ((bufRead i s).1, setSched q (bufRead i s).2) := by
  simp only [bufRead, setSched_buf]
  split <;> rfl

theorem raise_setSched (c : FaultCode) (q : List Turn) (s : State) : raise c (setSched q s) = setSched q (raise c s) := by
  simp only [raise, setSched_ctl]
  split <;> rfl

theorem spiByte_setSched (p : Port) (b : Byte) {k : State → State} {q : List Turn}
    (hk : ∀ s, k (setSched q s) = setSched q (k s)) (s : State) :
    spiByte p b k (setSched q s) = setSched q (spiByte p b k s) := by
  cases p with
  | S =>
    simp only [spiByte, drawCard_setSched]
    obtain ⟨r, t⟩ := drawCard s
    cases r <;> simp only [emitS_setSched, raise_setSched, hk]
  | D =>
    simp only [spiByte, drawPanel_setSched]
    obtain ⟨r, t⟩ := drawPanel s
    cases r <;> simp only [emitD_setSched, raise_setSched, hk]

theorem spiXfer_setSched (o : Byte) {k : Byte → State → Result} {q : List Turn}
    (hk : ∀ i s, k i (setSched q s) = withTurns q (k i s)) (s : State) :
    spiXfer o k (setSched q s) = withTurns q (spiXfer o k s) := by
  simp only [spiXfer, drawCard_setSched]
  obtain ⟨r, t⟩ := drawCard s
  cases r <;> simp only [emitS_setSched, raise_setSched, hk, withTurns_next]

theorem poll_setSched (l : Loop) {k : State → Result} {q : List Turn}
    (hk : ∀ s, k (setSched q s) = withTurns q (k s)) (s : State) :
    poll l k (setSched q s) = withTurns q (poll l k s) := by
  have h : pollCount l (setSched q s) = pollCount l s := by cases l <;> rfl
  simp only [poll, h, setPoll_setSched, setSched_cfg]
  split
  · simp only [raise_setSched, withTurns_next]
  · exact hk _

theorem accept_setSched (opc : Byte) (p : Bool) {k : State → State} {q : List Turn}
    (hk : ∀ s, k (setSched q s) = setSched q (k s)) (s : State) :
    accept opc p k (setSched q s) = setSched q (accept opc p k s) := by
  cases h : s.regs.halted with
  | true => simp [accept, h]
  | false =>
    cases h' : s.regs.running with
    | true => simp only [accept, setSched_regs, h, h', if_true, if_false, Bool.false_eq_true]; rfl
    | false =>
      simp only [accept, setSched_regs, h, h', if_false, Bool.false_eq_true]
      exact hk { s with regs.running := true, regs.halted := false, ctl.op := some (opc, p) }

/-- The issue of an operation that the turns still to come do not bear on. -/
theorem issue_setSched (opc : Byte) (p pre operands : Bool) (prog : List Micro) (q : List Turn) (s : State) :
    issue opc p pre operands prog (setSched q s) = setSched q (issue opc p pre operands prog s) := by
  refine accept_setSched opc p (fun s => ?_) s
  split
  · rfl
  · split <;> rfl

theorem startDispOp_setSched (b : Byte) (params : List Byte) (q : List Turn) (s : State) :
    startDispOp b params (setSched q s) = setSched q (startDispOp b params s) := by
  simp only [startDispOp]
  split <;> rfl

/-- Every instruction, run with other turns still to come, does the same. -/
theorem exec_setSched (i : Instr) (q : List Turn) (s : State) : exec i (setSched q s) = withTurns q (exec i s) := by
  cases i <;> first
    | rfl
    | exact congrArg Host.Outcome.next (issue_setSched _ _ _ _ _ q s)
    | exact congrArg Host.Outcome.next (startDispOp_setSched _ _ q s)

theorem pollToken_setSched (l : Loop) (o : Byte) (wire : Byte → Wire) (again : Micro) (q : List Turn) (s : State) :
    pollToken l o wire again (setSched q s) = withTurns q (pollToken l o wire again s) := by
  refine poll_setSched l (fun s => spiXfer_setSched o (fun i s => ?_) s) s
  simp only [runToken]
  split
  · exact exec_setSched _ q s
  · rfl

theorem stepBusySample_setSched (q : List Turn) (s : State) :
    stepBusySample (setSched q s) = setSched q (stepBusySample s) := by
  simp only [stepBusySample, drawBusy_setSched, setSched_cfg]
  split <;> rfl

/-- Every micro-step, run with other turns still to come, does the same. -/
theorem microStep_setSched (m : Micro) (q : List Turn) (s : State) :
    microStep m (setSched q s) = withTurns q (microStep m s) := by
  cases m with
  | select p => cases p <;> rfl
  | deselect p => cases p <;> rfl
  | drive l v => cases l <;> rfl
  | enter l => cases l <;> rfl
  | spiWrite p bs =>
    cases bs with
    | nil => rfl
    | cons b bs =>
      simp only [microStep, stepSpiWrite, withTurns_next]
      rw [spiByte_setSched p b (fun s => by split <;> rfl) s]
  | sendBuf i n =>
    simp only [microStep, stepSendBuf, bufRead_setSched]
    split
    · rfl
    · split
      · rfl
      · refine congrArg Host.Outcome.next (spiByte_setSched .D _ (fun s => ?_) _)
        split <;> rfl
  | frame w =>
    simp only [microStep, runFrame]
    split
    · exact exec_setSched _ q s
    · rfl
  | dispOp b =>
    simp only [microStep, runDispOp]
    split
    · exact exec_setSched _ q s
    · rfl
  | r1Poll => exact pollToken_setSched _ _ _ _ q s
  | tokenPoll => exact pollToken_setSched _ _ _ _ q s
  | payload i n =>
    simp only [microStep, stepPayload]
    split
    · rfl
    · split
      · rfl
      · refine spiXfer_setSched _ (fun b s => ?_) s
        split <;> rfl
  | trailer => exact spiXfer_setSched _ (fun b s => rfl) s
  | cmd0Loop => exact poll_setSched .cmd0 (k := fun s => .next (push [frameCmd0, .cmd0Test] s)) (fun s => rfl) s
  | a41Loop =>
    exact poll_setSched .a41 (k := fun s => .next (push [frameCmd55 s.cfg, frameCmd41 s.cfg, .cmd41Test] s))
      (fun s => rfl) s
  | busyLoop => exact poll_setSched .bsy (k := fun s => .next (push [.dispOp 0x71#8, .busySample] s)) (fun s => rfl) s
  | busySample => exact congrArg Host.Outcome.next (stepBusySample_setSched q s)
  | cmd0Test => exact next_setSched (by simp only [stepCmd0Test, setSched_regs, ite_setSched]; rfl)
  | cmd8Test => exact next_setSched (by simp only [stepCmd8Test, setSched_regs, raise_setSched, ite_setSched])
  | cmd17Test => exact next_setSched (by simp only [stepCmd17Test, setSched_regs, raise_setSched, ite_setSched])
  | cmd18Test => exact next_setSched (by simp only [stepCmd18Test, setSched_regs, raise_setSched, ite_setSched])
  | cmd41Test =>
    exact next_setSched (by
      simp only [stepCmd41Test, setSched_regs, setSched_ctl, raise_setSched, ite_setSched]
      rfl)
  | itPull => exact next_setSched (by simp only [stepItPull, setSched_regs, setSched_cfg, ite_setSched]; rfl)
  | itDrop => exact next_setSched (by simp only [stepItDrop, setSched_regs, setSched_cfg, ite_setSched]; rfl)
  | refreshTest => exact next_setSched (by simp only [stepRefreshTest, setSched_regs, ite_setSched]; rfl)
  | redFill n => exact next_setSched (by simp only [stepRedFill, ite_setSched]; rfl)
  | shutEnd =>
    exact next_setSched (by
      simp only [stepShutEnd, setSched_ctl, setSched_lines, setSched_cfg, ite_setSched]
      rfl)
  | shutRet =>
    refine next_setSched ?_
    simp only [stepShutRet, ite_setSched]
    refine if_congr Iff.rfl rfl ?_
    simp only [setSched_ctl]
    split
    · rfl
    · exact raise_setSched _ q { s with ctl.shutErr := none }
  | _ => rfl

/-- The engine's turn is the same whatever turns are still to come (20_memory.md R81). -/
theorem engineStep_setSched (q : List Turn) (s : State) : engineStep (setSched q s) = withTurns q (engineStep s) := by
  cases h : s.regs.running with
  | false => simp [engineStep, h]
  | true =>
    cases hq : s.ctl.seq with
    | nil => simp only [engineStep, setSched_regs, setSched_ctl, h, hq, if_true]; rfl
    | cons m rest =>
      simp only [engineStep, setSched_regs, setSched_ctl, h, hq, if_true]
      exact microStep_setSched m q (setSeq rest s)

end Sys2Proof.Machine
end

