-- ==== Sys2Proof/Tests/Slice0.lean ====
section
/-! SUPPORT. The model's own tests: which terms are well formed, what the spec's written-out words decode to, one step of
each instruction, and for each obligation with hypotheses a state and operands that meet them. -/

namespace Sys2Proof.Tests

open Sys2Proof Sys2Proof.Machine

/-! Well-formedness: an ill-formed term for each check, refused (30_encoding.md R97, R98). -/

theorem test_wf_refuses_cmd0_argument : (Instr.cmd0 1#32 0x95#8).wf Config.hardware = false := by decide
theorem test_wf_refuses_cmd0_check : (Instr.cmd0 0#32 0xFF#8).wf Config.hardware = false := by decide
theorem test_wf_refuses_cmd8_argument : (Instr.cmd8 0x1AB#32 0x87#8).wf Config.hardware = false := by decide
theorem test_wf_refuses_cmd8_check : (Instr.cmd8 0x1AA#32 0x95#8).wf Config.hardware = false := by decide
theorem test_wf_refuses_cmd55_argument : (Instr.cmd55 1#32 0xFF#8).wf Config.hardware = false := by decide
theorem test_wf_refuses_cmd55_check : (Instr.cmd55 0#32 0x00#8).wf Config.hardware = false := by decide
theorem test_wf_refuses_cmd41_argument : (Instr.cmd41 0x40000000#32 0xFF#8).wf Config.hardware = false := by decide
theorem test_wf_refuses_cmd41_check : (Instr.cmd41 0#32 0x00#8).wf Config.hardware = false := by decide
theorem test_wf_refuses_cmd17_unaligned : (Instr.cmd17 513#32 0xFF#8).wf Config.hardware = false := by decide
theorem test_wf_refuses_cmd17_check : (Instr.cmd17 512#32 0x95#8).wf Config.hardware = false := by decide
theorem test_wf_refuses_cmd18_check : (Instr.cmd18 513#32 0x95#8).wf Config.hardware = false := by decide
theorem test_wf_refuses_cmd12_argument : (Instr.cmd12 1#32 0xFF#8).wf Config.hardware = false := by decide
theorem test_wf_refuses_cmd12_check : (Instr.cmd12 0#32 0x61#8).wf Config.hardware = false := by decide
theorem test_wf_refuses_r1_filler : (Instr.r1 0xFF#8).wf Config.hardware = false := by decide
theorem test_wf_accepts_cmd18_any_argument : (Instr.cmd18 513#32 0xFF#8).wf Config.hardware = true := by decide

/-! Decoding: the words the spec writes out, bit by bit for one of each format. -/

/-- R91: RES, P = 1 at bit 8, OPC 0x10 (R104, 95_test_vectors.md P2). -/
theorem test_decode_iter_start_bits :
    decode (.op 0b00000000000000000000000100010000#32) = .ok (.iterStart true) := by decide

/-- R96: 01, index 17 = 010001, argument 0x00000200, check 0xFF (R164's example). -/
theorem test_decode_cmd17_bits :
    decode (.frame 0b010100010000000000000000000000100000000011111111#48) = .ok (.cmd17 512#32 0xFF#8) := by decide

/-- R99: 0xFE. -/
theorem test_decode_start_token_bits : decode (.token 0b11111110#8) = .ok .startToken := by decide

/-- R98: a response with bit 2 set (95_test_vectors.md V-S3). -/
theorem test_decode_r1_bits : decode (.r1 0b00000101#8) = .ok (.r1 5#8) := by decide

/-- R100: 0x71. -/
theorem test_decode_flg_bits : decode (.disp 0b01110001#8) = .ok .dFlg := by decide

/-- R92: every host operation's word. -/
theorem test_decode_host_operations :
    [0x01#32, 0x02#32, 0x03#32, 0x04#32, 0x05#32, 0x10#32, 0x110#32, 0x11#32, 0x12#32, 0x20#32, 0x21#32, 0x22#32,
      0x23#32, 0x24#32, 0x25#32].map (fun w => (decode (.op w)).toOption) =
    [some .sdInit, some .sdReadSector, some .sdReadStart, some .sdReadNext, some .sdReadEnd, some (.iterStart false),
      some (.iterStart true), some .iterPull, some .iterDrop, some .dispInit, some .dispCmd, some .dispData,
      some .dispWaitIdle, some .dispRefresh, some .dispShutdown] := by decide

/-- R156 to R162: every card command's frame. -/
theorem test_decode_card_commands :
    [0x400000000095#48, 0x48000001AA87#48, 0x7700000000FF#48, 0x6900000000FF#48, 0x5100000200FF#48, 0x520000BC00FF#48,
      0x4C00000000FF#48].map (fun w => (decode (.frame w)).toOption) =
    [some (.cmd0 0#32 0x95#8), some (.cmd8 0x1AA#32 0x87#8), some (.cmd55 0#32 0xFF#8), some (.cmd41 0#32 0xFF#8),
      some (.cmd17 512#32 0xFF#8), some (.cmd18 48128#32 0xFF#8), some (.cmd12 0#32 0xFF#8)] := by decide

/-- R100: every display opcode. -/
theorem test_decode_display_opcodes :
    [0x00#8, 0x01#8, 0x02#8, 0x04#8, 0x07#8, 0x10#8, 0x12#8, 0x13#8, 0x15#8, 0x50#8, 0x60#8, 0x61#8, 0x71#8].map
      (fun b => (decode (.disp b)).toOption) =
    [some .dPsr, some .dPwr, some .dPof, some .dPon, some .dDslp, some .dDtm1, some .dDrf, some .dDtm2, some .dDuspi,
      some .dCdi, some .dTcon, some .dTres, some .dFlg] := by decide

/-- R93, R94, and their order in 60_exceptions.md R274 (95_test_vectors.md V-X3 to V-X6). -/
theorem test_decode_rejects_operation_words :
    [0x00#32, 0x06#32, 0x13#32, 0x26#32, 0x80000000#32, 0x80000001#32, 0x111#32, 0x210#32].map
      (fun w => match decode (.op w) with | .ok _ => none | .error e => some e) =
    [some .illegalOpcode, some .illegalOpcode, some .illegalOpcode, some .illegalOpcode, some .illegalOpcode,
      some .reservedBits, some .reservedBits, some .reservedBits] := by decide

/-- R96 to R99: no frame, no command of the seven, filler, no token, no opcode. -/
theorem test_decode_rejects_wire_words :
    [decode (.frame 0xC00000000095#48), decode (.frame 0x4100000000FF#48), decode (.r1 0xFF#8), decode (.token 0xFF#8),
      decode (.disp 0x03#8)].map (fun r => match r with | .ok _ => none | .error e => some e) =
    [some .badFrameStart, some .unknownCardCommand, some .fillerByte, some .notStartToken, some .unknownDisplayOpcode] := by
  decide

/-- The rows of the opcode table as the table numbers their bits. -/
theorem test_decode_table_words :
    [decodeTableWord 32 0x24, decodeTableWord 48 0x4C00000000FF, decodeTableWord 8 0x12, decodeTableWord 8 0xFE,
      decodeTableWord 8 0x05, decodeTableWord 16 0x05] =
    [some .dispRefresh, some (.cmd12 0#32 0xFF#8), some .dDrf, some .startToken, some (.r1 5#8), none] := by decide

/-- An instruction placed for the fetch is the one the next step runs: a host write sets RUNNING and the latch, a token
the response. -/
theorem test_with_fetch_word :
    (match step (State.reset.withFetchWord 32 0x01) with | .next t => some t.ctl.op | _ => none) =
      some (some (0x01#8, false)) ∧
    (match step (State.reset.withFetchWord 8 0x05) with | .next t => some t.regs.lastR1 | _ => none) = some 5#8 := by
  decide

/-! One step of each instruction. -/

/-- The next state of an answer, if it is one. -/
def after (r : Result) : Option State :=
  match r with
  | .next t => some t
  | .fault _ => none
  | .refused _ => none

/-- An engine ready for any operation: reset, with the card and the panel initialised, and polls bounded to three
iterations. -/
def ready : State :=
  { State.reset with
    cfg := { Config.hardware with pollLimit := some 3 }
    regs.sdReady := true
    regs.dispReady := true
    regs.lastR1 := 0x00#8 }

/-- The host writes w to CMD next. -/
def issuing (w : Word) (s : State) : State := { s with env.sched := [.write 0x000 4 w] }

/-- The micro-steps after one step, and FAULT_CODE. -/
def seqAndFault (s : State) : Option (List Micro × Byte) := (after (step s)).map (fun t => (t.ctl.seq, t.regs.faultCode))

/-- R163: deselect, then ten idle bytes, before CMD0's loop. -/
theorem test_sdInit_starts :
    (seqAndFault (issuing 0x01#32 State.reset)).map (fun r => r.1.take 4) =
    some [.deselect .S, .spiWrite .S (List.replicate 10 0xFF#8), .enter .cmd0, .cmd0Loop] := by decide

/-- R163, R272: already initialised. -/
theorem test_sdInit_twice :
    (seqAndFault (issuing 0x01#32 { ready with regs.dispReady := false })) = some ([.haltEnd], 0x13#8) := by decide

/-- R164's example: sector 1 is byte 512. -/
theorem test_sdReadSector_starts :
    seqAndFault (issuing 0x02#32 { ready with regs.arg := 1#32, regs.len := 512#10 }) =
    some ([.frame 0x5100000200FF#48, .cmd17Test, .dataPhase 512], 0x00#8) := by decide

/-- R164: ARG = 2^23 is no sector. -/
theorem test_sdReadSector_operand :
    (seqAndFault (issuing 0x02#32 { ready with regs.arg := 0x800000#32, regs.len := 512#10 })).map (·.2) = some 0x12#8 := by
  decide

/-- R165's example. -/
theorem test_sdReadStart_starts :
    seqAndFault (issuing 0x03#32 { ready with regs.arg := 48128#32 }) =
    some ([.frame 0x520000BC00FF#48, .cmd18Test, .setOwner .raw], 0x00#8) := by decide

/-- R166, R168: not the host's stream. -/
theorem test_sdReadNext_of_sequence :
    (seqAndFault (issuing 0x04#32 { ready with regs.owner := .iter, regs.len := 4#10 })).map (·.2) = some 0x13#8 := by
  decide

/-- R166: LEN = 513 with the stream open. -/
theorem test_sdReadNext_operand :
    (seqAndFault (issuing 0x04#32 { ready with regs.owner := .raw, regs.len := 513#10 })).map (·.2) = some 0x12#8 := by
  decide

/-- R167: `4C 00 00 00 00 FF`. -/
theorem test_sdReadEnd_starts :
    seqAndFault (issuing 0x05#32 { ready with regs.owner := .raw }) =
    some ([.frame 0x4C00000000FF#48, .setOwner .none], 0x00#8) := by decide

/-- 95_test_vectors.md P2: the red plane of the image at 0 starts at 48000. -/
theorem test_iterStart_red_plane :
    seqAndFault (issuing 0x110#32 ready) =
    some ([.frame 0x520000BB80FF#48, .cmd18Test, .itBegin 48000#32 .iter], 0x00#8) := by decide

/-- 95_test_vectors.md V-C7: the largest base of a red plane, and the one after it. -/
theorem test_iterStart_bounds :
    (seqAndFault (issuing 0x110#32 { ready with regs.arg := 0xFFFE88FF#32 })).map (·.2) = some 0x00#8 ∧
    (seqAndFault (issuing 0x110#32 { ready with regs.arg := 0xFFFE8900#32 })).map (·.2) = some 0x12#8 := by decide

/-- R202: the last chunk of a plane is the rest, 384 bytes, and ITER_CUR moves first. -/
theorem test_iterPull_last_chunk :
    (after (stepItPull { ready with regs.iterActive := true, regs.iterCur := 47616#32, regs.iterEnd := 48000#32 } |> .next)).map
      (fun t => (t.ctl.seq, t.regs.iterCur)) = some ([.dataPhase 384, .setChunkLen 384], 48000#32) := by decide

/-- R205: no sequence. -/
theorem test_iterPull_without_sequence : (seqAndFault (issuing 0x11#32 ready)).map (·.2) = some 0x13#8 := by decide

/-- R206: accepted with no sequence. -/
theorem test_iterDrop_starts : seqAndFault (issuing 0x12#32 ready) = some ([.itDrop], 0x00#8) := by decide

/-- R240, R224: the reset pulse first. -/
theorem test_dispInit_starts :
    (seqAndFault (issuing 0x20#32 State.reset)).map (fun r => r.1.take 5) =
    some [.drive .rst .low, .hold .tRst, .drive .rst .high, .hold .tRst, .dispOp 0x01#8] := by decide

/-- R241's example, and ARG = 0x100. -/
theorem test_dispCmd :
    seqAndFault (issuing 0x21#32 { ready with regs.arg := 0x12#32 }) = some ([.dispCmd 0x12#8], 0x00#8) ∧
    (seqAndFault (issuing 0x21#32 { ready with regs.arg := 0x100#32 })).map (·.2) = some 0x12#8 := by decide

/-- R242: LEN = 0 is no length. -/
theorem test_dispData :
    seqAndFault (issuing 0x22#32 { ready with regs.len := 3#10 }) = some ([.dispBuf 3], 0x00#8) ∧
    (seqAndFault (issuing 0x22#32 { ready with regs.len := 0#10 })).map (·.2) = some 0x12#8 := by decide

/-- R243; and V-D6: no display. -/
theorem test_dispWaitIdle :
    seqAndFault (issuing 0x23#32 ready) = some ([.enter .bsy, .busyLoop], 0x00#8) ∧
    seqAndFault (issuing 0x23#32 State.reset) = some ([.haltEnd], 0x13#8) := by decide

/-- 95_test_vectors.md V-D10: the largest base, the one after it, and an open stream. -/
theorem test_dispRefresh_checks :
    (seqAndFault (issuing 0x24#32 { ready with regs.arg := 0xFFFF447F#32 })).map (·.2) = some 0x00#8 ∧
    (seqAndFault (issuing 0x24#32 { ready with regs.arg := 0xFFFF4480#32 })).map (·.2) = some 0x12#8 ∧
    (seqAndFault (issuing 0x24#32 { ready with regs.owner := .raw })).map (·.2) = some 0x13#8 := by decide

/-- R246, R226. -/
theorem test_dispShutdown_starts :
    seqAndFault (issuing 0x25#32 ready) =
    some ([.shutBegin, .dispOp 0x02#8, .enter .bsy, .busyLoop, .dispOp 0x07#8, .shutEnd, .drive .rst .low, .drive .dc .low,
      .shutRet], 0x00#8) := by decide

/-- The event of port S and the first micro-step that a card command leaves. -/
def frameStart (i : Instr) : Option (List EventS × Option Micro) :=
  (after (exec i ready)).map (fun t => (t.obs.portS, t.ctl.seq.head?))

/-- R150, and the frames of R156 to R162. -/
theorem test_card_commands_send_their_frames :
    [frameStart (.cmd0 0#32 0x95#8), frameStart (.cmd8 0x1AA#32 0x87#8), frameStart (.cmd55 0#32 0xFF#8),
      frameStart (.cmd41 0#32 0xFF#8), frameStart (.cmd17 0xFFFFFE00#32 0xFF#8), frameStart (.cmd18 48128#32 0xFF#8),
      frameStart (.cmd12 0#32 0xFF#8)] =
    [some ([.select], some (.spiWrite .S [0x40#8, 0x00#8, 0x00#8, 0x00#8, 0x00#8, 0x95#8])),
      some ([.select], some (.spiWrite .S [0x48#8, 0x00#8, 0x00#8, 0x01#8, 0xAA#8, 0x87#8])),
      some ([.select], some (.spiWrite .S [0x77#8, 0x00#8, 0x00#8, 0x00#8, 0x00#8, 0xFF#8])),
      some ([.select], some (.spiWrite .S [0x69#8, 0x00#8, 0x00#8, 0x00#8, 0x00#8, 0xFF#8])),
      some ([.select], some (.spiWrite .S [0x51#8, 0xFF#8, 0xFF#8, 0xFE#8, 0x00#8, 0xFF#8])),
      some ([.select], some (.spiWrite .S [0x52#8, 0x00#8, 0x00#8, 0xBC#8, 0x00#8, 0xFF#8])),
      some ([.select], some (.spiWrite .S [0x4C#8, 0x00#8, 0x00#8, 0x00#8, 0x00#8, 0xFF#8]))] := by decide

/-- R151: a response is recorded and ends the poll. -/
theorem test_r1_recorded :
    (after (exec (.r1 0x7F#8) { ready with ctl.poll.r1 := some 2 })).map (fun t => (t.regs.lastR1, t.ctl.poll.r1)) =
    some (0x7F#8, none) := by decide

/-- R154: the token ends the poll and LAST_R1 keeps its value. -/
theorem test_startToken_ends_poll :
    (after (exec .startToken { ready with ctl.poll.tok := some 2 })).map (fun t => (t.regs.lastR1, t.ctl.poll.tok)) =
    some (0x00#8, none) := by decide

/-- The event of port D and the micro-steps that a display opcode leaves. -/
def opcodeStart (i : Instr) : Option (List EventD × List Micro) :=
  (after (exec i ready)).map (fun t => (t.obs.portD, t.ctl.seq))

/-- The command transaction of an opcode, and what follows it (R100). -/
def sends (b : Byte) (rest : List Micro) : Option (List EventD × List Micro) :=
  some ([.drive .dc .low], .select .D :: .spiWrite .D [b] :: .deselect .D :: rest)

/-- R100 with R225's parameter bytes: the opcodes with data. -/
theorem test_display_opcodes_with_data :
    [opcodeStart .dPsr, opcodeStart .dPwr, opcodeStart .dDslp, opcodeStart .dDuspi, opcodeStart .dCdi, opcodeStart .dTcon,
      opcodeStart .dTres] =
    [sends 0x00#8 [.dispData [0x0F#8]], sends 0x01#8 [.dispData [0x07#8, 0x07#8, 0x3F#8, 0x3F#8]],
      sends 0x07#8 [.dispData [0xA5#8]], sends 0x15#8 [.dispData [0x00#8]], sends 0x50#8 [.dispData [0x11#8, 0x07#8]],
      sends 0x60#8 [.dispData [0x22#8]], sends 0x61#8 [.dispData [0x03#8, 0x20#8, 0x01#8, 0xE0#8]]] := by decide

/-- R100: the opcodes without data of their own. -/
theorem test_display_opcodes_without_data :
    [opcodeStart .dPof, opcodeStart .dPon, opcodeStart .dDtm1, opcodeStart .dDrf, opcodeStart .dDtm2, opcodeStart .dFlg] =
    [sends 0x02#8 [], sends 0x04#8 [], sends 0x10#8 [], sends 0x12#8 [], sends 0x13#8 [], sends 0x71#8 []] := by decide

/-- 95_test_vectors.md V-R1. -/
theorem test_reset_words :
    statusWord State.reset.regs = 0xFF000000#32 ∧ pinsWord State.reset.lines = 0x00000003#32 := by decide

/-- 95_test_vectors.md V-C9's STATUS: halted, SD_READY, a stream of ITER, fault 0x01. -/
theorem test_status_word :
    statusWord { Regs.reset with halted := true, sdReady := true, owner := .iter, iterActive := true, faultCode := 0x01#8,
                                 lastR1 := 0x00#8 } = 0x0001006E#32 := by decide

/-- R74: the word 0x04030201 at BUF+0. -/
theorem test_buf_little_endian :
    (after (step { State.reset with env.sched := [.write 0x200 4 0x04030201#32] })).map (·.buf) =
    some [(0, 1#8), (1, 2#8), (2, 3#8), (3, 4#8)] := by decide

/-! Witnesses: for each obligation with hypotheses, a state and operands that meet all of them; for one with several
clauses, a witness for each. Bounds are met with equality where a hypothesis is a bound. -/

/-- The sequencer is about to run these micro-steps. -/
def running (q : List Micro) : State := { ready with regs.running := true, ctl.seq := q }

/-- A transaction answered r on the last iteration that POLL_LIMIT = 3 allows. -/
def answered (r : Byte) : CardTx := { ws := List.replicate 6 0xFF#8, fill := 2, r := r, x := 0xFF#8 }

/-- A data phase of n bytes with the token on the last iteration that POLL_LIMIT = 3 allows. -/
def phase (n : Nat) : Phase := { junk := [0xFF#8, 0x05#8], data := List.replicate n 0xAB#8, t0 := 0x00#8, t1 := 0xFE#8 }

/-- What the card answers during such a transaction. -/
def answers (t : CardTx) : List (Option Byte) := txAnswers t.ws t.fill t.r t.x

/-- Two samples that are busy with BUSY_ACTIVE = Low. -/
def busyTwice : List Config.BusySample := [.low, .err]

theorem phase_length (n : Nat) : (phase n).data.length = n := List.length_replicate

theorem phase_fits (n : Nat) : (phase n).fits ready.cfg n = true := by
  simp [phase, Phase.fits, ready, aboveLimit]

theorem busyTwice_meets :
    (∀ v ∈ busyTwice, busyNow ready.cfg.busyActive v = true) ∧ busyNow ready.cfg.busyActive .high = false ∧
      aboveLimit ready.cfg.pollLimit (busyTwice.length + 1) = false := by decide

theorem witness_DecodeOfEncode : (Instr.cmd17 0xFFFFFE00#32 0xFF#8).wf Config.hardware = true := by decide

theorem witness_EncodeOfDecode : decode (.op 0x110#32) = .ok (.iterStart true) := by decide

theorem witness_StepRuns_write :
    (issuing 0x110#32 ready).env.sched = [.write 0x000 4 0x110#32] ∧ decode (.op 0x110#32) = .ok (.iterStart true) :=
  ⟨rfl, by decide⟩

theorem witness_StepRuns_frame :
    AtSteps [.frame 0x4C00000000FF#48] [.setOwner .none] (running [.frame 0x4C00000000FF#48, .setOwner .none]) ∧
      decode (.frame 0x4C00000000FF#48) = .ok (.cmd12 0#32 0xFF#8) := ⟨⟨rfl, rfl, rfl⟩, by decide⟩

theorem witness_StepRuns_opcode :
    AtSteps [.dispOp 0x71#8] [.busySample] (running [.dispOp 0x71#8, .busySample]) ∧ decode (.disp 0x71#8) = .ok .dFlg :=
  ⟨⟨rfl, rfl, rfl⟩, by decide⟩

/-- The last iteration of the R1 poll that the limit allows, and a response waiting. -/
def awaitingR1 : State := { running [.r1Poll] with ctl.poll.r1 := some 2, env.cardIn := [some 0x05#8] }

theorem witness_StepRuns_r1 :
    AtSteps [.r1Poll] [] awaitingR1 ∧ awaitingR1.ctl.poll.r1 = some 2 ∧ aboveLimit awaitingR1.cfg.pollLimit (2 + 1) = false ∧
      awaitingR1.env.cardIn = some 0x05#8 :: [] ∧ decode (.r1 0x05#8) = .ok (.r1 0x05#8) :=
  ⟨⟨rfl, rfl, rfl⟩, rfl, rfl, rfl, by decide⟩

/-- R11: the probe is FILL_RD, here made 0x5A. -/
theorem test_r1_probe_sends_fillRd :
    ∃ t, step { awaitingR1 with cfg.fillRd := 0x5A#8 } = .next t ∧ t.obs.portS = [.xfer 0x5A#8 (some 0x05#8)] :=
  ⟨_, rfl, by decide⟩

/-- The last iteration of the start-token poll that the limit allows, and the token waiting. -/
def awaitingToken : State := { running [.tokenPoll] with ctl.poll.tok := some 2, env.cardIn := [some 0xFE#8] }

theorem witness_StepRuns_token :
    AtSteps [.tokenPoll] [] awaitingToken ∧ awaitingToken.ctl.poll.tok = some 2 ∧
      aboveLimit awaitingToken.cfg.pollLimit (2 + 1) = false ∧ awaitingToken.env.cardIn = some 0xFE#8 :: [] ∧
      decode (.token 0xFE#8) = .ok .startToken :=
  ⟨⟨rfl, rfl, rfl⟩, rfl, rfl, rfl, by decide⟩

/-- The turns that are the engine's: a scheduled one and a wait while RUNNING = 1, each with a host access after it; a wait
and nothing scheduled while RUNNING = 0. -/
theorem witness_StepRuns_turns :
    (let s : State := { running [.select .S] with env.sched := [.engine, .read 0x00C 4] }
     s.env.sched = .engine :: [.read 0x00C 4] ∧
      step s = .next { running [] with lines.csS := .low, obs.portS := [.select], env.sched := [.read 0x00C 4] }) ∧
    (let s : State := { running [.select .S] with env.sched := [.wait, .read 0x00C 4] }
     s.env.sched = .wait :: [.read 0x00C 4] ∧ s.regs.running = true ∧
      step s = .next { running [] with lines.csS := .low, obs.portS := [.select], env.sched := [.wait, .read 0x00C 4] }) ∧
    (let s : State := { ready with env.sched := [.wait, .read 0x00C 4] }
     s.env.sched = .wait :: [.read 0x00C 4] ∧ s.regs.running = false) ∧ Undisturbed ready ∧ ready.regs.running = false :=
  ⟨⟨rfl, rfl⟩, ⟨rfl, rfl, rfl⟩, ⟨rfl, rfl⟩, rfl, rfl⟩

theorem witness_Issue_illegal :
    Idle (issuing 0x26#32 ready) ∧ (issuing 0x26#32 ready).env.sched = [.write 0x000 4 0x26#32] ∧
      legalOpc ((0x26#32).extractLsb' 0 8) = false := ⟨⟨rfl, rfl⟩, rfl, by decide⟩

theorem witness_Issue_decodes :
    legalOpc ((0x110#32).extractLsb' 0 8) = true ∧ (0x110#32).extractLsb' 9 23 = 0#23 ∧
      ((0x110#32).getLsbD 8 = true → (0x110#32).extractLsb' 0 8 = 0x10#8) := by decide

theorem witness_Issue_reserved :
    legalOpc ((0x111#32).extractLsb' 0 8) = true ∧ (0x111#32).getLsbD 8 = true ∧ (0x111#32).extractLsb' 0 8 ≠ 0x10#8 ∧
      (0x80000001#32).extractLsb' 9 23 ≠ 0#23 := by decide

theorem witness_Issue_sequence :
    decode (.op 0x04#32) = .ok .sdReadNext ∧ stateCheck .sdReadNext ready = false := by decide

theorem witness_Issue_operand :
    stateCheck .dispCmd ready = true ∧ operandCheck .dispCmd { ready with regs.arg := 0x100#32 } = false ∧
      operandCheck .dispCmd { ready with regs.arg := 0xFF#32 } = true := by decide

/-- R93's ranges at their ends. -/
theorem witness_IllegalOpcodeFaults :
    Idle (issuing 0x06#32 ready) ∧ (issuing 0x06#32 ready).env.sched = [.write 0x000 4 0x06#32] ∧
      ([0x00#32, 0x06#32, 0x0F#32, 0x13#32, 0x1F#32, 0x26#32, 0xFF#32].all (fun w =>
        let opc := (w.extractLsb' 0 8).toNat
        opc = 0x00 ∨ (0x06 ≤ opc ∧ opc ≤ 0x0F) ∨ (0x13 ≤ opc ∧ opc ≤ 0x1F) ∨ (0x26 ≤ opc ∧ opc ≤ 0xFF))) = true :=
  ⟨⟨rfl, rfl⟩, rfl, by decide⟩

/-- An engine that has halted. -/
def halted : State := { ready with regs.halted := true, regs.faultCode := 0x13#8 }

theorem witness_OnlyResetLeavesHalted :
    halted.regs.halted = true ∧ (issuing 0x01#32 halted).env.sched = [.write 0x000 4 0x01#32] ∧
      halted.env.sched.head? ≠ some .reset ∧ step halted = .next halted := ⟨rfl, rfl, by decide, rfl⟩

theorem witness_IssueWhileRunningSetsOverrun :
    (issuing 0x01#32 (running [.haltEnd])).regs.halted = false ∧ (issuing 0x01#32 (running [.haltEnd])).regs.running = true ∧
      (issuing 0x01#32 (running [.haltEnd])).env.sched = [.write 0x000 4 0x01#32] := ⟨rfl, rfl, rfl⟩

/-- A running engine whose card answers one transaction. -/
def sending : State := { running [] with env.cardIn := answers (answered 0x01#8) ++ [some 0x00#8] }

theorem witness_CardCommandTransaction :
    encode (.cmd0 0#32 0x95#8) = .frame 0x400000000095#48 ∧ Undisturbed sending ∧ sending.regs.running = true ∧
      (answered 0x01#8).fits sending.cfg = true ∧
      sending.env.cardIn = answers (answered 0x01#8) ++ [some 0x00#8] := ⟨by decide, rfl, rfl, by decide, rfl⟩

theorem witness_ResponseTests :
    AtSteps [.cmd0Test] [frameCmd8] (running [.cmd0Test, frameCmd8]) ∧
      AtSteps [.cmd8Test] [.a41Enter] (running [.cmd8Test, .a41Enter]) ∧
      AtSteps [.cmd41Test] [.setSdReady] (running [.cmd41Test, .setSdReady]) ∧
      AtSteps [.cmd17Test] [.dataPhase 1] (running [.cmd17Test, .dataPhase 1]) ∧
      AtSteps [.cmd18Test] [.setOwner .raw] (running [.cmd18Test, .setOwner .raw]) :=
  ⟨⟨rfl, rfl, rfl⟩, ⟨rfl, rfl, rfl⟩, ⟨rfl, rfl, rfl⟩, ⟨rfl, rfl, rfl⟩, ⟨rfl, rfl, rfl⟩⟩

/-- A data phase of n bytes about to run, and its answers waiting. -/
def phaseState (n : Nat) : State := { running [.dataPhase n] with env.cardIn := (phase n).answers ++ [none] }

/-- The longest phase; the shortest is met likewise. -/
theorem witness_DataPhase_completes :
    AtSteps [.dataPhase 512] [] (phaseState 512) ∧ 1 ≤ 512 ∧ (phase 512).fits (phaseState 512).cfg 512 = true ∧
      (phaseState 512).env.cardIn = (phase 512).answers ++ [none] :=
  ⟨⟨rfl, rfl, rfl⟩, by decide, phase_fits 512, rfl⟩

/-- A payload of 2 that errs at byte 1, with the token on the last iteration that POLL_LIMIT = 3 allows. -/
def phaseErrState : State :=
  { running [.dataPhase 2] with
    env.cardIn := [0xFF#8, 0x05#8].map some ++ some 0xFE#8 :: [0x11#8].map some ++ none :: [some 0x22#8] }

theorem witness_DataPhase_errs :
    AtSteps [.dataPhase 2] [] phaseErrState ∧ [0x11#8].length < 2 ∧ (∀ b ∈ [0xFF#8, 0x05#8], b ≠ 0xFE#8) ∧
      aboveLimit phaseErrState.cfg.pollLimit ([0xFF#8, 0x05#8].length + 1) = false ∧
      phaseErrState.env.cardIn =
        [0xFF#8, 0x05#8].map some ++ some 0xFE#8 :: [0x11#8].map some ++ none :: [some 0x22#8] :=
  ⟨⟨rfl, rfl, rfl⟩, by decide, by decide, rfl, rfl⟩

/-- What the card answers in SD_INIT: two CMD0 attempts without and one with 0x01, CMD8 refused, and three rounds. -/
def initTranscript : Transcript :=
  [answered 0x00#8, answered 0x05#8].map (fun t => (frameWord 0#6 0x00000000#32 0x95#8, t)) ++
    (frameWord 0#6 0x00000000#32 0x95#8, answered 0x01#8) :: (frameWord 8#6 0x000001AA#32 0x87#8, answered 0x05#8) ::
    ([(answered 0x01#8, answered 0x01#8), (answered 0x01#8, answered 0x05#8)] ++ [(answered 0x01#8, answered 0x00#8)]).flatMap
      (fun t => [(frameWord 55#6 ready.cfg.arg55 ready.cfg.chk55, t.1), (frameWord 41#6 ready.cfg.arg41 ready.cfg.chk41, t.2)])

/-- SD_INIT about to be issued. -/
def initState : State :=
  { ready with
    regs.sdReady := false
    env.cardIn := (List.replicate 10 0xFF#8).map some ++ initTranscript.answers ++ [some 0x00#8] }

theorem witness_SdInitCompletes :
    Idle initState ∧ Undisturbed initState ∧ initState.regs.sdReady = false ∧
      (List.replicate 10 0xFF#8).length = initState.cfg.nIdle ∧
      (∀ t ∈ [answered 0x00#8, answered 0x05#8], t.fits initState.cfg = true ∧ t.r ≠ 0x01#8) ∧
      (answered 0x01#8).fits initState.cfg = true ∧ (answered 0x01#8).r = 0x01#8 ∧
      (answered 0x05#8).fits initState.cfg = true ∧ (answered 0x05#8).r ≠ 0x01#8 ∧
      (∀ t ∈ [(answered 0x01#8, answered 0x01#8), (answered 0x01#8, answered 0x05#8)],
        t.1.fits initState.cfg = true ∧ t.2.fits initState.cfg = true ∧ t.2.r ≠ 0x00#8) ∧
      (∀ t, [(answered 0x01#8, answered 0x01#8), (answered 0x01#8, answered 0x05#8)].head? = some t → t.2.r = 0x01#8) ∧
      (answered 0x01#8).fits initState.cfg = true ∧ (answered 0x00#8).fits initState.cfg = true ∧
      (answered 0x00#8).r = 0x00#8 ∧ aboveLimit initState.cfg.pollLimit (2 + 1) = false ∧
      initState.env.cardIn = (List.replicate 10 0xFF#8).map some ++ initTranscript.answers ++ [some 0x00#8] := by
  refine ⟨⟨rfl, rfl⟩, rfl, rfl, rfl, by decide, by decide, rfl, by decide, by decide, by decide, ?_, by decide, by decide,
    rfl, rfl, rfl⟩
  intro t h
  cases h
  rfl

/-- The last sector, its longest length. -/
def sectorState : State :=
  { ready with
    regs.arg := 0x7FFFFF#32
    regs.len := 512#10
    env.cardIn := answers (answered 0x00#8) ++ (phase 512).answers ++ [none] }

theorem witness_SdReadSectorCompletes :
    Idle sectorState ∧ Undisturbed sectorState ∧ sectorState.regs.sdReady = true ∧ sectorState.regs.owner = .none ∧
      1 ≤ sectorState.regs.len.toNat ∧ sectorState.regs.len.toNat ≤ 512 ∧ sectorState.regs.arg.toNat < 2 ^ 23 ∧
      (answered 0x00#8).fits sectorState.cfg = true ∧ (answered 0x00#8).r = 0x00#8 ∧
      (phase 512).fits sectorState.cfg sectorState.regs.len.toNat = true ∧
      sectorState.env.cardIn = answers (answered 0x00#8) ++ (phase 512).answers ++ [none] :=
  ⟨⟨rfl, rfl⟩, rfl, rfl, rfl, by decide, by decide, by decide, by decide, rfl, phase_fits 512, rfl⟩

/-- A card that answers one transaction with 0x00. -/
def acceptState : State := { ready with env.cardIn := answers (answered 0x00#8) ++ [none] }

theorem witness_SdReadStartCompletes :
    Idle acceptState ∧ Undisturbed acceptState ∧ acceptState.regs.sdReady = true ∧ acceptState.regs.owner = .none ∧
      (answered 0x00#8).fits acceptState.cfg = true ∧ (answered 0x00#8).r = 0x00#8 ∧
      acceptState.env.cardIn = answers (answered 0x00#8) ++ [none] :=
  ⟨⟨rfl, rfl⟩, rfl, rfl, rfl, by decide, rfl, rfl⟩

/-- A raw stream, and the shortest length. -/
def rawState : State :=
  { ready with regs.owner := .raw, regs.len := 1#10, env.cardIn := (phase 1).answers ++ [none] }

theorem witness_SdReadNextCompletes :
    Idle rawState ∧ Undisturbed rawState ∧ rawState.regs.owner = .raw ∧ 1 ≤ rawState.regs.len.toNat ∧
      rawState.regs.len.toNat ≤ 512 ∧ (phase 1).fits rawState.cfg rawState.regs.len.toNat = true ∧
      rawState.env.cardIn = (phase 1).answers ++ [none] :=
  ⟨⟨rfl, rfl⟩, rfl, rfl, by decide, by decide, phase_fits 1, rfl⟩

/-- A raw stream about to be ended with an answer that an R1 test would refuse. -/
def rawEndState : State := { ready with regs.owner := .raw, env.cardIn := answers (answered 0x7F#8) ++ [none] }

theorem witness_SdReadEndCompletes :
    Idle rawEndState ∧ Undisturbed rawEndState ∧ rawEndState.regs.owner = .raw ∧
      (answered 0x7F#8).fits rawEndState.cfg = true ∧ rawEndState.env.cardIn = answers (answered 0x7F#8) ++ [none] :=
  ⟨⟨rfl, rfl⟩, rfl, rfl, by decide, rfl⟩

/-- The largest base of a red plane. -/
def iterStartState : State := { acceptState with regs.arg := 0xFFFE88FF#32 }

theorem witness_IterStartCompletes :
    Idle iterStartState ∧ Undisturbed iterStartState ∧ iterStartState.regs.sdReady = true ∧
      iterStartState.regs.owner = .none ∧
      iterStartState.regs.arg.toNat + (if true then iterStartState.cfg.planeLen else 0) + iterStartState.cfg.planeLen =
        0xFFFFFFFF ∧
      (answered 0x00#8).fits iterStartState.cfg = true ∧ (answered 0x00#8).r = 0x00#8 ∧
      iterStartState.env.cardIn = answers (answered 0x00#8) ++ [none] :=
  ⟨⟨rfl, rfl⟩, rfl, rfl, rfl, by decide, by decide, rfl, rfl⟩

/-- A chunk sequence at `cur` of a plane that ends at 48000. -/
def sequenceState (cur : Word) (ended : Bool) (answers : List (Option Byte)) : State :=
  { ready with
    regs.owner := if ended then .none else .iter
    regs.iterActive := true
    regs.iterEnded := ended
    regs.iterCur := cur
    regs.iterEnd := 48000#32
    env.cardIn := answers }

/-- The plane's last byte alone. -/
theorem witness_IterPull_chunk :
    let s : State := sequenceState 47999#32 false ((phase 1).answers ++ [none])
    Idle s ∧ Undisturbed s ∧ s.regs.iterActive = true ∧ s.regs.iterCur < s.regs.iterEnd ∧
      (phase 1).fits s.cfg (min 512 (s.regs.iterEnd.toNat - s.regs.iterCur.toNat)) = true ∧
      s.env.cardIn = (phase 1).answers ++ [none] :=
  ⟨⟨rfl, rfl⟩, rfl, rfl, by decide, phase_fits 1, rfl⟩

theorem witness_IterPull_exhausts :
    let s : State := sequenceState 48000#32 false (answers (answered 0x05#8) ++ [none])
    Idle s ∧ Undisturbed s ∧ s.regs.iterActive = true ∧ ¬ s.regs.iterCur < s.regs.iterEnd ∧ s.regs.iterEnded = false ∧
      (answered 0x05#8).fits s.cfg = true ∧ s.env.cardIn = answers (answered 0x05#8) ++ [none] :=
  ⟨⟨rfl, rfl⟩, rfl, rfl, by decide, rfl, by decide, rfl⟩

theorem witness_IterPull_exhausted :
    let s : State := sequenceState 48000#32 true []
    Idle s ∧ Undisturbed s ∧ s.regs.iterActive = true ∧ ¬ s.regs.iterCur < s.regs.iterEnd ∧ s.regs.iterEnded = true :=
  ⟨⟨rfl, rfl⟩, rfl, rfl, by decide, rfl⟩

theorem witness_IterDrop_sends :
    let s : State := sequenceState 512#32 false (answers (answered 0x05#8) ++ [none])
    Idle s ∧ Undisturbed s ∧ s.regs.iterActive = true ∧ s.regs.iterEnded = false ∧ (answered 0x05#8).fits s.cfg = true ∧
      s.env.cardIn = answers (answered 0x05#8) ++ [none] :=
  ⟨⟨rfl, rfl⟩, rfl, rfl, rfl, by decide, rfl⟩

theorem witness_IterDrop_silent :
    Idle ready ∧ Undisturbed ready ∧ ready.regs.iterActive = false ∧ (sequenceState 48000#32 true []).regs.iterEnded = true :=
  ⟨⟨rfl, rfl⟩, rfl, rfl, rfl⟩

/-- A panel that takes n bytes and then errs, with two busy samples and a ready one. -/
def panelState (n : Nat) : State :=
  { ready with
    env.panelIn := List.replicate n true ++ [false]
    env.busyIn := busyTwice ++ Config.BusySample.high :: [.err] }

theorem witness_DisplayOpcodeSends :
    let s : State := { panelState 5 with regs.running := true }
    encode .dPwr = .disp 0x01#8 ∧ Undisturbed s ∧ s.regs.running = true ∧
      s.env.panelIn = List.replicate ((displayData s.cfg 0x01#8).length + 1) true ++ [false] := by
  refine ⟨by decide, rfl, rfl, by decide⟩

theorem witness_DispInitCompletes :
    let s : State := { panelState 23 with regs.dispReady := false }
    Idle s ∧ Undisturbed s ∧ s.regs.dispReady = false ∧
      s.cfg.initSeq = [.opcode 0x01#8, .opcode 0x04#8, .waitIdle, .opcode 0x00#8, .opcode 0x61#8, .opcode 0x15#8,
        .opcode 0x50#8, .opcode 0x60#8] ∧
      ((∀ v ∈ busyTwice, busyNow s.cfg.busyActive v = true) ∧ busyNow s.cfg.busyActive .high = false ∧
        aboveLimit s.cfg.pollLimit (busyTwice.length + 1) = false) ∧
      s.env.panelIn = List.replicate (s.cfg.pPwr.length + s.cfg.pPsr.length + s.cfg.pTres.length + s.cfg.pDuspi.length +
        s.cfg.pCdi.length + s.cfg.pTcon.length + busyTwice.length + 8) true ++ [false] ∧
      s.env.busyIn = busyTwice ++ Config.BusySample.high :: [.err] :=
  ⟨⟨rfl, rfl⟩, rfl, rfl, rfl, busyTwice_meets, rfl, rfl⟩

theorem witness_DispCmdCompletes :
    let s : State := { panelState 1 with regs.arg := 0xFF#32 }
    Idle s ∧ Undisturbed s ∧ s.regs.dispReady = true ∧ s.regs.arg.toNat ≤ 0xFF ∧ s.env.panelIn = true :: [false] :=
  ⟨⟨rfl, rfl⟩, rfl, rfl, by decide, rfl⟩

/-- The longest length, with two bytes of BUF written and the others not. -/
theorem witness_DispDataCompletes :
    let s : State := { panelState 512 with regs.len := 512#10, buf := [(0, 0xAA#8), (511, 0xBB#8)] }
    Idle s ∧ Undisturbed s ∧ s.regs.dispReady = true ∧ 1 ≤ s.regs.len.toNat ∧ s.regs.len.toNat ≤ 512 ∧
      s.env.panelIn = List.replicate s.regs.len.toNat true ++ [false] :=
  ⟨⟨rfl, rfl⟩, rfl, rfl, by decide, by decide, rfl⟩

theorem witness_DispWaitIdleCompletes :
    let s : State := panelState 3
    Idle s ∧ Undisturbed s ∧ s.regs.dispReady = true ∧
      ((∀ v ∈ busyTwice, busyNow s.cfg.busyActive v = true) ∧ busyNow s.cfg.busyActive .high = false ∧
        aboveLimit s.cfg.pollLimit (busyTwice.length + 1) = false) ∧
      s.env.panelIn = List.replicate (busyTwice.length + 1) true ++ [false] ∧
      s.env.busyIn = busyTwice ++ Config.BusySample.high :: [.err] :=
  ⟨⟨rfl, rfl⟩, rfl, rfl, busyTwice_meets, rfl, rfl⟩

theorem witness_RedFillSendsZeroPlane :
    let s : State := { panelState 3 with regs.running := true, ctl.seq := [.redFill 3] }
    AtSteps [.redFill 3] [] s ∧ 1 ≤ 3 ∧ s.env.panelIn = List.replicate 3 true ++ [false] :=
  ⟨⟨rfl, rfl, rfl⟩, by decide, rfl⟩

/-- A refresh with planes of 513 bytes, at the largest base: a chunk of 512 and one of 1. -/
def refreshState : State :=
  { panelState 1032 with
    cfg.planeLen := 513
    regs.arg := 0xFFFFFDFE#32
    env.cardIn := answers (answered 0x00#8) ++ ([phase 512, phase 1].flatMap Phase.answers ++ (answers (answered 0x05#8) ++ [none])) }

theorem witness_DispRefreshCompletes :
    Idle refreshState ∧ Undisturbed refreshState ∧ refreshState.regs.dispReady = true ∧ refreshState.regs.sdReady = true ∧
      refreshState.regs.owner = .none ∧ refreshState.regs.arg.toNat + refreshState.cfg.planeLen = 0xFFFFFFFF ∧
      (answered 0x00#8).fits refreshState.cfg = true ∧ (answered 0x00#8).r = 0x00#8 ∧
      (answered 0x05#8).fits refreshState.cfg = true ∧
      [phase 512, phase 1].map (fun ph => ph.data.length) = chunkSizes refreshState.cfg.planeLen ∧
      (∀ ph ∈ [phase 512, phase 1], ph.fits refreshState.cfg ph.data.length = true) ∧
      ((∀ v ∈ busyTwice, busyNow refreshState.cfg.busyActive v = true) ∧
        busyNow refreshState.cfg.busyActive .high = false ∧
        aboveLimit refreshState.cfg.pollLimit (busyTwice.length + 1) = false) ∧
      refreshState.env.cardIn = answers (answered 0x00#8) ++ ([phase 512, phase 1].flatMap Phase.answers ++
        (answers (answered 0x05#8) ++ [none])) ∧
      refreshState.env.panelIn = List.replicate
        (refreshState.cfg.planeLen + refreshState.cfg.planeLen + busyTwice.length + 4) true ++ [false] ∧
      refreshState.env.busyIn = busyTwice ++ Config.BusySample.high :: [.err] := by
  refine ⟨⟨rfl, rfl⟩, rfl, rfl, rfl, rfl, by decide, by decide, rfl, by decide, ?_, ?_, busyTwice_meets, rfl, rfl, rfl⟩
  · simp only [List.map_cons, List.map_nil, phase_length]
    rfl
  · intro ph h
    simp only [List.mem_cons, List.not_mem_nil, or_false] at h
    rcases h with rfl | rfl <;> rw [phase_length] <;> exact phase_fits _

theorem witness_DispShutdownCompletes :
    let s : State := panelState 6
    Idle s ∧ Undisturbed s ∧ s.regs.dispReady = true ∧
      ((∀ v ∈ busyTwice, busyNow s.cfg.busyActive v = true) ∧ busyNow s.cfg.busyActive .high = false ∧
        aboveLimit s.cfg.pollLimit (busyTwice.length + 1) = false) ∧
      s.env.panelIn = List.replicate (busyTwice.length + 4) true ++ [false] ∧
      s.env.busyIn = busyTwice ++ Config.BusySample.high :: [.err] :=
  ⟨⟨rfl, rfl⟩, rfl, rfl, busyTwice_meets, rfl, rfl⟩

theorem witness_SpiWriteByteByByte :
    AtSteps [.spiWrite .S (0x40#8 :: [])] [] { running [.spiWrite .S [0x40#8]] with env.cardIn := [none] } ∧
      AtSteps [.spiWrite .D (0x12#8 :: [0x13#8])] [] { running [.spiWrite .D [0x12#8, 0x13#8]] with env.panelIn := [true] } :=
  ⟨⟨rfl, rfl, rfl⟩, ⟨rfl, rfl, rfl⟩⟩

/-- BUF's last byte, written, and its first, not written, about to be sent; the second with an error. -/
theorem witness_SpiWrite_buf :
    (let s : State := { running [.sendBuf 511 512] with buf := [(511, 0xBB#8)], env.panelIn := [true] }
     AtSteps [.sendBuf 511 512] [] s ∧ 511 < 512 ∧ 512 ≤ 512 ∧ s.env.panelIn = true :: []) ∧
    (let s : State := { running [.sendBuf 0 512] with env.panelIn := [false] }
     AtSteps [.sendBuf 0 512] [] s ∧ 0 < 512 ∧ 512 ≤ 512 ∧ s.env.panelIn = false :: []) :=
  ⟨⟨⟨rfl, rfl, rfl⟩, by decide, by decide, rfl⟩, ⟨⟨rfl, rfl, rfl⟩, by decide, by decide, rfl⟩⟩

/-- A card that errs next, in each place of a transfer: the polls on the last iteration that POLL_LIMIT = 3 allows, the
last payload byte, a trailer. -/
theorem witness_SpiXfer_errs :
    (let s : State := { awaitingR1 with env.cardIn := [none] }
     aboveLimit s.cfg.pollLimit (2 + 1) = false ∧ s.env.cardIn = none :: [] ∧ AtSteps [.r1Poll] [] s ∧
      s.ctl.poll.r1 = some 2) ∧
    (let s : State := { awaitingToken with env.cardIn := [none] }
     aboveLimit s.cfg.pollLimit (2 + 1) = false ∧ s.env.cardIn = none :: [] ∧ AtSteps [.tokenPoll] [] s ∧
      s.ctl.poll.tok = some 2) ∧
    (let s : State := { running [.payload 511 512] with env.cardIn := [none] }
     AtSteps [.payload 511 512] [] s ∧ 511 < 512 ∧ 512 ≤ 512 ∧ s.env.cardIn = none :: []) ∧
    (let s : State := { running [.trailer] with env.cardIn := [none] }
     AtSteps [.trailer] [] s ∧ s.env.cardIn = none :: []) :=
  ⟨⟨rfl, rfl, ⟨rfl, rfl, rfl⟩, rfl⟩, ⟨rfl, rfl, ⟨rfl, rfl, rfl⟩, rfl⟩, ⟨⟨rfl, rfl, rfl⟩, by decide, by decide, rfl⟩,
    ⟨⟨rfl, rfl, rfl⟩, rfl⟩⟩

theorem witness_LinePrimitives :
    AtSteps [.select .S] [] (running [.select .S]) ∧ AtSteps [.select .D] [] (running [.select .D]) ∧
      AtSteps [.deselect .S] [] (running [.deselect .S]) ∧ AtSteps [.deselect .D] [] (running [.deselect .D]) ∧
      AtSteps [.drive .rst .high] [] (running [.drive .rst .high]) ∧
      AtSteps [.drive .dc .low] [] (running [.drive .dc .low]) ∧ AtSteps [.hold .tRefresh] [] (running [.hold .tRefresh]) :=
  ⟨⟨rfl, rfl, rfl⟩, ⟨rfl, rfl, rfl⟩, ⟨rfl, rfl, rfl⟩, ⟨rfl, rfl, rfl⟩, ⟨rfl, rfl, rfl⟩, ⟨rfl, rfl, rfl⟩, ⟨rfl, rfl, rfl⟩⟩

/-- The iteration at the limit, and the one past it. -/
theorem witness_PollCountsIterations :
    AtSteps [.enter .bsy] [.busyLoop] (running [.enter .bsy, .busyLoop]) ∧
      AtSteps [.a41Enter] [.a41Loop] (running [.a41Enter, .a41Loop]) ∧ AtSteps [.r1Poll] [] awaitingR1 ∧
      pollCount .r1 awaitingR1 = some 2 ∧ (∀ n, awaitingR1.cfg.pollLimit = some n → 2 + 1 ≤ n) ∧
      awaitingR1.env.cardIn = some 0x05#8 :: [] ∧
      pollCount .r1 { awaitingR1 with ctl.poll.r1 := some 3 } = some 3 ∧ awaitingR1.cfg.pollLimit = some 3 ∧ 3 < 3 + 1 := by
  refine ⟨⟨rfl, rfl, rfl⟩, ⟨rfl, rfl, rfl⟩, ⟨rfl, rfl, rfl⟩, rfl, ?_, rfl, rfl, rfl, by decide⟩
  intro n h
  cases h
  decide

/-- A state with no bound on the polls. -/
def unbounded (q : List Micro) : State := { running q with cfg := Config.hardware }

theorem witness_UnboundedPollsGoOn :
    (let s : State := { unbounded [.r1Poll] with ctl.poll.r1 := some 7, env.cardIn := List.replicate 2 (some 0xFF#8) ++ [none] }
     s.cfg.pollLimit = none ∧ AtSteps [.r1Poll] [] s ∧ s.ctl.poll.r1 = some 7 ∧
      s.env.cardIn = List.replicate 2 (some 0xFF#8) ++ [none]) ∧
    (let s : State := { unbounded [.tokenPoll] with ctl.poll.tok := some 7, env.cardIn := [0xFF#8, 0x08#8].map some ++ [none] }
     AtSteps [.tokenPoll] [] s ∧ s.ctl.poll.tok = some 7 ∧ (∀ b ∈ [0xFF#8, 0x08#8], b ≠ 0xFE#8) ∧
      s.env.cardIn = [0xFF#8, 0x08#8].map some ++ [none]) ∧
    (let s : State := { unbounded [.busyLoop] with
                        ctl.poll.bsy := some 7
                        env.panelIn := List.replicate busyTwice.length true ++ [false]
                        env.busyIn := busyTwice ++ [.high] }
     AtSteps [.busyLoop] [] s ∧ s.ctl.poll.bsy = some 7 ∧ busyTwice ≠ [] ∧
      (∀ v ∈ busyTwice, busyNow s.cfg.busyActive v = true) ∧ s.env.busyIn = busyTwice ++ [.high] ∧
      s.env.panelIn = List.replicate busyTwice.length true ++ [false]) :=
  ⟨⟨rfl, ⟨rfl, rfl, rfl⟩, rfl, rfl⟩, ⟨⟨rfl, rfl, rfl⟩, rfl, by decide, rfl⟩,
    ⟨⟨rfl, rfl, rfl⟩, rfl, by decide, by decide, rfl, rfl⟩⟩

/-- What the card answers to CMD0, attempt by attempt. -/
def cmd0Transcript (rs : List Byte) : Transcript :=
  (rs.map answered).map (fun t => (frameWord 0#6 0x00000000#32 0x95#8, t))

/-- What the card answers to CMD55 and CMD41, round by round: the responses to CMD41 are given. -/
def a41Transcript (rs : List Byte) : Transcript :=
  (rs.map (fun r => (answered 0x01#8, answered r))).flatMap (fun t =>
    [(frameWord 55#6 ready.cfg.arg55 ready.cfg.chk55, t.1), (frameWord 41#6 ready.cfg.arg41 ready.cfg.chk41, t.2)])

theorem witness_UnboundedRetries :
    (let s : State := { unbounded [.cmd0Loop] with
                        ctl.poll.cmd0 := some 7
                        env.cardIn := (cmd0Transcript [0x00#8, 0x05#8]).answers ++ [none] }
     s.cfg.pollLimit = none ∧ AtSteps [.cmd0Loop] [] s ∧ s.ctl.poll.cmd0 = some 7 ∧
      (∀ t ∈ [answered 0x00#8] ++ [answered 0x05#8], t.fits s.cfg = true ∧ t.r ≠ 0x01#8) ∧
      s.env.cardIn = (cmd0Transcript [0x00#8, 0x05#8]).answers ++ [none]) ∧
    (let s : State := { unbounded [.a41Loop] with
                        ctl.poll.a41 := some 7
                        env.cardIn := (a41Transcript [0x01#8, 0x05#8]).answers ++ [none] }
     AtSteps [.a41Loop] [] s ∧ s.ctl.poll.a41 = some 7 ∧ s.ctl.first41 = true ∧
      (∀ t ∈ [(answered 0x01#8, answered 0x01#8)] ++ [(answered 0x01#8, answered 0x05#8)],
        t.1.fits s.cfg = true ∧ t.2.fits s.cfg = true ∧ t.2.r ≠ 0x00#8) ∧
      (s.ctl.first41 = true → ∀ t,
        ([(answered 0x01#8, answered 0x01#8)] ++ [(answered 0x01#8, answered 0x05#8)]).head? = some t → t.2.r = 0x01#8) ∧
      s.env.cardIn = (a41Transcript [0x01#8, 0x05#8]).answers ++ [none]) := by
  refine ⟨⟨rfl, ⟨rfl, rfl, rfl⟩, rfl, by decide, rfl⟩, ⟨rfl, rfl, rfl⟩, rfl, rfl, by decide, ?_, rfl⟩
  intro _ t h
  cases h
  rfl

/-- A step that changes every level it may: a select of port S. -/
theorem witness_steps :
    step (running [.select .S]) = .next
      { running [] with lines.csS := .low, obs.portS := [.select] } ∧
      (running [.select .S]).env.sched.head? ≠ some .reset ∧ (running [.select .S]).regs.running = true :=
  ⟨rfl, by decide, rfl⟩

theorem witness_FaultEntersHalt : Micro.shutEnd ∉ (running [.trailer, .deselect .S]).ctl.seq := by decide

theorem witness_HaltWithoutDisplay :
    let s : State := { running [.trailer] with regs.dispReady := false, lines.csS := .low }
    Undisturbed s ∧ s.regs.running = true ∧ s.regs.dispReady = false := ⟨rfl, rfl, rfl⟩

theorem witness_HaltPowersPanelDown :
    let s : State := { panelState 6 with regs.running := true, lines.csD := .low }
    Undisturbed s ∧ s.regs.running = true ∧ s.regs.dispReady = true ∧
      ((∀ v ∈ busyTwice, busyNow s.cfg.busyActive v = true) ∧ busyNow s.cfg.busyActive .high = false ∧
        aboveLimit s.cfg.pollLimit (busyTwice.length + 1) = false) ∧
      s.env.panelIn = List.replicate (busyTwice.length + 4) true ++ [false] ∧
      s.env.busyIn = busyTwice ++ Config.BusySample.high :: [.err] :=
  ⟨rfl, rfl, rfl, busyTwice_meets, rfl, rfl⟩

/-- 95_test_vectors.md V-D9's place: the byte 0x07 has failed, CS_D is asserted. -/
def shutdownFault (tail : List Micro) : State :=
  { running (.deselect .D :: .dispData [0xA5#8] :: .shutEnd :: .drive .rst .low :: .drive .dc .low :: .shutRet :: tail) with
    regs.dispReady := false
    lines.csD := .low }

theorem witness_TeardownFaultIsCaught :
    let s : State := { shutdownFault [.haltEnd] with ctl.tearing := true }
    Undisturbed s ∧ s.regs.running = true ∧ s.ctl.tearing = true ∧ Micro.shutEnd ∉ [Micro.deselect .D, .dispData [0xA5#8]] ∧
      s.ctl.seq = [.deselect .D, .dispData [0xA5#8]] ++ [.shutEnd, .drive .rst .low, .drive .dc .low, .shutRet, .haltEnd] :=
  ⟨rfl, rfl, rfl, by decide, rfl⟩

theorem witness_ShutdownFaultRaisedAfterLinesLow :
    let s : State := shutdownFault []
    Undisturbed s ∧ s.regs.running = true ∧ s.ctl.tearing = false ∧ s.regs.dispReady = false ∧
      Micro.shutEnd ∉ [Micro.deselect .D, .dispData [0xA5#8]] ∧
      s.ctl.seq = [.deselect .D, .dispData [0xA5#8]] ++ [.shutEnd, .drive .rst .low, .drive .dc .low, .shutRet] :=
  ⟨rfl, rfl, rfl, rfl, by decide, rfl⟩

/-- The ends of the register space's clauses: each register's offset, the first and the last reserved one. -/
theorem witness_RegisterReads :
    [0x000, 0x004, 0x01C, 0x020, 0x1FC].all (fun o => o % 4 = 0 ∧ o < 0x200) = true ∧
      ({ ready with env.sched := [.read 0x1FC 4] } : State).env.sched = .read 0x1FC 4 :: [] := ⟨by decide, rfl⟩

theorem witness_RegisterWrites :
    [0x004, 0x008, 0x00C, 0x01C, 0x020, 0x1FC].all (fun o => o % 4 = 0 ∧ o ≠ 0x000 ∧ o < 0x200) = true ∧
      ready.regs.running = false ∧
      ({ ready with env.sched := [.write 0x008 4 0xFFFFFFFF#32] } : State).env.sched = .write 0x008 4 0xFFFFFFFF#32 :: [] :=
  ⟨by decide, rfl, rfl⟩

/-- The last word of BUF. -/
theorem witness_BufWordsLittleEndian :
    let s : State := { ready with env.sched := [.write (0x200 + 4 * 127) 4 0x04030201#32] }
    let r : State := { ready with env.sched := [.read (0x200 + 4 * 127) 4], buf := [(508, 1#8), (511, 4#8)] }
    127 < 128 ∧ s.env.sched = [.write (0x200 + 4 * 127) 4 0x04030201#32] ∧ s.regs.running = false ∧
      r.env.sched = [.read (0x200 + 4 * 127) 4] ∧ 3 < 4 ∧ r.buf.read (4 * 127 + 3) = some 4#8 :=
  ⟨by decide, rfl, rfl, rfl, by decide, by decide⟩

theorem witness_ReadsHaveNoSideEffect :
    let s : State := { ready with env.sched := [.read 0x004 4] }
    s.env.sched = .read 0x004 4 :: [] ∧
      step s = .next { ready with obs.host := [{ offset := 0x004, value := 0#32 }] } := ⟨rfl, rfl⟩

theorem witness_WritesDroppedWhileRunning :
    let s : State := { running [.trailer] with env.sched := [.write 0x3FC 4 1#32] }
    s.env.sched = .write 0x3FC 4 1#32 :: [] ∧ s.regs.running = true ∧ 0x200 ≤ 0x3FC ∧ 0x3FC < 0x400 ∧ 0x3FC % 4 = 0 :=
  ⟨rfl, rfl, by decide, by decide, by decide⟩

theorem witness_NarrowAccessRefused :
    ((2 ≠ 4 ∨ 0x200 % 4 ≠ 0) ∧ (4 ≠ 4 ∨ 0x203 % 4 ≠ 0)) ∧
      ({ ready with env.sched := [.read 0x200 2] } : State).env.sched = .read 0x200 2 :: [] ∧
      ({ ready with env.sched := [.write 0x203 4 0#32] } : State).env.sched = .write 0x203 4 0#32 :: [] :=
  ⟨by decide, rfl, rfl⟩

theorem witness_ResetValues :
    let s : State := { running [.trailer] with env.sched := [.reset] }
    s.env.sched = .reset :: [] ∧ ∃ t, step s = .next t := ⟨rfl, _, rfl⟩

/-- SD_READY rises; DISP_READY falls; OWNER is taken: one step of each. -/
theorem witness_StatusChangesOnlyInPlace :
    (∃ t, step { running [.setSdReady] with regs.sdReady := false } = .next t ∧ t.regs.sdReady ≠ false) ∧
      (∃ t, step (running [.shutBegin]) = .next t ∧ t.regs.dispReady ≠ true) ∧
      (∃ t, step (running [.setOwner .raw]) = .next t ∧ t.regs.owner ≠ .none) :=
  ⟨⟨_, rfl, by decide⟩, ⟨_, rfl, by decide⟩, ⟨_, rfl, by decide⟩⟩

/-- RUNNING rises and falls; HALTED rises; OVR rises; a fault's code is written; a response is taken. -/
theorem witness_StatusChanges_run :
    (∃ t, step (issuing 0x12#32 ready) = .next t ∧ t.regs.running ≠ false) ∧
      (∃ t, step (running []) = .next t ∧ t.regs.running ≠ true) ∧
      (∃ t, step (running [.haltEnd]) = .next t ∧ t.regs.halted ≠ false) ∧
      (∃ t, step (issuing 0x12#32 (running [.trailer])) = .next t ∧ t.regs.ovr ≠ false) ∧
      (∃ t, step { running [.trailer] with env.cardIn := [none] } = .next t ∧ t.regs.faultCode ≠ 0x00#8) ∧
      (∃ t, step awaitingR1 = .next t ∧ t.regs.lastR1 ≠ awaitingR1.regs.lastR1) :=
  ⟨⟨_, rfl, by decide⟩, ⟨_, rfl, by decide⟩, ⟨_, rfl, by decide⟩, ⟨_, rfl, by decide⟩, ⟨_, rfl, by decide⟩,
    ⟨_, rfl, by decide⟩⟩

/-- ITER_ACTIVE and ITER_ENDED rise and fall. -/
theorem witness_StatusChanges_iter :
    (∃ t, step (running [.itBegin 0#32 .iter]) = .next t ∧ t.regs.iterActive ≠ false) ∧
      (∃ t, step { running [.itDrop] with regs.iterActive := true, regs.iterEnded := true } = .next t ∧
        t.regs.iterActive ≠ true ∧ t.regs.iterEnded ≠ true) ∧
      (∃ t, step { running [.dropEnd] with regs.iterActive := true } = .next t ∧ t.regs.iterActive ≠ true) ∧
      (∃ t, step { running [.pullEnd] with regs.iterActive := true } = .next t ∧ t.regs.iterEnded ≠ false) :=
  ⟨⟨_, rfl, by decide⟩, ⟨_, rfl, by decide, by decide⟩, ⟨_, rfl, by decide⟩, ⟨_, rfl, by decide⟩⟩

/-- A pull that moves ITER_CUR by one byte. -/
theorem witness_IterCurOnlyAdvances :
    ∃ t, step { running [.itPull] with regs.iterEnd := 1#32 } = .next t ∧ t.regs.iterCur ≠ 0#32 := ⟨_, rfl, by decide⟩

/-- States other than reset that meet the invariants. -/
theorem witness_invariants :
    Memory.wf [(0, 1#8), (511, 2#8)] = true ∧ StepsBounded (running [.dataPhase 512, .itBegin 0xFFFF447F#32 .iter]) ∧
      HaltSound halted ∧ SequenceSound (sequenceState 48000#32 false []) ∧
      SelectSound { running [.deselect .S] with lines.csS := .low } := by
  refine ⟨by decide, ⟨by decide, by decide⟩, ⟨fun _ => ⟨rfl, by decide⟩, by decide⟩,
    ⟨by decide, fun _ _ => .inl rfl, by decide, by decide⟩, ⟨?_, fun _ => .inl ⟨by decide, .inl (by decide)⟩⟩⟩
  intro h
  cases h

/-- The next turn is the engine's with a host write after it; a wait; a reset. -/
theorem witness_EngineNeverStops :
    StepsBounded (running [.trailer]) ∧
      [[Turn.engine, .write 0x201 1 0#32], [.wait], [.reset], []].all (fun q =>
        match q.head? with
        | some (.read _ _) => false
        | some (.write _ _ _) => false
        | _ => true) = true ∧
      (let s : State := { running [.trailer] with env.sched := [.engine, .write 0x201 1 0#32] }
       StepsBounded s ∧ (∀ offset size, s.env.sched.head? ≠ some (.read offset size)) ∧
        (∀ offset size v, s.env.sched.head? ≠ some (.write offset size v))) := by
  refine ⟨⟨by decide, by decide⟩, by decide, ⟨by decide, by decide⟩, ?_, ?_⟩ <;> intros <;> intro h <;> cases h

theorem witness_BoundedEngineFinishes :
    (running [.r1Poll]).cfg.pollLimit = some 3 ∧ StepsBounded (running [.r1Poll]) ∧ Undisturbed (running [.r1Poll]) :=
  ⟨rfl, ⟨by decide, by decide⟩, rfl⟩

end Sys2Proof.Tests
end

section
/-! SUPPORT. What a step writes to the registers and to the lines, each said once over the turns and micro-steps. -/

namespace Sys2Proof.Machine

/-! Registers. -/

/-- What a micro-step writes to the registers. -/
inductive RegsMoved (m : Micro) (s t : State) : Prop where
  | kept (h : t.regs = s.regs)
  | fault (c : FaultCode) (h0 : s.regs.faultCode = 0x00#8) (ht : t.ctl.tearing = true)
      (h : t.regs = { s.regs with faultCode := c.code })
  | lastR1 (b : Byte) (hm : m = .r1Poll) (h : t.regs = { s.regs with lastR1 := b })
  | sdReady (hm : m = .setSdReady) (h : t.regs = { s.regs with sdReady := true })
  | owner (o : Owner) (hm : m = .setOwner o) (h : t.regs = { s.regs with owner := o })
  | created (start : Word) (who : Owner) (hm : m = .itBegin start who) (h : t.regs = (stepItBegin start who s).regs)
  | iterCur (a : Word) (hm : m = .itPull) (h : t.regs = { s.regs with iterCur := a })
  | chunkLen (n : BitVec 10) (h : t.regs = { s.regs with chunkLen := n })
  | exhausted (hm : m = .pullEnd) (h : t.regs = { s.regs with owner := .none, iterEnded := true, chunkLen := 0#10 })
  | cleared (hm : m = .itDrop)
      (h : t.regs = { s.regs with iterActive := false, iterEnded := false, chunkLen := 0#10 })
  | dropped (hm : m = .dropEnd)
      (h : t.regs = { s.regs with owner := .none, iterActive := false, iterEnded := false, chunkLen := 0#10 })
  | dispReady (hm : m = .setDispReady) (h : t.regs = { s.regs with dispReady := true })
  | dispOff (hm : m = .shutBegin) (h : t.regs = { s.regs with dispReady := false })
  | halted (hm : m = .haltEnd) (h : t.regs = { s.regs with halted := true, running := false })

/-- A raised fault writes FAULT_CODE where it is the first one and no `Shutdown()` catches it, and else nothing. -/
theorem raise_regsMoved (m : Micro) (c : FaultCode) {s u : State} (h : u.regs = s.regs) :
    RegsMoved m s (raise c u) := by
  rcases raise_cases c u with ⟨q, -, e⟩ | ⟨-, e⟩
  · exact .kept (by simp [e, h])
  · by_cases h0 : s.regs.faultCode = 0x00#8
    · exact .fault c h0 (by simp [e]) (by simp [e, halt, h, h0])
    · exact .kept (by simp [e, halt, h, h0])

/-- Every micro-step writes the registers in one of these ways. -/
theorem moved_regs {m : Micro} {s t : State} (h : Moved m s t) : RegsMoved m s t := by
  cases h
  case raised => exact raise_regsMoved _ _ rfl
  case enter => exact .kept (setPoll_regs _ _ _)
  case r1Got b _ _ _ _ => exact .lastR1 b rfl rfl
  case setSdReady => exact .sdReady rfl rfl
  case setOwner o => exact .owner o rfl rfl
  case itBegin start who => exact .created start who rfl rfl
  case pullChunk => exact .iterCur _ rfl rfl
  case pullAfter => exact .chunkLen _ rfl
  case setChunkLen => exact .chunkLen _ rfl
  case pullEnd => exact .exhausted rfl rfl
  case dropClears => exact .cleared rfl rfl
  case dropEnd => exact .dropped rfl rfl
  case setDispReady => exact .dispReady rfl rfl
  case shutBegin => exact .dispOff rfl rfl
  case haltEnd => exact .halted rfl rfl
  all_goals exact .kept rfl

/-! Lines. -/

/-- What a micro-step does to the output lines, with the event that goes with it. -/
inductive LinesMoved (s t : State) : Prop where
  | kept (h : t.lines = s.lines)
  | csS (v : Level) (h : t.lines = { s.lines with csS := v })
      (he : t.obs.portS = .select :: s.obs.portS ∨ t.obs.portS = .deselect :: s.obs.portS)
  | csD (v : Level) (h : t.lines = { s.lines with csD := v })
      (he : t.obs.portD = .select :: s.obs.portD ∨ t.obs.portD = .deselect :: s.obs.portD)
  | rst (v : Level) (h : t.lines = { s.lines with rst := v }) (he : t.obs.portD = .drive .rst v :: s.obs.portD)
  | dc (v : Level) (h : t.lines = { s.lines with dc := v }) (he : t.obs.portD = .drive .dc v :: s.obs.portD)

/-- Every micro-step drives at most one line, and records it. -/
theorem moved_lines {m : Micro} {s t : State} (h : Moved m s t) : LinesMoved s t := by
  cases h
  case raised => exact .kept (raise_lines _ _)
  case enter => exact .kept (setPoll_lines _ _ _)
  case selectS => exact .csS _ rfl (.inl rfl)
  case selectD => exact .csD _ rfl (.inl rfl)
  case deselectS => exact .csS _ rfl (.inr rfl)
  case deselectD => exact .csD _ rfl (.inr rfl)
  case driveRst v => exact .rst v rfl rfl
  case driveDc v => exact .dc v rfl rfl
  case frame => exact .csS _ rfl (.inl rfl)
  case dataPhase => exact .csS _ rfl (.inl rfl)
  case opcode => exact .dc _ rfl rfl
  case dispCmd => exact .dc _ rfl rfl
  case dispData => exact .dc _ rfl rfl
  case dispBuf => exact .dc _ rfl rfl
  case shutDeselect => exact .csD _ rfl (.inr rfl)
  all_goals exact .kept rfl

/-! BUF and the parameters. -/

theorem moved_cfg {m : Micro} {s t : State} (h : Moved m s t) : t.cfg = s.cfg := by
  cases h
  case raised => exact raise_cfg _ _
  case enter => exact setPoll_cfg _ _ _
  all_goals rfl

/-- Only a payload byte changes BUF, at an index inside it. -/
theorem moved_buf {m : Micro} {s t : State} (h : Moved m s t) :
    t.buf = s.buf ∨ ∃ i n b, m = .payload i n ∧ i < bufSize ∧ t.buf = s.buf.write i b := by
  cases h
  case raised => exact .inl (raise_buf _ _)
  case enter => exact .inl (setPoll_buf _ _ _)
  case payload i n b _ _ _ hi _ => exact .inr ⟨i, n, b, rfl, hi, rfl⟩
  all_goals exact .inl rfl

/-! An issue writes registers and the micro-steps still to run, nothing else that these statements read. -/

theorem issued_buf {s t : State} (h : Issued s t) : t.buf = s.buf := by cases h <;> rfl
theorem issued_lines {s t : State} (h : Issued s t) : t.lines = s.lines := by cases h <;> rfl

end Sys2Proof.Machine
end

section
/-! Settles the statements about the host's view of the state: the layout of STATUS and PINS, reset, and which step
changes a line, a field of STATUS or BUF. -/

namespace Sys2Proof.Machine

/-! The layout of STATUS and PINS. -/

theorem Level.isHigh_iff (v : Level) : v.isHigh = true ↔ v = .high := by cases v <;> simp [Level.isHigh]

theorem statusWord_owner (r : Regs) : (statusWord r).extractLsb' 4 2 = ownerBits r.owner := by
  simp (disch := decide) only [statusWord, BitVec.extractLsb'_append_eq_of_le, BitVec.extractLsb'_append_eq_of_add_le]
  simp

/-- Settles O41: both words are concatenations, so a bit or a field is read by dropping the fields below it. -/
theorem statusAndPinsLayout : Obligations.StatusAndPinsLayout := by
  refine ⟨fun r => ⟨?_, ?_, ?_, ?_, ?owner, ?_, ?_, ?_, ?_, ?reserved, ?faultCode, ?lastR1⟩,
    fun l => ⟨?_, ?_, ?_, ?_, ?pins⟩⟩
  case owner =>
    rw [statusWord_owner]
    cases r.owner <;> rfl
  case reserved | faultCode | lastR1 | pins =>
    simp (disch := decide) only [statusWord, pinsWord, BitVec.extractLsb'_append_eq_of_le,
      BitVec.extractLsb'_append_eq_of_add_le]
    simp
  all_goals
    simp only [statusWord, pinsWord, BitVec.getLsbD_append]
    simp [streamOpen, Level.isHigh_iff]

/-! Reset. -/

theorem step_reset {s : State} {q : List Turn} (h : s.env.sched = .reset :: q) :
    step s = .next (resetEngine (setSched q s)) := by simp [step, takeTurn, h]

/-- Power-on leaves what a reset turn leaves. -/
theorem reset_eq_resetEngine : State.reset = resetEngine State.reset := rfl

/-- Settles O48: power-on and a reset turn both leave `resetEngine` of some state. -/
theorem resetValues : Obligations.ResetValues := by
  refine ⟨fun s q h => ⟨_, step_reset h, rfl, rfl, rfl⟩, fun u hu => ?_⟩
  obtain ⟨v, rfl⟩ : ∃ v, u = resetEngine v := by
    rcases hu with rfl | ⟨s, q, hq, h⟩
    · exact ⟨_, reset_eq_resetEngine⟩
    · rw [step_reset hq] at h
      cases h
      exact ⟨_, rfl⟩
  simp [Regs.reset, Lines.reset, Ctl.reset, PollCounts.idle, streamOpen, Memory.read]

/-! What changes only in one way. -/

/-- Settles O54: only a payload byte and a host write change BUF, each at an index inside it. -/
theorem bufStaysCanonical : Obligations.BufStaysCanonical := by
  intro s t hb h
  cases step_turned h with
  | reset => rfl
  | nothing => exact hb
  | done => exact hb
  | read => exact hb
  | write q offset v _ h4 hlt _ => exact writeWord_wf v h4 hlt hb
  | issue q w _ _ ht =>
    rw [issued_buf (issueWord_issued ht)]
    exact hb
  | micro q _ m rest _ _ _ ht =>
    rcases moved_buf (microStep_moved ht) with e | ⟨i, _, b, -, hi, e⟩ <;> rw [e]
    · exact hb
    · exact Memory.wf_write hb hi b

/-- Settles O34: a host access, an issue and the end of an operation drive no line, and a micro-step drives at most
one, with its event (`moved_lines`). -/
theorem linesChangeOnlyWithEvents : Obligations.LinesChangeOnlyWithEvents := by
  intro s t h hreset
  cases step_turned h with
  | reset q hq => exact absurd (by rw [hq]; rfl) hreset
  | nothing => simp
  | done => simp
  | read => simp
  | write => simp
  | issue q w _ _ ht => simp [issued_lines (issueWord_issued ht)]
  | micro q _ m rest _ _ _ ht =>
    cases moved_lines (microStep_moved ht) with
    | kept e => simp [e]
    | csS v e he => simpa [e] using fun _ => he
    | csD v e he => simpa [e] using fun _ => he
    | rst v e he => simpa [e] using fun _ => he
    | dc v e he => simpa [e] using fun _ => he

/-- Settles O51: the end of an operation clears RUNNING, a write to CMD sets RUNNING or OVR and may begin a halt, and a
micro-step writes the registers as `moved_regs` says. -/
theorem statusChangesOnlyInPlace : Obligations.StatusChangesOnlyInPlace := by
  intro s t h hreset
  cases step_turned h with
  | reset q hq => exact absurd (by rw [hq]; rfl) hreset
  | nothing => simp
  | done q _ hr hq => simp [hr, hq]
  | read => simp
  | write q offset v =>
    obtain ⟨a, l, e, -⟩ := writeWord_regs offset v (setSched q s)
    simp [e]
  | issue q w _ hq ht =>
    cases issueWord_issued ht with
    | ignored => simp
    | dropped _ hr => simpa [hq] using fun _ => hr
    | illegal hi =>
      obtain ⟨hh, hr⟩ : s.regs.halted = false ∧ s.regs.running = false := hi
      simp +contextual [issued, hh, hr, hq]
    | accepted hi =>
      obtain ⟨hh, hr⟩ : s.regs.halted = false ∧ s.regs.running = false := hi
      simp [issued, hh, hr, hq]
  | micro q _ m rest _ _ hq ht =>
    cases moved_regs (microStep_moved ht) with
    | kept e => simp [e]
    | fault c h0 ht e => simpa [e, ht] using fun _ => h0
    | lastR1 b hm e => simp [e, hq, hm]
    | sdReady hm e => simp [e, hq, hm]
    | owner o hm e => simp [e, hq, hm]
    | created start who hm e => simp [e, hq, hm, stepItBegin]
    | iterCur a hm e => simp [e]
    | chunkLen n e => simp [e]
    | exhausted hm e => simp [e, hq, hm]
    | cleared hm e => simp [e, hq, hm]
    | dropped hm e => simp [e, hq, hm]
    | dispReady hm e => simp [e, hq, hm]
    | dispOff hm e => simp [e, hq, hm]
    | halted hm e => simp [e, hq, hm]

end Sys2Proof.Machine
end

section
/-! SUPPORT. Where a micro-step leads: a fault, the end of a halt, or micro-steps put in front of those after it. -/

namespace Sys2Proof.Machine

/-- CS_S after a micro-step, before what it puts in front of the steps after it has run. -/
def Micro.nowS (cs : Bool) : Micro → Bool
  | .select p => cs || p.isS
  | .deselect p => cs && !p.isS
  | .frame _ => true
  | .dataPhase _ => true
  | _ => cs

/-- CS_D after a micro-step, before what it puts in front of the steps after it has run. -/
def Micro.nowD (cd : Bool) : Micro → Bool
  | .select p => cd || !p.isS
  | .deselect p => cd && p.isS
  | _ => cd

/-- What a micro-step may put in front of the steps after it: the rest of its transaction, or of its loop. -/
inductive Expansion : Micro → List Micro → Prop where
  | nothing (m : Micro) (hS : ∀ cs, m.nowS cs = m.thenS cs) (hD : ∀ cd, m.nowD cd = m.thenD cd) : Expansion m []
  | spiWrite (p : Port) (bs bs' : List Byte) : Expansion (.spiWrite p bs) [.spiWrite p bs']
  | sendBuf (i j n : Nat) : Expansion (.sendBuf i n) [.sendBuf j n]
  | payload (i j n : Nat) : Expansion (.payload i n) [.payload j n]
  | r1Poll : Expansion .r1Poll [.r1Poll]
  | tokenPoll : Expansion .tokenPoll [.tokenPoll]
  | frame (w : BitVec 48) (bs bs' : List Byte) :
      Expansion (.frame w) [.spiWrite .S bs, .enter .r1, .r1Poll, .deselect .S, .spiWrite .S bs']
  | dataPhase (n : Nat) :
      Expansion (.dataPhase n) [.enter .tok, .tokenPoll, .payload 0 n, .trailer, .trailer, .deselect .S]
  | cmd0Loop (w : BitVec 48) : Expansion .cmd0Loop [.frame w, .cmd0Test]
  | cmd0Test : Expansion .cmd0Test [.cmd0Loop]
  | a41Loop (w w' : BitVec 48) : Expansion .a41Loop [.frame w, .frame w', .cmd41Test]
  | cmd41Test : Expansion .cmd41Test [.a41Loop]
  | pullChunk (n : Nat) : Expansion .itPull [.dataPhase n, .setChunkLen n]
  | pullLast (w : BitVec 48) : Expansion .itPull [.frame w, .pullEnd]
  | itDrop (w : BitVec 48) : Expansion .itDrop [.frame w, .dropEnd]
  | refreshLoop : Expansion .refreshLoop [.itPull, .refreshTest]
  | refreshTest (n : Nat) : Expansion .refreshTest [.dispBuf n, .refreshLoop]
  | opcode (b : Byte) : Expansion (.dispOp b) [.select .D, .spiWrite .D [b], .deselect .D]
  | opcodeData (b : Byte) (bs : List Byte) :
      Expansion (.dispOp b) [.select .D, .spiWrite .D [b], .deselect .D, .dispData bs]
  | dispCmd (b : Byte) : Expansion (.dispCmd b) [.select .D, .spiWrite .D [b], .deselect .D]
  | dispData (bs : List Byte) : Expansion (.dispData bs) [.select .D, .spiWrite .D bs, .deselect .D]
  | dispBuf (n : Nat) : Expansion (.dispBuf n) [.select .D, .sendBuf 0 n, .deselect .D]
  | busyLoop (b : Byte) : Expansion .busyLoop [.dispOp b, .busySample]
  | busySample : Expansion .busySample [.hold .tPoll, .busyLoop]
  | redFill (n k : Nat) (bs : List Byte) : Expansion (.redFill n) [.dispData bs, .redFill k]

/-- Where a micro-step leads. -/
inductive SeqMoved (m : Micro) (s t : State) : Prop where
  | raised (c : FaultCode) (u : State) (hm : m.mayRaise = true) (hcfg : u.cfg = s.cfg) (hregs : u.regs = s.regs)
      (hlines : u.lines = s.lines) (hseq : u.ctl.seq = s.ctl.seq) (h : t = raise c u)
  | halted (hm : m = .haltEnd) (h : t = finishHalt s)
  | returned (hm : m = .shutEnd) (hcfg : t.cfg = s.cfg) (hregs : t.regs = s.regs) (hseq : t.ctl.seq = s.ctl.seq)
      (hS : selectedS t = selectedS s) (hD : s.ctl.shutErr ≠ none ∨ selectedD s = false → selectedD t = false)
  | begun (pre : List Micro) (hm : m ≠ .shutEnd) (hx : Expansion m pre) (hcfg : t.cfg = s.cfg)
      (hrun : t.regs.running = s.regs.running) (hseq : t.ctl.seq = pre ++ s.ctl.seq)
      (hS : selectedS t = m.nowS (selectedS s)) (hD : selectedD t = m.nowD (selectedD s))

/-- A micro-step that is done at once leads to the steps after it. -/
theorem SeqMoved.kept {m : Micro} {s t : State} (hm : m ≠ .shutEnd) (hnS : ∀ cs, m.nowS cs = m.thenS cs)
    (hnD : ∀ cd, m.nowD cd = m.thenD cd) (hcfg : t.cfg = s.cfg) (hrun : t.regs.running = s.regs.running)
    (hseq : t.ctl.seq = s.ctl.seq) (hS : selectedS t = m.nowS (selectedS s)) (hD : selectedD t = m.nowD (selectedD s)) :
    SeqMoved m s t :=
  .begun [] hm (.nothing m hnS hnD) hcfg hrun hseq hS hD

/-- Every micro-step leads to one of these. -/
theorem moved_seq {m : Micro} {s t : State} (h : Moved m s t) : SeqMoved m s t := by
  cases h
  case raised hm _ _ _ => exact .raised _ _ hm (by rfl) (by rfl) (by rfl) (by rfl) rfl
  case haltEnd => exact .halted rfl rfl
  case shutDeselect => exact .returned rfl rfl rfl rfl rfl fun _ => Level.not_beq _
  case shutEnd h =>
    refine .returned rfl rfl rfl rfl rfl fun h' => ?_
    rcases h' with h' | h'
    · simpa [selectedD, h'] using h
    · exact h'
  case enter l => cases l <;> exact .kept nofun (fun _ => rfl) (fun _ => rfl) rfl rfl rfl rfl rfl
  case selectS | selectD =>
    refine .kept nofun (fun _ => rfl) (fun _ => rfl) rfl rfl rfl ?_ ?_ <;>
      simp [selectedS, selectedD, Micro.nowS, Micro.nowD, Port.isS]
  case deselectS | deselectD =>
    refine .kept nofun (fun _ => rfl) (fun _ => rfl) rfl rfl rfl ?_ ?_ <;>
      simp [selectedS, selectedD, Micro.nowS, Micro.nowD, Port.isS, Level.not_beq]
  case writeS | writeD =>
    split
    · exact .kept nofun (fun _ => rfl) (fun _ => rfl) rfl rfl rfl rfl rfl
    · exact .begun _ nofun (.spiWrite _ _ _) rfl rfl rfl rfl rfl
  case sendBuf =>
    split
    · exact .begun _ nofun (.sendBuf _ _ _) rfl rfl rfl rfl rfl
    · exact .kept nofun (fun _ => rfl) (fun _ => rfl) rfl rfl rfl rfl rfl
  case payload =>
    split
    · exact .begun _ nofun (.payload _ _ _) rfl rfl rfl rfl rfl
    · exact .kept nofun (fun _ => rfl) (fun _ => rfl) rfl rfl rfl rfl rfl
  case frame => exact .begun _ nofun (.frame _ _ _) rfl rfl rfl (beq_self_eq_true _) rfl
  case dataPhase => exact .begun _ nofun (.dataPhase _) rfl rfl rfl (beq_self_eq_true _) rfl
  case r1Again => exact .begun _ nofun .r1Poll rfl rfl rfl rfl rfl
  case tokenAgain => exact .begun _ nofun .tokenPoll rfl rfl rfl rfl rfl
  case cmd0Loop => exact .begun _ nofun (.cmd0Loop _) rfl rfl rfl rfl rfl
  case cmd0Again => exact .begun _ nofun .cmd0Test rfl rfl rfl rfl rfl
  case a41Loop => exact .begun _ nofun (.a41Loop _ _) rfl rfl rfl rfl rfl
  case cmd41Again => exact .begun _ nofun .cmd41Test rfl rfl rfl rfl rfl
  case pullChunk => exact .begun _ nofun (.pullChunk _) rfl rfl rfl rfl rfl
  case pullLast => exact .begun _ nofun (.pullLast _) rfl rfl rfl rfl rfl
  case dropSends => exact .begun _ nofun (.itDrop _) rfl rfl rfl rfl rfl
  case refreshLoop => exact .begun _ nofun .refreshLoop rfl rfl rfl rfl rfl
  case refreshAgain => exact .begun _ nofun (.refreshTest _) rfl rfl rfl rfl rfl
  case opcode =>
    split
    · exact .begun _ nofun (.opcode _) rfl rfl rfl rfl rfl
    · exact .begun _ nofun (.opcodeData _ _) rfl rfl rfl rfl rfl
  case dispCmd => exact .begun _ nofun (.dispCmd _) rfl rfl rfl rfl rfl
  case dispData => exact .begun _ nofun (.dispData _) rfl rfl rfl rfl rfl
  case dispBuf => exact .begun _ nofun (.dispBuf _) rfl rfl rfl rfl rfl
  case busyLoop => exact .begun _ nofun (.busyLoop _) rfl rfl rfl rfl rfl
  case busyAgain => exact .begun _ nofun .busySample rfl rfl rfl rfl rfl
  case redFill => exact .begun _ nofun (.redFill _ _ _) rfl rfl rfl rfl rfl
  all_goals exact .kept nofun (fun _ => rfl) (fun _ => rfl) rfl rfl rfl rfl rfl

/-! What an expansion keeps. -/

theorem selectOk_cons {cs cd : Bool} {m : Micro} {q : List Micro} :
    selectOk cs cd (m :: q) = true ↔ (m.needsS = true → cs = false) ∧ (m.needsD = true → cd = false) ∧
      m.thenOnly q = true ∧ selectOk (m.thenS cs) (m.thenD cd) q = true := by
  cases hs : m.needsS <;> cases hd : m.needsD <;> simp [selectOk, hs, hd, and_assoc]

theorem expansion_haltEnd {m : Micro} {pre : List Micro} (h : Expansion m pre) : Micro.haltEnd ∉ pre := by
  cases h <;> simp

theorem expansion_shutEnd {m : Micro} {pre : List Micro} (h : Expansion m pre) : Micro.shutEnd ∉ pre := by
  cases h <;> simp

theorem expansion_offSequence {m : Micro} {pre : List Micro} (h : Expansion m pre) (hm : m.offSequence = true) :
    pre.all Micro.offSequence = true := by
  cases h <;> simp_all [Micro.offSequence]

theorem expansion_panelSide {m : Micro} {pre : List Micro} (h : Expansion m pre) (hm : m.panelSide = true) :
    pre.all Micro.panelSide = true := by
  cases h <;> simp_all [Micro.panelSide, Port.isS]

theorem expansion_selectOk {m : Micro} {pre q : List Micro} {cs cd : Bool} (h : Expansion m pre)
    (hq : selectOk cs cd (m :: q) = true) : selectOk (m.nowS cs) (m.nowD cd) (pre ++ q) = true := by
  obtain ⟨hS, hD, -, hq⟩ := selectOk_cons.mp hq
  cases h
  case nothing h1 h2 => simpa [h1, h2] using hq
  all_goals simp_all [selectOk_cons, Micro.needsS, Micro.needsD, Micro.thenS, Micro.thenD, Micro.thenOnly, Micro.nowS,
    Micro.nowD, Port.isS]

end Sys2Proof.Machine
end

section
/-! Settles HaltStaysSound: when the last step of a halt is pending, and what FAULT_CODE then is. -/

namespace Sys2Proof.Machine

/-- No operation begins with the last step of a halt. -/
theorem program_haltEnd {s : State} {i : Instr} {q : List Micro} (h : Program s i q) : Micro.haltEnd ∉ q := by
  cases h
  case dispInit =>
    have hstep (a : Config.InitStep) : Micro.haltEnd ∉ initStep a := by cases a <;> simp [initStep, waitIdle]
    simp [dispInitSteps, resetPulse, hstep]
  all_goals
    simp [sdInitSteps, sdReadSectorSteps, sdReadStartSteps, sdReadNextSteps, sdReadEndSteps, iterStartSteps, itStart,
      dispRefreshSteps, shutdown, shutdownTail, waitIdle, frameCmd8, frameCmd12, frameCmd17, frameCmd18]

theorem halt_faultCode_ne_zero (c : FaultCode) (s : State) : (halt c s).regs.faultCode ≠ 0x00#8 := by
  rw [halt_faultCode]
  split
  · exact c.code_ne_zero
  · assumption

/-- Only the last step of a halt changes HALTED. -/
theorem moved_halted {m : Micro} {s t : State} (h : Moved m s t) (hm : m ≠ .haltEnd) :
    t.regs.halted = s.regs.halted := by
  cases moved_regs h with
  | halted hm' _ => exact absurd hm' hm
  | created start who _ e => rw [e, stepItBegin]
  | _ => simp [*]

/-- FAULT_CODE never returns to 0. -/
theorem moved_faultCode {m : Micro} {s t : State} (h : Moved m s t) (hs : s.regs.faultCode ≠ 0x00#8) :
    t.regs.faultCode ≠ 0x00#8 := by
  cases moved_regs h with
  | fault c h0 => exact absurd h0 hs
  | created start who _ e => rwa [e, stepItBegin]
  | _ => simp [*]

/-- The last step of a halt comes to stand among the steps still to run only with a fault. -/
theorem moved_haltEnd_mem {m : Micro} {s t : State} (h : Moved m s t) (ht : Micro.haltEnd ∈ t.ctl.seq) :
    Micro.haltEnd ∈ s.ctl.seq ∨ t.regs.faultCode ≠ 0x00#8 := by
  cases moved_seq h with
  | raised c u _ _ _ _ hseq e =>
    subst e
    rcases raise_cases c u with ⟨q, hc, e⟩ | ⟨-, e⟩
    · rw [e] at ht
      exact .inl (hseq ▸ (catchPoint_suffix hc).subset ht)
    · exact .inr (e ▸ halt_faultCode_ne_zero c u)
  | halted _ e => simp [e] at ht
  | returned _ _ _ hseq => exact .inl (hseq ▸ ht)
  | begun pre _ hx _ _ hseq =>
    rw [hseq, List.mem_append] at ht
    exact .inl (ht.resolve_left (expansion_haltEnd hx))

/-- A micro-step keeps `HaltSound`, run from a state in which it held with the micro-step in front. -/
theorem moved_haltSound {m : Micro} {s t : State} (h : Moved m s t) (hr : s.regs.running = true)
    (hs : HaltSound (setSeq (m :: s.ctl.seq) s)) : HaltSound t := by
  obtain ⟨hh, hm⟩ := hs
  have hnot : s.regs.halted = false := by
    by_contra hc
    exact absurd hr (by simpa using (hh (by simpa using hc)).1)
  constructor
  · intro ht
    by_cases he : m = .haltEnd
    · subst he
      cases h
      case raised hraise _ _ _ => cases hraise
      case haltEnd => exact ⟨rfl, hm (by simp)⟩
    · rw [moved_halted h he, hnot] at ht
      cases ht
  · intro ht
    rcases moved_haltEnd_mem h ht with hmem | hf
    · exact moved_faultCode h (hm (by simp [hmem]))
    · exact hf

theorem issued_haltSound {s t : State} (h : Issued s t) (hs : HaltSound s) : HaltSound t := by
  cases h with
  | ignored => exact hs
  | dropped hh _ => exact ⟨fun ht => absurd (hh.symm.trans ht) (by decide), hs.2⟩
  | illegal hi c opc p =>
    exact ⟨fun ht => absurd (hi.1.symm.trans ht) (by decide), fun _ => halt_faultCode_ne_zero c _⟩
  | accepted hi i opc p q _ _ hq =>
    exact ⟨fun ht => absurd (hi.1.symm.trans ht) (by decide), fun ht => absurd ht (program_haltEnd hq)⟩

/-- Settles O56: HALTED rises only at the last step of a halt, which comes to stand among the steps still to run only
with a fault (`moved_haltEnd_mem`), and FAULT_CODE never returns to 0 (`moved_faultCode`). -/
theorem haltStaysSound : Obligations.HaltStaysSound := by
  intro s t hs h
  cases step_turned h with
  | reset => exact ⟨nofun, nofun⟩
  | nothing => exact hs
  | done => exact ⟨fun ht => ⟨rfl, (hs.1 ht).2⟩, nofun⟩
  | read => exact hs
  | write q offset v =>
    obtain ⟨a, l, e, -⟩ := writeWord_regs offset v (setSched q s)
    simpa [HaltSound, e] using hs
  | issue q w _ _ ht => exact issued_haltSound (issueWord_issued ht) hs
  | micro q _ m rest _ hr hq ht =>
    refine moved_haltSound (microStep_moved ht) hr ?_
    simpa [HaltSound, hq] using hs

end Sys2Proof.Machine
end

section
/-! Settles SequenceStaysSound: what leaves the chunk sequence's registers alone, and the micro-steps that do not. -/

namespace Sys2Proof.Machine

/-- The parameters and the chunk sequence's registers are the same in both states. -/
structure SameSequence (s t : State) : Prop where
  cfg : t.cfg = s.cfg
  owner : t.regs.owner = s.regs.owner
  iterActive : t.regs.iterActive = s.regs.iterActive
  iterEnded : t.regs.iterEnded = s.regs.iterEnded
  iterCur : t.regs.iterCur = s.regs.iterCur
  iterEnd : t.regs.iterEnd = s.regs.iterEnd

theorem SameSequence.of_eq {s t : State} (hcfg : t.cfg = s.cfg) (hregs : t.regs = s.regs) : SameSequence s t :=
  ⟨hcfg, hregs ▸ rfl, hregs ▸ rfl, hregs ▸ rfl, hregs ▸ rfl, hregs ▸ rfl⟩

/-- With the same registers only the micro-steps still to run are in question, whatever they were before (`q`). -/
theorem SameSequence.sound {s t : State} (h : SameSequence s t) {q : List Micro} (hs : SequenceSound (setSeq q s))
    (hseq : sequenceOk s.cfg s.regs.iterActive (s.regs.iterActive && !s.regs.iterEnded) t.ctl.seq = true) :
    SequenceSound t := by
  obtain ⟨hended, howner, hcur, -⟩ := hs
  obtain ⟨h1, h2, h3, h4, h5, h6⟩ := h
  exact ⟨by rwa [h3, h4], by rwa [h2, h3, h4], by rwa [h3, h5, h6], by rwa [h1, h3, h4]⟩

/-- A micro-step off the sequence leaves the sequence's registers as they were. -/
theorem moved_sameSequence {m : Micro} {s t : State} (h : Moved m s t) (hm : m.offSequence = true) :
    SameSequence s t := by
  have hcfg : t.cfg = s.cfg := moved_cfg h
  cases moved_regs h
  case owner hm' _ | created hm' _ | iterCur hm' _ | exhausted hm' _ | cleared hm' _ | dropped hm' _ =>
    subst hm'
    cases hm
  all_goals constructor <;> simp [*]

theorem sequenceOk_tail {p : Config.Params} {a l : Bool} {m : Micro} {q : List Micro} (hm : m.offSequence = true)
    (h : sequenceOk p a l (m :: q) = true) : sequenceOk p a l q = true := by
  cases m <;> first
    | exact h
    | exact sequenceOk_offSequence h a l
    | cases hm

/-- Where a micro-step off the sequence leads, the lifecycle is respected. -/
theorem moved_sequenceOk {m : Micro} {s t : State} (h : Moved m s t) (hm : m.offSequence = true) {p : Config.Params}
    {a l : Bool} (hq : sequenceOk p a l (m :: s.ctl.seq) = true) : sequenceOk p a l t.ctl.seq = true := by
  have hrest := sequenceOk_tail hm hq
  cases moved_seq h with
  | raised c u _ _ _ _ hseq e =>
    rw [e]
    rcases raise_seq c u with ⟨r, hc, e, -⟩ | ⟨-, e⟩ <;> rw [e]
    · exact sequenceOk_offSequence (sequenceOk_catchPoint hrest (hseq ▸ hc)) a l
    · exact sequenceOk_offSequence (teardown_offSequence u) a l
  | halted _ e => rw [e]; rfl
  | returned _ _ _ hseq => rwa [hseq]
  | begun pre _ hx _ _ hseq =>
    rwa [hseq, sequenceOk_append _ (expansion_offSequence hx hm) (expansion_shutEnd hx)]

/-- A pull advances ITER_CUR to ITER_END at most (R202). -/
theorem nextChunk_le (r : Regs) (h : r.iterCur < r.iterEnd) :
    BitVec.ofNat 32 (r.iterCur.toNat + nextChunk r) ≤ r.iterEnd := by
  have hlt : r.iterCur.toNat < r.iterEnd.toNat := h
  have hle : r.iterCur.toNat + nextChunk r ≤ r.iterEnd.toNat := by
    simp only [nextChunk, chunkMax]
    omega
  rw [BitVec.le_def, BitVec.toNat_ofNat, Nat.mod_eq_of_lt (by have := r.iterEnd.isLt; omega)]
  exact hle

/-- A plane that ends inside 32 bits does not end before its start. -/
theorem plane_le {start : Word} {n : Nat} (h : start.toNat + n ≤ 0xFFFFFFFF) :
    start ≤ BitVec.ofNat 32 (start.toNat + n) := by
  rw [BitVec.le_def, BitVec.toNat_ofNat, Nat.mod_eq_of_lt (by omega)]
  omega

theorem offSequence_of_mayRaise {m : Micro} (h : m.mayRaise = true) : m.offSequence = true := by
  cases m <;> first | rfl | simp [Micro.mayRaise] at h

/-- A micro-step of the chunk sequencer, or one that writes OWNER, keeps the sequence's invariants. -/
theorem moved_sequenceSound_on {m : Micro} {s t : State} (h : Moved m s t) (hm : m.offSequence = false)
    (hs : SequenceSound (setSeq (m :: s.ctl.seq) s)) : SequenceSound t := by
  obtain ⟨hended, howner, hcur, hq⟩ := hs
  simp only [setSeq_regs, setSeq_cfg, setSeq_seq] at hended howner hcur hq
  cases h
  case raised hraise _ _ _ => exact absurd (offSequence_of_mayRaise hraise) (by simp [hm])
  case setOwner o =>
    simp only [sequenceOk, Bool.and_eq_true] at hq
    refine ⟨hended, fun (ha : s.regs.iterActive = true) (he : s.regs.iterEnded = false) => ?_, hcur, hq.2⟩
    simp [ha, he] at hq
  case itBegin start who =>
    simp only [sequenceOk, Bool.and_eq_true, Bool.or_eq_true, beq_iff_eq, decide_eq_true_eq] at hq
    obtain ⟨⟨hwho, hplane⟩, hq⟩ := hq
    exact ⟨nofun, fun _ _ => hwho, fun _ => plane_le hplane, hq⟩
  case pullChunk hlt =>
    simp only [sequenceOk, Bool.and_eq_true] at hq
    exact ⟨hended, howner, fun _ => nextChunk_le s.regs hlt, hq.2⟩
  case pullLast hn he =>
    simp only [sequenceOk, Bool.and_eq_true, he, Bool.not_false, Bool.and_true] at hq
    obtain ⟨ha, hq⟩ := hq
    rw [ha] at hq
    refine ⟨hended, howner, hcur, ?_⟩
    simpa [frameCmd12, sequenceOk, ha] using sequenceOk_exhausted hq
  case pullAfter =>
    simp only [sequenceOk, Bool.and_eq_true] at hq
    exact ⟨hended, howner, hcur, hq.2⟩
  case pullEnd =>
    simp only [sequenceOk, Bool.and_eq_true] at hq
    exact ⟨fun _ => hq.1, fun _ => nofun, hcur, by simpa using hq.2⟩
  case dropSends => exact ⟨hended, howner, hcur, hq⟩
  case dropClears => exact ⟨nofun, nofun, nofun, hq⟩
  case dropEnd => exact ⟨nofun, nofun, nofun, hq⟩
  case refreshLoop =>
    refine ⟨hended, howner, hcur, ?_⟩
    simpa [sequenceOk] using hq
  case refreshEnd =>
    simp only [sequenceOk, Bool.and_eq_true] at hq
    exact ⟨hended, howner, hcur, hq.2⟩
  case refreshAgain => exact ⟨hended, howner, hcur, hq⟩
  all_goals cases hm

/-- Every micro-step keeps the sequence's invariants, run from a state in which they held with it in front. -/
theorem moved_sequenceSound {m : Micro} {s t : State} (h : Moved m s t)
    (hs : SequenceSound (setSeq (m :: s.ctl.seq) s)) : SequenceSound t := by
  by_cases hm : m.offSequence = true
  · exact (moved_sameSequence h hm).sound hs (moved_sequenceOk h hm hs.2.2.2)
  · exact moved_sequenceSound_on h (by simpa using hm) hs

/-- The micro-steps an operation begins with respect the sequence's lifecycle: SD_READ_START and SD_READ_END set OWNER
only where no unexhausted sequence holds it, and a pull needs a sequence (R272). -/
theorem program_sequenceOk {s : State} {i : Instr} {q : List Micro} (h : Program s i q) (hs : SequenceSound s)
    (hc : stateCheck i s = true) (ho : operandCheck i s = true) :
    sequenceOk s.cfg s.regs.iterActive (s.regs.iterActive && !s.regs.iterEnded) q = true := by
  obtain ⟨-, howner, -, -⟩ := hs
  have hplane (p : Bool) (h : planeStart p s + s.cfg.planeLen ≤ 0xFFFFFFFF) :
      (BitVec.ofNat 32 (planeStart p s)).toNat + s.cfg.planeLen ≤ 0xFFFFFFFF := by
    rw [BitVec.toNat_ofNat, Nat.mod_eq_of_lt] <;> omega
  have hfree (h : s.regs.owner = .none ∨ s.regs.owner = .raw) : (s.regs.iterActive && !s.regs.iterEnded) = false := by
    rcases h with h | h <;> simpa [h] using howner
  cases h
  case sdReadStart =>
    simp only [stateCheck, Bool.and_eq_true, beq_iff_eq] at hc
    rw [hfree (.inl hc.2)]
    rfl
  case sdReadEnd =>
    simp only [stateCheck, beq_iff_eq] at hc
    rw [hfree (.inr hc)]
    rfl
  case iterStart p =>
    simpa [iterStartSteps, itStart, frameCmd18, sequenceOk] using hplane p (of_decide_eq_true ho)
  case iterPull => simpa [stateCheck, sequenceOk] using hc
  case dispRefresh =>
    simpa [dispRefreshSteps, itStart, frameCmd18, waitIdle, sequenceOk] using
      hplane false (of_decide_eq_true ho)
  case dispInit =>
    obtain ⟨hall, hend⟩ := initSteps_offSequence s.cfg.initSeq
    rw [dispInitSteps, List.append_assoc, sequenceOk_append _ rfl (by simp [resetPulse]), sequenceOk_append _ hall hend]
    rfl
  all_goals rfl

theorem issued_sequenceSound {s t : State} (h : Issued s t) (hs : SequenceSound s) : SequenceSound t := by
  cases h with
  | ignored => exact hs
  | dropped => exact hs
  | illegal hi c opc p =>
    exact SameSequence.sound (s := s) (q := s.ctl.seq) ⟨rfl, rfl, rfl, rfl, rfl, rfl⟩ hs
      (sequenceOk_offSequence (teardown_offSequence _) _ _)
  | accepted hi i opc p q hc ho hq =>
    exact SameSequence.sound (s := s) (q := s.ctl.seq) ⟨rfl, rfl, rfl, rfl, rfl, rfl⟩ hs
      (program_sequenceOk hq hs hc ho)

/-- Settles O57: a micro-step off the sequence leaves its registers (`moved_sameSequence`) and puts no step of it in
front (`moved_sequenceOk`); the few that write them are taken one by one (`moved_sequenceSound_on`); an issue's state checks
admit the operation's steps (`program_sequenceOk`). -/
theorem sequenceStaysSound : Obligations.SequenceStaysSound := by
  intro s t hs h
  cases step_turned h with
  | reset => exact ⟨nofun, nofun, nofun, rfl⟩
  | nothing => exact hs
  | done q => exact SameSequence.sound (s := s) (q := s.ctl.seq) ⟨rfl, rfl, rfl, rfl, rfl, rfl⟩ hs rfl
  | read => exact hs
  | write q offset v =>
    obtain ⟨a, l, e, -⟩ := writeWord_regs offset v (setSched q s)
    have same : SameSequence s (writeWord offset v (setSched q s)) := by constructor <;> simp [e]
    exact same.sound (q := s.ctl.seq) hs (by simpa using hs.2.2.2)
  | issue q w _ _ ht => exact issued_sequenceSound (issueWord_issued ht) hs
  | micro q _ m rest _ _ hq ht =>
    refine moved_sequenceSound (microStep_moved ht) ?_
    simpa [SequenceSound, hq] using hs

end Sys2Proof.Machine
end

section
/-! Settles SelectStaysSound and ResetMeetsInvariants: where a fault leads, where a micro-step leads, and the turns. -/

namespace Sys2Proof.Machine

/-- A fault raised before these micro-steps finds CS_S deasserted where `Shutdown()` catches it: none of them is the
return point, or only the panel's side runs before it, perhaps after CS_S has been deasserted. -/
def CatchReady (cs : Bool) (q : List Micro) : Prop :=
  (catchPoint q).isNone = true ∨ (cs = false ∧ shutdownOk q = true) ∨
    ∃ q', q = .deselect .S :: q' ∧ shutdownOk q' = true

/-- A state in which an operation or a halt runs, its remaining micro-steps keep the select discipline, and no fault
waits at the return point of `Shutdown()`. -/
theorem SelectSound.of_running {s : State} (hr : s.regs.running = true)
    (hok : selectOk (selectedS s) (selectedD s) s.ctl.seq = true) (hc : CatchReady (selectedS s) s.ctl.seq) :
    SelectSound s :=
  ⟨fun h => absurd (hr.symm.trans h) (by decide), fun _ => .inl ⟨hok, hc⟩⟩

theorem SelectSound.of_idle {s : State} (hr : s.regs.running = false) (hS : selectedS s = false)
    (hD : selectedD s = false) : SelectSound s :=
  ⟨fun _ => ⟨hS, hD⟩, fun h => absurd (hr.symm.trans h) (by decide)⟩

/-- The select discipline reads RUNNING, the lines and the micro-steps still to run, with the error a `Shutdown()` has
caught. -/
theorem SelectSound.of_eq {s t : State} (hs : SelectSound s) (hr : t.regs.running = s.regs.running)
    (hcfg : t.cfg = s.cfg) (hlines : t.lines = s.lines) (hseq : t.ctl.seq = s.ctl.seq)
    (herr : t.ctl.shutErr = s.ctl.shutErr) : SelectSound t := by
  simpa only [SelectSound, selectedS, selectedD, hr, hcfg, hlines, hseq, herr] using hs

/-! Faults. -/

/-- Where `Shutdown()` catches a fault of a micro-step that deasserts no CS_S, CS_S is deasserted. -/
theorem CatchReady.deasserted {cs : Bool} {m : Micro} {q r : List Micro} (h : CatchReady cs (m :: q))
    (hm : m ≠ .deselect .S) (hc : catchPoint (m :: q) = some r) : cs = false := by
  rcases h with h | ⟨h, -⟩ | ⟨q', e, -⟩
  · simp [hc] at h
  · exact h
  · cases e
    exact absurd rfl hm

theorem selectOk_afterShutdown {cs cd : Bool} {q r : List Micro} (h : selectOk cs cd q = true)
    (hc : catchPoint q = some (.shutEnd :: r)) : afterShutdown r = true := by
  obtain ⟨r', e, hr⟩ := selectOk_catchPoint h hc
  cases e
  exact hr

theorem halt_selectSound (c : FaultCode) {s : State} (hr : s.regs.running = true) : SelectSound (halt c s) :=
  .of_running hr (teardown_selectOk s).1 (teardown_selectOk s).2

/-- A fault is caught at the return point of `Shutdown()`, or halts. -/
theorem raise_selectSound (c : FaultCode) {s : State} (hr : s.regs.running = true)
    (hc : ∀ q, catchPoint s.ctl.seq = some (.shutEnd :: q) → selectedS s = false ∧ afterShutdown q = true) :
    SelectSound (raise c s) := by
  rcases raise_cases c s with ⟨q, hq, e⟩ | ⟨-, e⟩ <;> rw [e]
  · obtain ⟨hS, ha⟩ := hc q hq
    exact ⟨fun h => absurd (hr.symm.trans h) (by decide), fun _ => .inr ⟨hS, nofun, q, rfl, ha⟩⟩
  · exact halt_selectSound c hr

/-! Where a micro-step leads. -/

theorem nowS_of_panelSide {m : Micro} (h : m.panelSide = true) (cs : Bool) : m.nowS cs = cs := by
  cases m
  case select p => cases p <;> simp_all [Micro.panelSide, Micro.nowS, Port.isS]
  case deselect p => cases p <;> simp_all [Micro.panelSide, Micro.nowS, Port.isS]
  all_goals first | rfl | cases h

theorem not_shutEnd_of_mayRaise {m : Micro} (h : m.mayRaise = true) : m ≠ .shutEnd := by
  rintro rfl
  cases h

theorem not_deselectS_of_mayRaise {m : Micro} (h : m.mayRaise = true) : m ≠ .deselect .S := by
  rintro rfl
  cases h

theorem catchPoint_append {pre : List Micro} (h : Micro.shutEnd ∉ pre) (q : List Micro) :
    catchPoint (pre ++ q) = catchPoint q := by
  induction pre with
  | nil => rfl
  | cons m pre ih =>
    obtain ⟨hm, hpre⟩ : Micro.shutEnd ≠ m ∧ Micro.shutEnd ∉ pre := by simpa using h
    rw [List.cons_append, catchPoint_cons hm.symm, ih hpre]

theorem shutdownOk_cons {m : Micro} (h : m ≠ .shutEnd) (q : List Micro) :
    shutdownOk (m :: q) = ((catchPoint q).isNone || (m.panelSide && shutdownOk q)) := by
  cases m <;> first | rfl | exact absurd rfl h

theorem shutdownOk_append {pre q : List Micro} (h : Micro.shutEnd ∉ pre) (hp : pre.all Micro.panelSide = true)
    (hq : shutdownOk q = true) : shutdownOk (pre ++ q) = true := by
  induction pre with
  | nil => exact hq
  | cons m pre ih =>
    obtain ⟨hm, hpre⟩ : Micro.shutEnd ≠ m ∧ Micro.shutEnd ∉ pre := by simpa using h
    rw [List.all_cons, Bool.and_eq_true] at hp
    rw [List.cons_append, shutdownOk_cons hm.symm, ih hpre hp.2, hp.1]
    simp

/-- What a micro-step puts in front of the steps after it leaves them ready for a fault. -/
theorem expansion_catchReady {m : Micro} {pre q : List Micro} {cs : Bool} (hx : Expansion m pre) (hm : m ≠ .shutEnd)
    (h : CatchReady cs (m :: q)) : CatchReady (m.nowS cs) (pre ++ q) := by
  have hpre := expansion_shutEnd hx
  rcases h with h | ⟨hS, h⟩ | ⟨q', e, h⟩
  · exact .inl (by rwa [catchPoint_append hpre, ← catchPoint_cons hm])
  · rw [shutdownOk_cons hm, Bool.or_eq_true, Bool.and_eq_true] at h
    rcases h with h | ⟨hp, h⟩
    · exact .inl (by rwa [catchPoint_append hpre])
    · exact .inr (.inl ⟨by rw [nowS_of_panelSide hp, hS], shutdownOk_append hpre (expansion_panelSide hx hp) h⟩)
  · cases e
    cases hx
    exact .inr (.inl ⟨by simp [Micro.nowS, Port.isS], h⟩)

/-- After the return point of `Shutdown()` the select discipline holds with both selects deasserted. -/
theorem afterShutdown_selectOk {q : List Micro} (h : afterShutdown q = true) :
    selectOk false false q = true ∧ (catchPoint q).isNone = true := by
  simp only [afterShutdown, Bool.or_eq_true, beq_iff_eq] at h
  rcases h with rfl | rfl <;> decide

/-- A micro-step keeps the select discipline, run from a state in which the discipline held with it in front. -/
theorem moved_selectSound {m : Micro} {s t : State} (h : Moved m s t) (hr : s.regs.running = true)
    (hs : SelectSound (setSeq (m :: s.ctl.seq) s)) : SelectSound t := by
  rcases hs.2 hr with ⟨hok, hc⟩ | ⟨hS, herr, q, hq, ha⟩
  · have hok : selectOk (selectedS s) (selectedD s) (m :: s.ctl.seq) = true := hok
    have hc : CatchReady (selectedS s) (m :: s.ctl.seq) := hc
    obtain ⟨hnS, hnD, honly, -⟩ := selectOk_cons.mp hok
    cases moved_seq h with
    | raised c u hm hcfg hregs hlines hseq e =>
      subst e
      refine raise_selectSound c (by rwa [hregs]) fun q hq => ?_
      rw [hseq, ← catchPoint_cons (not_shutEnd_of_mayRaise hm)] at hq
      have hS : selectedS u = selectedS s := by simp only [selectedS, hlines, hcfg]
      exact ⟨hS.trans (hc.deasserted (not_deselectS_of_mayRaise hm) hq), selectOk_afterShutdown hok hq⟩
    | halted hm e =>
      subst hm e
      exact .of_idle rfl (hnS rfl) (hnD rfl)
    | returned hm hcfg hregs hseq htS htD =>
      subst hm
      obtain ⟨hq, hc⟩ := afterShutdown_selectOk honly
      refine .of_running (by rwa [hregs]) ?_ (.inl (by rwa [hseq]))
      rwa [hseq, htS, hnS rfl, htD (.inr (hnD rfl))]
    | begun pre hm hx hcfg hrun hseq htS htD =>
      refine .of_running (by rwa [hrun]) ?_ ?_
      · rw [hseq, htS, htD]
        exact expansion_selectOk hx hok
      · rw [hseq, htS]
        exact expansion_catchReady hx hm hc
  · cases hq
    obtain ⟨hq, hc⟩ := afterShutdown_selectOk ha
    cases moved_seq h with
    | raised c u hm => cases hm
    | halted hm => cases hm
    | returned hm hcfg hregs hseq htS htD =>
      refine .of_running (by rwa [hregs]) ?_ (.inl (by rwa [hseq]))
      have hS : selectedS s = false := hS
      rwa [hseq, htS, hS, htD (.inl herr)]
    | begun pre hm => exact absurd rfl hm

/-! Turns. -/

/-- The micro-steps an operation begins with keep the select discipline, from both selects deasserted. -/
theorem program_selectOk {s : State} {i : Instr} {q : List Micro} (h : Program s i q) :
    selectOk false false q = true ∧ CatchReady false q := by
  cases h
  case dispInit =>
    obtain ⟨hok, hc⟩ := initSteps_selectOk s.cfg.initSeq
    rw [dispInitSteps, List.append_assoc]
    exact ⟨hok, .inl hc⟩
  case dispShutdown => exact ⟨by decide, .inr (.inl ⟨rfl, by decide⟩)⟩
  all_goals exact ⟨rfl, .inl rfl⟩

theorem issued_selectSound {s t : State} (h : Issued s t) (hs : SelectSound s) : SelectSound t := by
  cases h with
  | ignored => exact hs
  | dropped => exact hs.of_eq rfl rfl rfl rfl rfl
  | illegal _ c => exact halt_selectSound c rfl
  | accepted hi i opc p q _ _ hq =>
    obtain ⟨hS, hD⟩ := hs.1 hi.2
    obtain ⟨hok, hc⟩ := program_selectOk hq
    have htS : selectedS (setSeq q (issued opc p s)) = false := hS
    have htD : selectedD (setSeq q (issued opc p s)) = false := hD
    exact .of_running rfl (by rwa [htS, htD]) (by rwa [htS])

theorem resetEngine_selectSound (s : State) : SelectSound (resetEngine s) :=
  .of_idle rfl (Level.not_beq _) (Level.not_beq _)

/-- Settles O58: an operation and a teardown begin with micro-steps that keep the discipline (`program_selectOk`,
`halt_selectSound`), each micro-step keeps it (`moved_selectSound`), and where none is left both selects are
deasserted. -/
theorem selectStaysSound : Obligations.SelectStaysSound := by
  intro s t hs h
  cases step_turned h with
  | reset => exact resetEngine_selectSound _
  | nothing => exact hs.of_eq rfl rfl rfl rfl rfl
  | done q _ hr hq =>
    rcases hs.2 hr with ⟨hok, -⟩ | ⟨-, -, r, hq', -⟩
    · obtain ⟨hS, hD⟩ : selectedS s = false ∧ selectedD s = false := by simpa [hq, selectOk] using hok
      exact .of_idle rfl hS hD
    · exact absurd (hq.symm.trans hq') nofun
  | read => exact hs.of_eq rfl rfl rfl rfl rfl
  | write q offset v =>
    obtain ⟨a, l, e, -⟩ := writeWord_regs offset v (setSched q s)
    exact hs.of_eq (by simp [e]) (by simp) (by simp) (by simp) (by simp)
  | issue q w _ _ ht => exact issued_selectSound (issueWord_issued ht) (hs.of_eq rfl rfl rfl rfl rfl)
  | micro q _ m rest _ hr hq ht =>
    exact moved_selectSound (microStep_moved ht) hr (hs.of_eq rfl rfl rfl hq.symm rfl)

/-- Settles O53: nothing runs after reset, and every register has the value that R53 gives it. -/
theorem resetMeetsInvariants : Obligations.ResetMeetsInvariants :=
  ⟨reset_buf_wf, ⟨nofun, by decide⟩, ⟨nofun, nofun⟩, ⟨nofun, nofun, nofun, rfl⟩,
    resetEngine_selectSound State.reset⟩

end Sys2Proof.Machine
end

section
/-! SUPPORT. A host turn, said once: what it asks for, and what a read and a write of a register or of a BUF word do
(20_memory.md R71 to R74). -/

namespace Sys2Proof.Machine

/-! Turns. -/

theorem step_hostRead {s : State} {offset size : Nat} {q : List Turn} (h : s.env.sched = .read offset size :: q) :
    step s = hostRead offset size (setSched q s) := by simp [step, takeTurn, h]

theorem step_hostWrite {s : State} {offset size : Nat} {v : Word} {q : List Turn}
    (h : s.env.sched = .write offset size v :: q) : step s = hostWrite offset size v (setSched q s) := by
  simp [step, takeTurn, h]

theorem hostAccess_refused {offset size : Nat} (h : size ≠ 4 ∨ offset % 4 ≠ 0) (k : State → Result) (s : State) :
    hostAccess offset size k s = .refused (.hostAccessNotAWord offset size) := if_pos h

/-- An aligned word inside the register space is accessed. -/
theorem hostAccess_word {offset : Nat} (h4 : offset % 4 = 0) (hlt : offset < 0x400) (k : State → Result) (s : State) :
    hostAccess offset 4 k s = k s := by
  simp only [hostAccess, h4, ne_eq, not_true_eq_false, or_self, if_false, if_neg (Nat.not_le.mpr hlt)]

theorem step_read_word {s : State} {offset : Nat} {q : List Turn} (h : s.env.sched = .read offset 4 :: q)
    (h4 : offset % 4 = 0) (hlt : offset < 0x400) :
    step s = .next (recordRead offset (readWord offset (setSched q s)).1 (readWord offset (setSched q s)).2) := by
  rw [step_hostRead h, hostRead, hostAccess_word h4 hlt]

/-- Of the three ends of a host read only the access itself answers a next state. -/
theorem step_read_next {s t : State} {offset size : Nat} {q : List Turn} (hq : s.env.sched = .read offset size :: q)
    (h : step s = .next t) :
    t = recordRead offset (readWord offset (setSched q s)).1 (readWord offset (setSched q s)).2 := by
  rcases hostAccess_cases offset size _ (setSched q s) with ⟨-, e⟩ | ⟨-, -, -, e⟩ | ⟨hsize, h4, hlt, -⟩
  · rw [step_hostRead hq, hostRead, e] at h
    cases h
  · rw [step_hostRead hq, hostRead, e] at h
    cases h
  · subst hsize
    rw [step_read_word hq h4 hlt] at h
    exact (Host.Outcome.next.inj h).symm

theorem step_write_word {s : State} {offset : Nat} {v : Word} {q : List Turn} (h : s.env.sched = .write offset 4 v :: q)
    (h4 : offset % 4 = 0) (h0 : offset ≠ 0x000) (hlt : offset < 0x400) :
    step s = .next (writeWord offset v (setSched q s)) := by
  rw [step_hostWrite h, hostWrite, hostAccess_word h4 hlt, if_neg h0]

/-! Registers. -/

/-- The host reads LEN and CHUNK_LEN with zeros above bit 9 (10_state.md R34, R46). -/
theorem zext10_eq_append (v : BitVec 10) : zext10 v = 0#22 ++ v := BitVec.setWidth_eq_append (by decide)

/-- Below BUF a read takes the value of its offset from the state and changes nothing. -/
theorem readWord_register {offset : Nat} (h : offset < 0x200) (s : State) :
    readWord offset s =
      (if offset = 0x004 then s.regs.arg
        else if offset = 0x008 then 0#22 ++ s.regs.len
        else if offset = 0x00C then statusWord s.regs
        else if offset = 0x010 then 0#22 ++ s.regs.chunkLen
        else if offset = 0x014 then s.regs.iterCur
        else if offset = 0x018 then s.regs.iterEnd
        else if offset = 0x01C then pinsWord s.lines
        else 0x00000000#32, s) := by
  rw [readWord, if_neg (Nat.not_le.mpr h)]
  simp only [zext10_eq_append, apply_ite (Prod.mk · s)]

/-- Below BUF a write while RUNNING = 0 stores ARG, or the low ten bits in LEN. -/
theorem writeWord_register {offset : Nat} (h : offset < 0x200) (v : Word) {s : State} (hr : s.regs.running = false) :
    writeWord offset v s =
      if offset = 0x004 then { s with regs.arg := v }
      else if offset = 0x008 then { s with regs.len := v.extractLsb' 0 10 }
      else s := by
  rw [writeWord, if_neg (by simp [hr]), if_neg (Nat.not_le.mpr h), BitVec.setWidth_eq_extractLsb' (by decide)]

/-! BUF words. -/

/-- The four bytes of a word, the least significant first. -/
def wordBytes (v : Word) : List Byte :=
  [v.extractLsb' 0 8, v.extractLsb' 8 8, v.extractLsb' 16 8, v.extractLsb' 24 8]

theorem wordBytes_getElem (v : Word) {j : Nat} (h : j < (wordBytes v).length) :
    (wordBytes v)[j] = v.extractLsb' (8 * j) 8 := by
  match j, h with
  | 0, _ | 1, _ | 2, _ | 3, _ => rfl

/-- A host write of BUF word k stores the word's bytes from index 4k up. -/
theorem writeBufWord_eq_storeBytes (k : Nat) (v : Word) (s : State) :
    writeBufWord k v s = { s with buf := storeBytes s.buf (4 * k) (wordBytes v) } := rfl

theorem bufRead_buf (i : Nat) (s : State) : (bufRead i s).2.buf = s.buf := by
  rcases bufRead_spec i s with h | h <;> rw [h]

/-- A BUF word is the bytes read at its four indexes, each in a state with the same BUF, the last index first. -/
theorem readBufWord_bytes (k : Nat) (s : State) :
    ∃ s1 s2 s3, s1.buf = s.buf ∧ s2.buf = s.buf ∧ s3.buf = s.buf ∧
      (readBufWord k s).1 = (((bufRead (4 * k + 3) s3).1 ++ (bufRead (4 * k + 2) s2).1) ++ (bufRead (4 * k + 1) s1).1) ++
        (bufRead (4 * k) s).1 :=
  ⟨(bufRead (4 * k) s).2, (bufRead (4 * k + 1) (bufRead (4 * k) s).2).2,
    (bufRead (4 * k + 2) (bufRead (4 * k + 1) (bufRead (4 * k) s).2).2).2, by simp only [bufRead_buf],
    by simp only [bufRead_buf], by simp only [bufRead_buf], rfl⟩

/-- Byte j of a word put together from four. -/
theorem extract_append_bytes (b3 b2 b1 b0 : Byte) :
    ((((b3 ++ b2) ++ b1) ++ b0).extractLsb' 0 8 = b0 ∧ (((b3 ++ b2) ++ b1) ++ b0).extractLsb' 8 8 = b1) ∧
      (((b3 ++ b2) ++ b1) ++ b0).extractLsb' 16 8 = b2 ∧ (((b3 ++ b2) ++ b1) ++ b0).extractLsb' 24 8 = b3 := by
  simp (disch := decide) only [BitVec.extractLsb'_append_eq_of_le, BitVec.extractLsb'_append_eq_of_add_le]
  simp

/-- A byte that has been written stands in its place in the word read. -/
theorem readBufWord_extract {k j : Nat} {s : State} {b : Byte} (hj : j < 4) (hb : s.buf.read (4 * k + j) = some b) :
    (readBufWord k s).1.extractLsb' (8 * j) 8 = b := by
  obtain ⟨s1, s2, s3, h1, h2, h3, hw⟩ := readBufWord_bytes k s
  obtain ⟨⟨e0, e1⟩, e2, e3⟩ := extract_append_bytes (bufRead (4 * k + 3) s3).1 (bufRead (4 * k + 2) s2).1
    (bufRead (4 * k + 1) s1).1 (bufRead (4 * k) s).1
  have hread {i : Nat} {u : State} (h : u.buf = s.buf) (hi : s.buf.read i = some b) : (bufRead i u).1 = b := by
    rw [bufRead_of_some (h ▸ hi)]
  rw [hw]
  match j, hj with
  | 0, _ => exact e0.trans (hread rfl hb)
  | 1, _ => exact e1.trans (hread h1 hb)
  | 2, _ => exact e2.trans (hread h2 hb)
  | 3, _ => exact e3.trans (hread h3 hb)

/-- The offset of BUF word k is an aligned one inside the register space, other than CMD's. -/
theorem bufWord_offset {k : Nat} (hk : k < 128) :
    (0x200 + 4 * k) % 4 = 0 ∧ 0x200 + 4 * k ≠ 0x000 ∧ 0x200 + 4 * k < 0x400 := by omega

theorem readWord_buf (k : Nat) (s : State) : readWord (0x200 + 4 * k) s = readBufWord k s := by
  rw [readWord, if_pos (Nat.le_add_right _ _), Nat.add_sub_cancel_left, Nat.mul_div_cancel_left _ (by decide)]

theorem writeWord_buf (k : Nat) (v : Word) {s : State} (hr : s.regs.running = false) :
    writeWord (0x200 + 4 * k) v s = writeBufWord k v s := by
  rw [writeWord, hr, if_neg (by decide), if_pos (Nat.le_add_right _ _), Nat.add_sub_cancel_left,
    Nat.mul_div_cancel_left _ (by decide)]

end Sys2Proof.Machine
end

section
/-! Settles the statements about the register space: what a host read returns, what a host write stores, the byte order
of BUF, and the accesses that are refused. -/

namespace Sys2Proof.Machine

/-- Settles O44: a write stores the word's bytes in index order (`writeBufWord_eq_storeBytes`), and each byte that has been
written reads back in its place (`readBufWord_extract`). -/
theorem bufWordsLittleEndian : Obligations.BufWordsLittleEndian := by
  intro s k q hk
  obtain ⟨h4, h0, hlt⟩ := bufWord_offset hk
  refine ⟨fun v hq hr => ⟨storeBytes s.buf (4 * k) (wordBytes v), ?_, fun j hj => ?_, fun i hi => ?_⟩, fun hq => ?_⟩
  · rw [step_write_word hq h4 h0 hlt, writeWord_buf k v (s := setSched q s) hr, writeBufWord_eq_storeBytes]
    rfl
  · exact (storeBytes_read _ _ _ _ hj).trans (congrArg some (wordBytes_getElem v hj))
  · exact storeBytes_read_outside _ _ _ _ hi
  · obtain ⟨n, hn⟩ := readWord_draws (0x200 + 4 * k) (setSched q s)
    have hs := step_read_word hq h4 hlt
    rw [readWord_buf] at hn hs
    exact ⟨(readBufWord k (setSched q s)).1, _, hs, by simp [hn], by simp [hn], fun j b hj hb => readBufWord_extract hj hb⟩

/-- Settles O42: the turn is one aligned word (`step_read_word`), whose value is its offset's (`readWord_register`). -/
theorem registerReads : Obligations.RegisterReads := by
  intro s offset q hq h4 hlt
  rw [step_read_word hq h4 (by omega), readWord_register hlt]
  rfl

/-- Settles O43: the turn is one aligned word (`step_write_word`), stored as its offset says (`writeWord_register`). -/
theorem registerWrites : Obligations.RegisterWrites := by
  intro s offset v q hq h4 h0 hlt hr
  rw [step_write_word hq h4 h0 (by omega), writeWord_register hlt v (s := setSched q s) hr]
  rfl

/-- Settles O45: a read that answers moves no more than the draw counter (`readWord_draws`) and the record of the read. -/
theorem readsHaveNoSideEffect : Obligations.ReadsHaveNoSideEffect := by
  intro s t offset size q hq h
  obtain ⟨n, hn⟩ := readWord_draws offset (setSched q s)
  rw [step_read_next hq h]
  simp [hn]

/-- Settles O47: the refusal comes before the access, read or write. -/
theorem narrowAccessRefused : Obligations.NarrowAccessRefused := by
  intro s offset size v q h
  exact ⟨fun hq => by rw [step_hostRead hq, hostRead, hostAccess_refused h],
    fun hq => by rw [step_hostWrite hq, hostWrite, hostAccess_refused h]⟩

end Sys2Proof.Machine
end

section
/-! SUPPORT. A word is made of its fields, and each map of instructions agrees with the encoder and the decoder. -/

namespace Sys2Proof

/-! Words and their fields. -/

/-- A word whose reserved bits are 0 is made of its opcode and plane bit (30_encoding.md R91). -/
theorem opWord_fields {w : Word} (h : resField w = 0#23) : opWord (opcField w) (planeField w) = w := by
  have hplane : BitVec.ofBool (planeField w) = w.extractLsb' 8 1 := by
    have hbit : ∀ v : BitVec 1, BitVec.ofBool (v == 1#1) = v := by decide
    rw [planeField, BitVec.getLsbD_eq_extractLsb', hbit]
  rw [opWord, ← h, hplane, resField, opcField, BitVec.extractLsb'_append_extractLsb'_eq_extractLsb' (by rfl),
    BitVec.extractLsb'_append_extractLsb'_eq_extractLsb' (by rfl)]
  exact BitVec.extractLsb'_eq_self

/-- A frame that begins with 01 is made of its index, argument and check byte (R96). -/
theorem frameWord_fields {w : BitVec 48} (h : w.extractLsb' 46 2 = 1#2) :
    frameWord (w.extractLsb' 40 6) (w.extractLsb' 8 32) (w.extractLsb' 0 8) = w := by
  rw [frameWord, ← h, BitVec.extractLsb'_append_extractLsb'_eq_extractLsb' (by rfl),
    BitVec.extractLsb'_append_extractLsb'_eq_extractLsb' (by rfl),
    BitVec.extractLsb'_append_extractLsb'_eq_extractLsb' (by rfl)]
  exact BitVec.extractLsb'_eq_self

/-! What a map lists is encoded as the map's key. -/

/-- An operation is encoded with its opcode, and with its plane bit where it has one (R92). -/
theorem encode_of_opcodeMap {opc : Byte} {p : Bool} {i : Instr} (h : opcodeMap opc p = some i)
    (hp : p = true → opc = 0x10#8) : encode i = .op (opWord opc p) := by
  cases p with
  | true =>
    obtain rfl := hp rfl
    cases h
    rfl
  | false =>
    unfold opcodeMap at h
    split at h <;> cases h <;> rfl

/-- A card command is encoded with its index, argument and check byte (R97). -/
theorem encode_of_cardCommandMap {idx : BitVec 6} {arg : Word} {chk : Byte} {i : Instr}
    (h : cardCommandMap idx arg chk = some i) : encode i = .frame (frameWord idx arg chk) := by
  unfold cardCommandMap at h
  split at h <;> cases h <;> rfl

/-- A display opcode is encoded as its byte (R100). -/
theorem encode_of_displayOpcodeMap {b : Byte} {i : Instr} (h : displayOpcodeMap b = some i) : encode i = .disp b := by
  unfold displayOpcodeMap at h
  split at h <;> cases h <;> rfl

/-! Each place's decoder, as what it reads off a map. -/

/-- An opcode decodes to its operation, with the plane bit where that has one (R91, R92). -/
theorem decode_opWord {opc : Byte} {p : Bool} {i : Instr} (h : opcodeMap opc p = some i)
    (hp : p = true → opc = 0x10#8) : decode (.op (opWord opc p)) = .ok i := by
  have hres : ¬ (resField (opWord opc p) ≠ 0#23 ∨ (p = true ∧ opc ≠ 0x10#8)) := by
    simpa [opWord_res] using hp
  simp only [decode, decodeOp, opWord_opc, opWord_plane, h, if_neg hres]

theorem decode_disp_iff {b : Byte} {i : Instr} : decode (.disp b) = .ok i ↔ displayOpcodeMap b = some i := by
  cases h : displayOpcodeMap b <;> simp [decode, h]

/-- A word decodes only with its reserved bits 0, and with its plane bit 0 but for ITER_START (R94). -/
theorem decode_op_fields {w : Word} {i : Instr} (h : decode (.op w) = .ok i) :
    resField w = 0#23 ∧ (planeField w = true → opcField w = 0x10#8) := by
  simp only [decode, decodeOp] at h
  split at h
  · cases h
  · split at h
    · cases h
    · rename_i hres
      simpa using hres

/-- A frame decodes only with its first bits 01, to the command of its index (R96, R97). -/
theorem decode_frame_fields {w : BitVec 48} {i : Instr} (h : decode (.frame w) = .ok i) :
    w.extractLsb' 46 2 = 1#2 ∧
      cardCommandMap (w.extractLsb' 40 6) (w.extractLsb' 8 32) (w.extractLsb' 0 8) = some i := by
  simp only [decode, decodeFrame] at h
  split at h
  · cases h
  · rename_i hstart
    split at h
    · cases h
    · rename_i j hmap
      cases h
      exact ⟨not_not.mp hstart, hmap⟩

theorem decode_r1_iff {b : Byte} {i : Instr} : decode (.r1 b) = .ok i ↔ b ≠ 0xFF#8 ∧ i = .r1 b := by
  by_cases h : b = 0xFF#8 <;> simp [decode, h, eq_comm]

theorem decode_token_iff {b : Byte} {i : Instr} : decode (.token b) = .ok i ↔ b = 0xFE#8 ∧ i = .startToken := by
  by_cases h : b = 0xFE#8 <;> simp [decode, h, eq_comm]

end Sys2Proof
end

section
/-! Settles the statements about the encoding of instructions. -/

namespace Sys2Proof

/-- Settles O1, format by format: an operation word and a frame decode by their fields (`decode_opWord`,
`decode_frameWord`), a display opcode by its byte, and an R1 response because it is no filler. -/
theorem decodeOfEncode : Obligations.DecodeOfEncode := by
  intro p i hwf
  cases i with
  | sdInit | sdReadSector | sdReadStart | sdReadNext | sdReadEnd | iterPull | iterDrop | dispInit | dispCmd | dispData
    | dispWaitIdle | dispRefresh | dispShutdown => exact decode_opWord rfl nofun
  | iterStart plane => exact decode_opWord rfl fun _ => rfl
  | cmd0 arg chk | cmd8 arg chk | cmd55 arg chk | cmd41 arg chk | cmd17 arg chk | cmd18 arg chk | cmd12 arg chk =>
    exact decode_frameWord _ arg chk rfl
  | startToken => exact decode_token_iff.mpr ⟨rfl, rfl⟩
  | r1 b => exact decode_r1_iff.mpr ⟨bne_iff_ne.mp hwf, rfl⟩
  | dPsr | dPwr | dPof | dPon | dDslp | dDtm1 | dDrf | dDtm2 | dDuspi | dCdi | dTcon | dTres | dFlg =>
    exact decode_disp_iff.mpr rfl

/-- Settles O2, place by place: what decodes is read off a map, whose entries are encoded as their keys, and the keys
are all the fields of the word (`opWord_fields`, `frameWord_fields`). -/
theorem encodeOfDecode : Obligations.EncodeOfDecode := by
  intro x i h
  cases x with
  | op w =>
    obtain ⟨hres, hplane⟩ := decode_op_fields h
    rw [encode_of_opcodeMap (Machine.decode_op_host h) hplane, opWord_fields hres]
  | frame w =>
    obtain ⟨hstart, hmap⟩ := decode_frame_fields h
    rw [encode_of_cardCommandMap hmap, frameWord_fields hstart]
  | r1 b =>
    obtain ⟨-, rfl⟩ := decode_r1_iff.mp h
    rfl
  | token b =>
    obtain ⟨rfl, rfl⟩ := decode_token_iff.mp h
    rfl
  | disp b => exact encode_of_displayOpcodeMap (decode_disp_iff.mp h)

/-- Settles O3: the words are literals, and the decoder computes on them. -/
theorem specWordsDecode : Obligations.SpecWordsDecode := by
  refine ⟨?_, ?_, ?_, ?_, ?_, ?_, ?_, ?_, ?_⟩ <;> decide

end Sys2Proof
end

section
/-! Settles the statements about an opcode of no operation, and about what each display opcode sends. -/

namespace Sys2Proof.Machine

/-! A write to CMD. -/

theorem step_issue {s : State} {w : Word} {q : List Turn} (h : s.env.sched = .write 0x000 4 w :: q) :
    step s = issueWord w (setSched q s) := by
  rw [step_hostWrite h, hostWrite, hostAccess_word (by decide) (by decide), if_pos rfl]

theorem accept_idle {s : State} (h : Idle s) (opc : Byte) (p : Bool) (k : State → State) :
    accept opc p k s = k (issued opc p s) := by
  obtain ⟨hhalted, hrunning⟩ := h
  simp [accept, issued, hhalted, hrunning]

/-- An idle engine accepts a word that does not decode, and halts with the fault of its encoding (R120, R274). -/
theorem issueWord_error {s : State} {w : Word} {e : DecodeError} (h : Idle s) (hw : decode (.op w) = .error e) :
    issueWord w s = .next (halt (issueFault e) (issued (opcField w) (planeField w) s)) := by
  simp only [issueWord, hw, accept_idle h]

theorem legalOpc_iff (opc : Byte) :
    legalOpc opc = true ↔ (1 ≤ opc.toNat ∧ opc.toNat ≤ 5) ∨ (0x10 ≤ opc.toNat ∧ opc.toNat ≤ 0x12) ∨
      (0x20 ≤ opc.toNat ∧ opc.toNat ≤ 0x25) := by
  simp only [legalOpc, Bool.or_eq_true, Bool.and_eq_true, decide_eq_true_eq, or_assoc]

/-- The opcode map lists no opcode but those of R92. -/
theorem legalOpc_of_opcodeMap {opc : Byte} {p : Bool} {i : Instr} (h : opcodeMap opc p = some i) :
    legalOpc opc = true := by
  unfold opcodeMap at h
  split at h <;> cases h <;> rfl

theorem decode_op_illegal {w : Word} (h : legalOpc (opcField w) = false) :
    decode (.op w) = .error .illegalOpcode := by
  have hmap : opcodeMap (opcField w) (planeField w) = none := by
    refine Option.eq_none_iff_forall_ne_some.mpr fun i hi => ?_
    simp [legalOpc_of_opcodeMap hi] at h
  simp only [decode, decodeOp, hmap]

/-- Settles O7: an opcode in R93's ranges is none of R92's, so the word does not decode (`decode_op_illegal`), and the
halt that the accepted write enters (`issueWord_error`) touches no port and no line. -/
theorem illegalOpcodeFaults : Obligations.IllegalOpcodeFaults := by
  intro s w turns hidle hq hopc
  have hillegal : legalOpc (opcField w) = false := by
    rw [Bool.eq_false_iff, ne_eq, legalOpc_iff, opcField]
    dsimp only at hopc
    omega
  have hstep := issueWord_error (s := setSched turns s) hidle (decode_op_illegal hillegal)
  exact ⟨_, (step_issue hq).trans hstep, rfl, rfl, rfl, rfl⟩

/-! The display opcodes. -/

/-- Each display opcode sends its byte, then the data bytes the table gives it (R100). -/
theorem exec_displayOpcode {i : Instr} {b : Byte} (h : encode i = .disp b) (s : State) :
    exec i s = .next (startDispOp b (displayData s.cfg b) s) := by
  cases i <;> cases h <;> rfl

/-- Settles O21: every display opcode begins the same transactions (`exec_displayOpcode`), which run to their end with a
panel that takes every byte (`reaches_startDispOp`). -/
theorem displayOpcodeSends : Obligations.DisplayOpcodeSends := by
  intro i b s ps hi hu hr hp
  refine ⟨_, exec_displayOpcode hi s, (reaches_startDispOp hu hr hp).trans (Reaches.of_eq ?_)⟩
  rw [opcodeEvents, List.append_assoc]

end Sys2Proof.Machine
end

section
/-! Settles StepsStayBounded: the micro-steps a micro-step leaves to run, and the length it leaves in CHUNK_LEN. -/

namespace Sys2Proof.Machine

theorem nextChunk_le_max (r : Regs) : nextChunk r ≤ 512 := Nat.min_le_left _ _

/-- A raised fault leaves steps that stood before, or the teardown's. -/
theorem raise_bounded (c : FaultCode) {s : State} (hq : ∀ x ∈ s.ctl.seq, x.bounded s.cfg = true) :
    ∀ x ∈ (raise c s).ctl.seq, x.bounded s.cfg = true := by
  rcases raise_seq c s with ⟨p, hp, e, -⟩ | ⟨-, e⟩ <;> rw [e]
  · exact fun x hx => hq x ((catchPoint_suffix hp).subset hx)
  · exact teardown_bounded s

/-- The steps a micro-step within its bounds leaves to run are within theirs: a length is handed on, or is a chunk's, or
was CHUNK_LEN; a frame is one of R97's. -/
theorem moved_bounded {m : Micro} {s t : State} (h : Moved m s t) (hm : m.bounded s.cfg = true)
    (hq : ∀ x ∈ s.ctl.seq, x.bounded s.cfg = true) (hc : s.regs.chunkLen.toNat ≤ 512) :
    ∀ x ∈ t.ctl.seq, x.bounded s.cfg = true := by
  cases h
  case raised => exact raise_bounded _ hq
  case enter => simpa using hq
  case haltEnd => exact forall_nil
  case writeS | writeD =>
    split
    · exact hq
    · exact forall_cons rfl hq
  case sendBuf | payload =>
    split
    · exact forall_cons hm hq
    · exact hq
  case opcode =>
    refine forall_cons rfl (forall_cons rfl (forall_cons rfl ?_))
    split
    · exact hq
    · exact forall_cons rfl hq
  case dispCmd | dispData => exact forall_cons rfl (forall_cons rfl (forall_cons rfl hq))
  case dispBuf => exact forall_cons rfl (forall_cons hm (forall_cons rfl hq))
  case frame => exact forall_cons rfl (forall_cons rfl (forall_cons rfl (forall_cons rfl (forall_cons rfl hq))))
  case dataPhase =>
    exact forall_cons rfl (forall_cons rfl (forall_cons hm (forall_cons rfl (forall_cons rfl (forall_cons rfl hq)))))
  case cmd0Loop => exact forall_cons (frameCmd0_bounded _) (forall_cons rfl hq)
  case a41Loop =>
    exact forall_cons (frameCmd55_bounded _) (forall_cons (frameCmd41_bounded _) (forall_cons rfl hq))
  case pullChunk =>
    have hchunk := decide_eq_true (nextChunk_le_max s.regs)
    exact forall_cons hchunk (forall_cons hchunk hq)
  case pullLast | dropSends => exact forall_cons (frameCmd12_bounded _) (forall_cons rfl hq)
  case refreshAgain => exact forall_cons (decide_eq_true hc) (forall_cons rfl hq)
  case busyLoop | busyAgain | refreshLoop | redFill => exact forall_cons rfl (forall_cons rfl hq)
  case r1Again | tokenAgain | cmd0Again | cmd41Again => exact forall_cons rfl hq
  all_goals exact hq

/-- A micro-step within its bounds leaves a chunk's length in CHUNK_LEN (10_state.md R46). -/
theorem moved_chunkLen {m : Micro} {s t : State} (h : Moved m s t) (hm : m.bounded s.cfg = true)
    (hc : s.regs.chunkLen.toNat ≤ 512) : t.regs.chunkLen.toNat ≤ 512 := by
  cases h
  case raised c e pc os od _ _ _ _ =>
    rcases raise_regs c _ with e | e <;> rw [e] <;> exact hc
  case enter => simpa using hc
  case itBegin | pullAfter | pullEnd | dropClears | dropEnd => exact Nat.zero_le _
  case setChunkLen n =>
    have hn : n ≤ 512 := of_decide_eq_true hm
    exact (Nat.mod_le n _).trans hn
  all_goals exact hc

theorem StepsBounded.of_eq {s t : State} (hs : StepsBounded s) (hcfg : t.cfg = s.cfg) (hseq : t.ctl.seq = s.ctl.seq)
    (hc : t.regs.chunkLen = s.regs.chunkLen) : StepsBounded t := by
  rwa [StepsBounded, hcfg, hseq, hc]

theorem issued_stepsBounded {s t : State} (h : Issued s t) (hs : StepsBounded s) : StepsBounded t := by
  cases h with
  | ignored => exact hs
  | dropped => exact hs
  | illegal _ c opc p => exact ⟨teardown_bounded _, hs.2⟩
  | accepted _ i opc p q _ ho hq => exact ⟨program_bounded (s := s) hq ho, hs.2⟩

/-- Settles O55: a micro-step hands its bounds on (`moved_bounded`, `moved_chunkLen`), and an accepted operation begins
with steps that its operand check bounds (`program_bounded`). -/
theorem stepsStayBounded : Obligations.StepsStayBounded := by
  intro s t hs h
  cases step_turned h with
  | reset => exact ⟨forall_nil, Nat.zero_le _⟩
  | nothing => exact hs
  | done => exact ⟨forall_nil, hs.2⟩
  | read => exact hs
  | write q offset v =>
    obtain ⟨a, l, e, -⟩ := writeWord_regs offset v (setSched q s)
    exact hs.of_eq (by simp) (by simp) (by simp [e])
  | issue q w _ _ ht => exact issued_stepsBounded (s := setSched q s) (issueWord_issued ht) hs
  | micro q _ m rest _ _ hq ht =>
    have hmoved := microStep_moved ht
    obtain ⟨hseq, hc⟩ := hs
    rw [hq, List.forall_mem_cons] at hseq
    obtain ⟨hm, hrest⟩ := hseq
    exact ⟨moved_cfg hmoved ▸ moved_bounded hmoved hm hrest hc, moved_chunkLen hmoved hm hc⟩

end Sys2Proof.Machine
end

section
/-! SUPPORT. One turn, said once for each place it is taken from: the next micro-step of an undisturbed engine, a byte on
a port with its answer fixed, an iteration of a poll, and a write to CMD (40_transport.md R120 to R133). -/

namespace Sys2Proof.Machine

/-! Turns. -/

/-- An undisturbed engine runs the micro-step that stands next. -/
theorem step_atSteps {m : Micro} {q : List Micro} {s : State} (h : AtSteps [m] q s) : step s = microStep m (setSeq q s) := by
  obtain ⟨hundisturbed, hrunning, hseq⟩ := h
  exact (step_undisturbed hundisturbed).trans (engineStep_micro hrunning hseq)

/-- With nothing scheduled the turn is the engine's, and so is its outcome in front of any turns (20_memory.md R81). -/
theorem engineStep_eq_withTurns (turns : List Turn) (s : State) :
    engineStep (setSched turns s) = withTurns turns (step (setSched [] s)) := by
  have hfree : Undisturbed (setSched [] s) := rfl
  rw [step_undisturbed hfree, ← engineStep_setSched]
  rfl

theorem step_engine {s : State} {turns : List Turn} (h : s.env.sched = .engine :: turns) :
    step s = engineStep (setSched turns s) := by simp [step, takeTurn, h]

theorem step_wait_running {s : State} {turns : List Turn} (h : s.env.sched = .wait :: turns)
    (hr : s.regs.running = true) : step s = engineStep s := by simp [step, takeTurn, h, hr]

theorem step_wait_idle {s : State} {turns : List Turn} (h : s.env.sched = .wait :: turns)
    (hr : s.regs.running = false) : step s = .next (setSched turns s) := by simp [step, takeTurn, h, hr]

/-! A byte on a port, its answer fixed (R127, R128, R132). -/

theorem spiByteS_taken {w : Byte} {cs : List (Option Byte)} {s : State} (h : s.env.cardIn = some w :: cs) (b : Byte)
    (k : State → State) : spiByte .S b k s = k (emitS (.write b true) { s with env.cardIn := cs }) := by
  simp only [spiByte, drawCard_cons h]

theorem spiByteS_failed {cs : List (Option Byte)} {s : State} (h : s.env.cardIn = none :: cs) (b : Byte)
    (k : State → State) :
    spiByte .S b k s = raise .storageBus (emitS (.write b false) { s with env.cardIn := cs }) := by
  simp only [spiByte, drawCard_cons h]

theorem spiByteD_taken {ps : List Bool} {s : State} (h : s.env.panelIn = true :: ps) (b : Byte) (k : State → State) :
    spiByte .D b k s = k (emitD (.write b true) { s with env.panelIn := ps }) := by
  simp only [spiByte, drawPanel_cons h]

theorem spiByteD_failed {ps : List Bool} {s : State} (h : s.env.panelIn = false :: ps) (b : Byte) (k : State → State) :
    spiByte .D b k s = raise .displayBus (emitD (.write b false) { s with env.panelIn := ps }) := by
  simp only [spiByte, drawPanel_cons h]

theorem spiXfer_returned {v : Byte} {cs : List (Option Byte)} {s : State} (h : s.env.cardIn = some v :: cs) (o : Byte)
    (k : Byte → State → Result) : spiXfer o k s = k v (emitS (.xfer o (some v)) { s with env.cardIn := cs }) := by
  simp only [spiXfer, drawCard_cons h]

theorem spiXfer_failed {cs : List (Option Byte)} {s : State} (h : s.env.cardIn = none :: cs) (o : Byte)
    (k : Byte → State → Result) :
    spiXfer o k s = .next (raise .storageBus (emitS (.xfer o none) { s with env.cardIn := cs })) := by
  simp only [spiXfer, drawCard_cons h]

/-- Bytes left to send or receive go back in front of the steps still to run; with none left those steps stand. -/
theorem push_when (c : Prop) [Decidable c] (m : Micro) (s : State) :
    (if c then push [m] s else s) = setSeq (if c then m :: s.ctl.seq else s.ctl.seq) s := by split <;> rfl

theorem push_unless (c : Prop) [Decidable c] (m : Micro) (s : State) :
    (if c then s else push [m] s) = setSeq (if c then s.ctl.seq else m :: s.ctl.seq) s := by split <;> rfl

/-- A BUF byte is read as it is stored, and is a draw where nothing has written it (10_state.md R49). -/
theorem bufRead_unwritten (i : Nat) (s : State) :
    ∃ v : Byte, (∀ v', s.buf.read i = some v' → v = v') ∧
      bufRead i s = (v, { s with env.draws := s.env.draws + unwritten s.buf i 1 }) := by
  cases h : s.buf.read i with
  | some b => exact ⟨b, fun _ => Option.some.inj, by simp [bufRead_of_some h, unwritten, h]⟩
  | none => exact ⟨Config.bufByte s.env.draws, nofun, by simp [bufRead, unwritten, h]⟩

theorem stepSendBuf_sends {i n : Nat} (hi : i < n) (hn : n ≤ 512) (s : State) :
    ∃ v : Byte, (∀ v', s.buf.read i = some v' → v = v') ∧
      stepSendBuf i n s =
        .next (spiByte .D v (fun t => if i + 1 < n then push [.sendBuf (i + 1) n] t else t)
          { s with env.draws := s.env.draws + unwritten s.buf i 1 }) := by
  obtain ⟨v, hv, hread⟩ := bufRead_unwritten i s
  refine ⟨v, hv, ?_⟩
  rw [stepSendBuf, if_neg (Nat.not_le.mpr hi), if_neg (by simp only [bufSize]; omega), hread]

theorem stepPayload_transfers {i n : Nat} (hi : i < n) (hn : n ≤ 512) (s : State) :
    stepPayload i n s =
      spiXfer s.cfg.fillRd
        (fun b t => .next (if i + 1 < n then push [.payload (i + 1) n] (bufWrite i b t) else bufWrite i b t)) s := by
  rw [stepPayload, if_neg (Nat.not_le.mpr hi), if_neg (by simp only [bufSize]; omega)]

/-! An iteration of a poll (R133). -/

theorem pollCount_setSeq (l : Loop) (q : List Micro) (s : State) : pollCount l (setSeq q s) = pollCount l s := by
  cases l <;> rfl

theorem aboveLimit_of_lt {limit : Option Nat} {k n : Nat} (hk : limit = some k) (h : k < n) :
    aboveLimit limit n = true := by simp [aboveLimit, hk, h]

theorem aboveLimit_of_le {limit : Option Nat} {n : Nat} (h : ∀ k, limit = some k → n ≤ k) :
    aboveLimit limit n = false := by
  cases limit with
  | none => rfl
  | some k => exact decide_eq_false (Nat.not_lt.mpr (h k rfl))

/-- An iteration within the bound counts itself and goes on. -/
theorem poll_counted {l : Loop} {c : Nat} {s : State} (hc : pollCount l s = some c)
    (h : aboveLimit s.cfg.pollLimit (c + 1) = false) (k : State → Result) :
    poll l k s = k (setPoll l (some (c + 1)) s) := by simp [poll, hc, h]

/-- An iteration past the bound raises F_UNRESPONSIVE in place of what it would do. -/
theorem poll_past {l : Loop} {c : Nat} {s : State} (hc : pollCount l s = some c)
    (h : aboveLimit s.cfg.pollLimit (c + 1) = true) (k : State → Result) :
    poll l k s = .next (raise .unresponsive (setPoll l (some (c + 1)) s)) := by simp [poll, hc, h]

theorem runToken_ok {x : Wire} {i : Instr} (h : decode x = .ok i) (again : Micro) (s : State) :
    runToken x again s = exec i s := by simp only [runToken, h]

theorem runToken_error {x : Wire} {e : DecodeError} (h : decode x = .error e) (again : Micro) (s : State) :
    runToken x again s = .next (pollAgain again s) := by simp only [runToken, h]

/-- A byte received in a poll within its bound: the iteration is counted and the transfer recorded, then the byte is
taken for the token the poll looks for (41_storage.md R151, R154). -/
theorem pollToken_returned {l : Loop} {c : Nat} {v : Byte} {cs : List (Option Byte)} {s : State}
    (hc : pollCount l s = some c) (hlim : aboveLimit s.cfg.pollLimit (c + 1) = false) (hv : s.env.cardIn = some v :: cs)
    (o : Byte) (wire : Byte → Wire) (again : Micro) :
    pollToken l o wire again s =
      runToken (wire v) again
        (emitS (.xfer o (some v)) { setPoll l (some (c + 1)) s with env := { s.env with cardIn := cs } }) := by
  rw [pollToken, poll_counted hc hlim, spiXfer_returned (by rwa [setPoll_env]), setPoll_env]

theorem pollToken_failed {l : Loop} {c : Nat} {cs : List (Option Byte)} {s : State} (hc : pollCount l s = some c)
    (hlim : aboveLimit s.cfg.pollLimit (c + 1) = false) (hv : s.env.cardIn = none :: cs) (o : Byte) (wire : Byte → Wire)
    (again : Micro) :
    pollToken l o wire again s =
      .next (raise .storageBus
        (emitS (.xfer o none) { setPoll l (some (c + 1)) s with env := { s.env with cardIn := cs } })) := by
  rw [pollToken, poll_counted hc hlim, spiXfer_failed (by rwa [setPoll_env]), setPoll_env]

/-! A write to CMD (R120). -/

theorem issueWord_ok {w : Word} {i : Instr} (h : decode (.op w) = .ok i) (s : State) : issueWord w s = exec i s := by
  simp only [issueWord, h]

/-- A write to CMD always answers a next state. -/
theorem issueWord_answers (w : Word) (s : State) : ∃ t, issueWord w s = .next t := by
  cases hw : decode (.op w) with
  | error e => exact ⟨accept (opcField w) (planeField w) (halt (issueFault e)) s, by simp only [issueWord, hw]⟩
  | ok i =>
    have hmap := decode_op_host hw
    unfold opcodeMap at hmap
    split at hmap <;> cases hmap <;> exact ⟨_, issueWord_ok hw s⟩

/-- A write to CMD is ignored while HALTED = 1 (R121). -/
theorem issueWord_halted (w : Word) {s : State} (h : s.regs.halted = true) : issueWord w s = .next s := by
  obtain ⟨t, ht⟩ := issueWord_answers w s
  cases issueWord_issued ht with
  | ignored => exact ht
  | dropped hhalted => simp [h] at hhalted
  | illegal hidle => exact absurd hidle.1 (by simp [h])
  | accepted hidle => exact absurd hidle.1 (by simp [h])

/-- A write to CMD while RUNNING = 1 sets OVR alone (R122). -/
theorem issueWord_running (w : Word) {s : State} (hh : s.regs.halted = false) (hr : s.regs.running = true) :
    issueWord w s = .next { s with regs.ovr := true } := by
  obtain ⟨t, ht⟩ := issueWord_answers w s
  cases issueWord_issued ht with
  | ignored hhalted => simp [hh] at hhalted
  | dropped => exact ht
  | illegal hidle => exact absurd hidle.2 (by simp [hr])
  | accepted hidle => exact absurd hidle.2 (by simp [hr])

end Sys2Proof.Machine
end

section
/-! SUPPORT. What a micro-step records, and which registers it leaves to the host: one event at most, ARG and LEN as they
were, HALTED for good. -/

namespace Sys2Proof.Machine

/-- A micro-step records at most one event (40_transport.md R135). -/
theorem moved_oneEvent {m : Micro} {s t : State} (h : Moved m s t) :
    OneEvent s.obs.portS s.obs.portD t.obs.portS t.obs.portD := by
  cases h
  case raised ho _ => rwa [raise_obs]
  case enter => rw [setPoll_obs]; exact .none
  all_goals constructor

theorem issued_obs {s t : State} (h : Issued s t) : t.obs = s.obs := by cases h <;> rfl

/-- No turn records more than one event: only a micro-step records any. -/
theorem step_oneEvent {s t : State} (h : step s = .next t) :
    OneEvent s.obs.portS s.obs.portD t.obs.portS t.obs.portD := by
  cases step_turned h with
  | reset => exact .none
  | nothing => exact .none
  | done => exact .none
  | read => exact .none
  | write => rw [writeWord_obs]; exact .none
  | issue q w _ _ ht => rw [issued_obs (issueWord_issued ht)]; exact .none
  | micro q _ m rest _ _ _ ht => exact moved_oneEvent (s := setSeq rest (setSched q s)) (microStep_moved ht)

/-- No micro-step writes the operand registers (R123). -/
theorem moved_operands {m : Micro} {s t : State} (h : Moved m s t) :
    t.regs.arg = s.regs.arg ∧ t.regs.len = s.regs.len := by
  cases moved_regs h with
  | created start who _ e => rw [e]; exact ⟨rfl, rfl⟩
  | _ => simp [*]

theorem issued_operands {s t : State} (h : Issued s t) : t.regs.arg = s.regs.arg ∧ t.regs.len = s.regs.len := by
  cases h <;> exact ⟨rfl, rfl⟩

/-- No micro-step leaves HALTED = 1 (60_exceptions.md R278). -/
theorem moved_keeps_halted {m : Micro} {s t : State} (h : Moved m s t) (hs : s.regs.halted = true) :
    t.regs.halted = true := by
  by_cases hm : m = .haltEnd
  · subst hm
    cases h
    case raised hraise _ _ _ => cases hraise
    case haltEnd => rfl
  · rw [moved_halted h hm, hs]

theorem issued_halted {s t : State} (h : Issued s t) : t.regs.halted = s.regs.halted := by cases h <;> rfl

end Sys2Proof.Machine
end

section
/-! Settles the statements about what every step keeps: HALTED until a reset, an issue while running, the independence of
the ports, and the operands of a running operation. -/

namespace Sys2Proof.Machine

/-- Settles O8: a write to CMD is ignored (`issueWord_halted`), and of the other turns only a micro-step writes HALTED, to
1 (`moved_keeps_halted`). -/
theorem onlyResetLeavesHalted : Obligations.OnlyResetLeavesHalted := by
  refine fun s hs => ⟨fun w turns hq => ?_, fun t hreset h => ?_⟩
  · rw [step_issue hq, issueWord_halted w (s := setSched turns s) hs]
    rfl
  · cases step_turned h with
    | reset q hq => exact absurd (by rw [hq]; rfl) hreset
    | nothing => exact hs
    | done => exact hs
    | read => exact hs
    | write q offset v =>
      obtain ⟨a, l, e, -⟩ := writeWord_regs offset v (setSched q s)
      rw [e]
      exact hs
    | issue q w _ _ ht => exact (issued_halted (issueWord_issued ht)).trans hs
    | micro q _ m rest _ _ _ ht => exact moved_keeps_halted (microStep_moved ht) hs

/-- Settles O9: the turn is a write to CMD (`step_issue`), which RUNNING = 1 turns into OVR alone. -/
theorem issueWhileRunningSetsOverrun : Obligations.IssueWhileRunningSetsOverrun := by
  intro s w turns hh hr hq
  rw [step_issue hq, issueWord_running w (s := setSched turns s) hh hr]
  rfl

/-- Settles O35: a step records one event at most (`step_oneEvent`), and a line moves only with an event of its own port
(`linesChangeOnlyWithEvents`), so the lines of a port that records nothing stand. -/
theorem portsAreIndependent : Obligations.PortsAreIndependent := by
  intro s t h hreset
  obtain ⟨hcsS, hcsD, hrst, hdc⟩ := linesChangeOnlyWithEvents s t h hreset
  have hevent := step_oneEvent h
  generalize t.obs.portS = ts at *
  generalize t.obs.portD = td at *
  cases hevent with
  | none => exact ⟨.inl ⟨rfl, by simpa using hcsS⟩, .inl rfl⟩
  | storage e =>
    exact ⟨.inr ⟨⟨e, rfl⟩, rfl, by simpa using hcsD, by simpa using hrst, by simpa using hdc⟩, .inl rfl⟩
  | panel e => exact ⟨.inl ⟨rfl, by simpa using hcsS⟩, .inr ⟨e, rfl⟩⟩

/-- Settles O50: while RUNNING = 1 a host write stores nothing and an issue sets OVR at most, and a micro-step writes
neither operand (`moved_operands`) and BUF only for a payload byte, at its index (`moved_buf`). -/
theorem operandsStableWhileRunning : Obligations.OperandsStableWhileRunning := by
  intro s t h hr hreset
  cases step_turned h with
  | reset q hq => exact absurd (by rw [hq]; rfl) hreset
  | nothing => simp
  | done => simp
  | read => simp
  | write q offset v =>
    obtain ⟨-, -, -, hkept⟩ := writeWord_regs offset v (setSched q s)
    rw [hkept hr]
    simp
  | issue q w _ _ ht =>
    have hissued := issueWord_issued ht
    simp [issued_operands hissued, issued_buf hissued]
  | micro q hturn m rest _ _ hq ht =>
    have hmoved := microStep_moved ht
    obtain ⟨harg, hlen⟩ := moved_operands hmoved
    refine ⟨harg, hlen, fun hhost => ?_, fun hne => ?_⟩
    · rcases hturn with e | e | ⟨rfl, e⟩ <;> simp [e] at hhost
    · rcases moved_buf hmoved with e | ⟨i, n, b, rfl, -, e⟩
      · exact absurd e hne
      · exact ⟨i, n, rest, hq, fun j hj => by rw [e]; exact Memory.read_write_ne _ b hj⟩

end Sys2Proof.Machine
end

section
/-! Settles the statements about the turns and the primitives: a step runs the decoded instruction, the lines, the port
transfers byte by byte, and the polls. -/

namespace Sys2Proof.Machine

/-! The five loops. -/

/-- The micro-step that makes one iteration of a loop (R133). -/
def Loop.iteration : Loop → Micro
  | .r1 => .r1Poll
  | .tok => .tokenPoll
  | .cmd0 => .cmd0Loop
  | .a41 => .a41Loop
  | .bsy => .busyLoop

theorem microStep_cmd0Loop (s : State) :
    microStep .cmd0Loop s = poll .cmd0 (fun t => .next (push [frameCmd0, .cmd0Test] t)) s := rfl

theorem microStep_a41Loop (s : State) :
    microStep .a41Loop s = poll .a41 (fun t => .next (push [frameCmd55 t.cfg, frameCmd41 t.cfg, .cmd41Test] t)) s := rfl

theorem microStep_busyLoop (s : State) :
    microStep .busyLoop s = poll .bsy (fun t => .next (push [.dispOp 0x71#8, .busySample] t)) s := rfl

/-- Each iteration begins with `Poll(L)`, before anything else it does. -/
theorem microStep_iteration (l : Loop) (s : State) : ∃ k, microStep l.iteration s = poll l k s := by
  cases l with
  | r1 => exact ⟨_, rfl⟩
  | tok => exact ⟨_, rfl⟩
  | cmd0 => exact ⟨_, microStep_cmd0Loop s⟩
  | a41 => exact ⟨_, microStep_a41Loop s⟩
  | bsy => exact ⟨_, microStep_busyLoop s⟩

/-- An iteration of the R1 poll that receives a byte: a filler leaves the poll running, a response ends it (R151). -/
theorem r1Poll_within {c : Nat} {v : Byte} {cs : List (Option Byte)} {s : State} (hc : s.ctl.poll.r1 = some c)
    (hlim : aboveLimit s.cfg.pollLimit (c + 1) = false) (hv : s.env.cardIn = some v :: cs) :
    ∃ t, microStep .r1Poll s = .next t ∧ t.regs.faultCode = s.regs.faultCode ∧
      (t.ctl.poll.r1 = some (c + 1) ∨ (t.ctl.poll.r1 = none ∧ v ≠ 0xFF#8)) := by
  rw [microStep, pollToken_returned (l := .r1) hc hlim hv]
  by_cases hfill : v = 0xFF#8
  · have hd : decode (.r1 v) = .error .fillerByte := if_pos hfill
    exact ⟨_, runToken_error hd _ _, rfl, .inl rfl⟩
  · exact ⟨_, runToken_ok (decode_r1_iff.mpr ⟨hfill, rfl⟩) _ _, rfl, .inr ⟨rfl, hfill⟩⟩

/-- An iteration of the start-token poll that receives a byte: the token alone ends the poll (R154). -/
theorem tokenPoll_within {c : Nat} {v : Byte} {cs : List (Option Byte)} {s : State} (hc : s.ctl.poll.tok = some c)
    (hlim : aboveLimit s.cfg.pollLimit (c + 1) = false) (hv : s.env.cardIn = some v :: cs) :
    ∃ t, microStep .tokenPoll s = .next t ∧ t.regs.faultCode = s.regs.faultCode ∧
      (t.ctl.poll.tok = some (c + 1) ∨ (t.ctl.poll.tok = none ∧ v = 0xFE#8)) := by
  rw [microStep, pollToken_returned (l := .tok) hc hlim hv]
  by_cases htoken : v = 0xFE#8
  · exact ⟨_, runToken_ok (decode_token_iff.mpr ⟨htoken, rfl⟩) _ _, rfl, .inr ⟨rfl, htoken⟩⟩
  · have hd : decode (.token v) = .error .notStartToken := if_neg htoken
    exact ⟨_, runToken_error hd _ _, rfl, .inl rfl⟩

/-- Settles O32: an iteration is `poll` before all else (`microStep_iteration`), which counts or raises; of the five only
the two polls on port S can end in the iteration itself, with the byte they look for. -/
theorem pollCountsIterations : Obligations.PollCountsIterations := by
  intro s l q iteration
  have hiteration : iteration = l.iteration := by cases l <;> rfl
  rw [hiteration]
  refine ⟨fun h => ⟨_, step_atSteps h, pollCount_setPoll _ _ _, setPoll_obs _ _ _⟩, step_atSteps, fun h c hc => ?_⟩
  replace hc := (pollCount_setSeq l q s).trans hc
  rw [step_atSteps h]
  refine ⟨fun n hn hlt => ?past, fun hle v cs hv => ?within⟩
  case past =>
    obtain ⟨k, hk⟩ := microStep_iteration l (setSeq q s)
    rw [hk, poll_past hc (aboveLimit_of_lt hn hlt)]
    rfl
  case within =>
    have hlim : aboveLimit (setSeq q s).cfg.pollLimit (c + 1) = false := aboveLimit_of_le hle
    cases l with
    | r1 => simpa [Loop.iteration, pollCount] using r1Poll_within hc hlim (hv (.inl rfl))
    | tok => simpa [Loop.iteration, pollCount] using tokenPoll_within hc hlim (hv (.inr rfl))
    | cmd0 => exact ⟨_, (microStep_cmd0Loop _).trans (poll_counted hc hlim _), rfl, .inl rfl⟩
    | a41 => exact ⟨_, (microStep_a41Loop _).trans (poll_counted hc hlim _), rfl, .inl rfl⟩
    | bsy => exact ⟨_, (microStep_busyLoop _).trans (poll_counted hc hlim _), rfl, .inl rfl⟩

/-! A step and its instruction. -/

/-- Settles O4: each place an instruction is fetched from decodes it and runs it, and the engine's turn takes no notice of
the turns still to come (`engineStep_eq_withTurns`). -/
theorem stepRunsDecodedInstruction : Obligations.StepRunsDecodedInstruction := by
  intro s
  refine ⟨fun i w turns hq hi => ?write, fun i w q h hi => ?frame, fun i b q h hi => ?opcode,
    fun i b q n cs h hn hlim hb hi => ?r1, fun i b q n cs h hn hlim hb hi => ?token, fun turns hq => ?engine,
    fun turns hq hr => ?waiting, fun turns hq hr => step_wait_idle hq hr,
    fun hu hr => (step_undisturbed hu).trans (engineStep_idle hr)⟩
  case write =>
    rw [step_issue hq, issueWord_ok hi]
    rfl
  case frame =>
    rw [step_atSteps h, microStep, runFrame, hi]
    rfl
  case opcode =>
    rw [step_atSteps h, microStep, runDispOp, hi]
    rfl
  case r1 =>
    rw [step_atSteps h, microStep, pollToken_returned (l := .r1) (s := setSeq q s) hn hlim hb, runToken_ok hi]
    rfl
  case token =>
    rw [step_atSteps h, microStep, pollToken_returned (l := .tok) (s := setSeq q s) hn hlim hb, runToken_ok hi]
    rfl
  case engine =>
    rw [step_engine hq, engineStep_eq_withTurns]
    rfl
  case waiting =>
    rw [step_wait_running hq hr, ← setSched_self hq, engineStep_eq_withTurns]
    rfl

/-! The primitives. -/

/-- Settles O31: each primitive is one micro-step (`step_atSteps`), and its update is the state written out. -/
theorem linePrimitives : Obligations.LinePrimitives := by
  intro s q
  exact ⟨step_atSteps, step_atSteps, step_atSteps, step_atSteps, fun _ => step_atSteps, fun _ => step_atSteps,
    fun _ => step_atSteps⟩

/-- Settles O30: the micro-step of each place sends or receives one byte, whose answer decides between what it goes on with
and the port's fault (the lemmas of `spiByte`, `spiXfer` and `pollToken`). -/
theorem spiWriteByteByByte : Obligations.SpiWriteByteByByte := by
  intro s b bs q
  refine ⟨fun h r cs hr => ?writeS, fun h ok ps hp => ?writeD, fun i n ok ps h hi hn hp => ?sendBuf,
    fun c cs hlim hr => ⟨fun h hc => ?r1, fun h hc => ?token⟩, fun i n r cs h hi hn hr => ?payload,
    fun r cs h hr => ?trailer⟩
  case writeS =>
    rw [step_atSteps h, microStep, stepSpiWrite]
    cases r with
    | none => rw [spiByteS_failed (s := setSeq q s) hr]; rfl
    | some w =>
      rw [spiByteS_taken (s := setSeq q s) hr, push_unless]
      rfl
  case writeD =>
    rw [step_atSteps h, microStep, stepSpiWrite]
    cases ok with
    | false => rw [spiByteD_failed (s := setSeq q s) hp]; rfl
    | true =>
      rw [spiByteD_taken (s := setSeq q s) hp, push_unless]
      rfl
  case sendBuf =>
    obtain ⟨v, hv, hsend⟩ := stepSendBuf_sends hi hn (setSeq q s)
    refine ⟨v, hv, (step_atSteps h).trans (hsend.trans (congrArg Host.Outcome.next ?_))⟩
    have hdrawn : ({ setSeq q s with env.draws := s.env.draws + unwritten s.buf i 1 } : State).env.panelIn = ok :: ps := hp
    cases ok with
    | false => exact spiByteD_failed hdrawn v _
    | true => exact (spiByteD_taken hdrawn v _).trans (push_when _ _ _)
  case r1 =>
    rw [step_atSteps h, microStep, pollToken_failed (l := .r1) (s := setSeq q s) hc hlim hr]
    rfl
  case token =>
    rw [step_atSteps h, microStep, pollToken_failed (l := .tok) (s := setSeq q s) hc hlim hr]
    rfl
  case payload =>
    rw [step_atSteps h, microStep, stepPayload_transfers hi hn]
    cases r with
    | none => rw [spiXfer_failed (s := setSeq q s) hr]; rfl
    | some v =>
      rw [spiXfer_returned (s := setSeq q s) hr, push_when]
      rfl
  case trailer =>
    rw [step_atSteps h, microStep, stepTrailer]
    cases r with
    | none => rw [spiXfer_failed (s := setSeq q s) hr]; rfl
    | some v => rw [spiXfer_returned (s := setSeq q s) hr]; rfl

end Sys2Proof.Machine
end

section
/-! SUPPORT. The runs of a storage operation in the terms of what the card answers: its transactions, its data phase,
and the operation from its issue to its end (41_storage.md R150 to R154, 40_transport.md R120, R124). -/

namespace Sys2Proof.Machine

/-! What the card answers. -/

theorem CardTx.fits_iff {p : Config.Params} {t : CardTx} :
    t.fits p = true ↔ t.ws.length = 6 ∧ t.r ≠ 0xFF#8 ∧ aboveLimit p.pollLimit (t.fill + 1) = false := by
  simp [CardTx.fits, and_assoc]

theorem Phase.fits_iff {p : Config.Params} {n : Nat} {ph : Phase} :
    ph.fits p n = true ↔
      (∀ b ∈ ph.junk, b ≠ 0xFE#8) ∧ ph.data.length = n ∧ aboveLimit p.pollLimit (ph.junk.length + 1) = false := by
  simp [Phase.fits, and_assoc]

theorem Transcript.answers_append (a b : Transcript) :
    Transcript.answers (a ++ b) = Transcript.answers a ++ Transcript.answers b := List.flatMap_append

theorem Transcript.answers_cons (c : BitVec 48 × CardTx) (tr : Transcript) :
    Transcript.answers (c :: tr) = Transcript.answers [c] ++ Transcript.answers tr := answers_append [c] tr

/-- Events stand newest first, so those of the later transactions stand in front. -/
theorem Transcript.events_append (fill : Byte) (a b : Transcript) :
    Transcript.events fill (a ++ b) = Transcript.events fill b ++ Transcript.events fill a := by
  simp [Transcript.events]

theorem Transcript.answers_single (w : BitVec 48) (t : CardTx) :
    Transcript.answers [(w, t)] = txAnswers t.ws t.fill t.r t.x := List.flatMap_singleton _ _

theorem Transcript.events_single (fill : Byte) (w : BitVec 48) (t : CardTx) :
    Transcript.events fill [(w, t)] = txEvents fill w t.fill t.r := List.flatMap_singleton _ _

/-! Transactions. -/

/-- The state after the card has answered the transactions `tr`, the last one with `r`, and is still to answer `cs`. -/
def answered (tr : Transcript) (r : Byte) (cs : List (Option Byte)) (s : State) : State :=
  { s with
    regs.lastR1 := r
    lines.csS := s.cfg.csActive.not
    ctl.poll.r1 := none
    env.cardIn := cs
    obs.portS := tr.events s.cfg.fillRd ++ s.obs.portS }

/-- Transactions one after another are one transcript. -/
theorem answered_answered (tr tr' : Transcript) (r r' : Byte) (cs cs' : List (Option Byte)) (s : State) :
    answered tr' r' cs' (answered tr r cs s) = answered (tr ++ tr') r' cs' s := by
  simp only [answered, Transcript.events_append, List.append_assoc]

theorem answered_cons (c : BitVec 48 × CardTx) (tr : Transcript) (r r' : Byte) (cs' : List (Option Byte)) (s : State) :
    answered tr r' cs' (answered [c] r [] s) = answered (c :: tr) r' cs' s := answered_answered [c] tr r r' [] cs' s

theorem answered_setSeq (tr : Transcript) (r : Byte) (cs : List (Option Byte)) (q : List Micro) (s : State) :
    answered tr r cs (setSeq q s) = setSeq q (answered tr r cs s) := rfl

theorem setSeq_setSeq (q r : List Micro) (s : State) : setSeq q (setSeq r s) = setSeq q s := rfl

/-- The next micro-step of an undisturbed engine, and the run from where it leads. -/
theorem Reaches.next {m : Micro} {q : List Micro} {s t u : State} (h : AtSteps [m] q s)
    (hm : microStep m (setSeq q s) = .next t) (hrun : Reaches t u) : Reaches s u :=
  hrun.head ((step_atSteps h).trans hm)

/-- A command transaction from its first event to its release byte. -/
theorem reaches_startFrame {w : BitVec 48} {t : CardTx} {s : State} {cs : List (Option Byte)} (hu : Undisturbed s)
    (hr : s.regs.running = true) (ht : t.fits s.cfg = true)
    (hc : s.env.cardIn = txAnswers t.ws t.fill t.r t.x ++ cs) :
    Reaches (startFrame w s) (answered [(w, t)] t.r cs s) := by
  obtain ⟨hws, hresponse, hlim⟩ := CardTx.fits_iff.mp ht
  rw [answered, Transcript.events_single]
  exact reaches_transaction hws hresponse hu hr hc hlim

/-- A card command that the sequencer fetches, to its release byte. -/
theorem reaches_command {idx : BitVec 6} {arg : Word} {chk : Byte} {i : Instr}
    (hi : cardCommandMap idx arg chk = some i) {t : CardTx} {s : State} {q : List Micro} {cs : List (Option Byte)}
    (hs : AtSteps [.frame (frameWord idx arg chk)] q s) (ht : t.fits s.cfg = true)
    (hc : s.env.cardIn = txAnswers t.ws t.fill t.r t.x ++ cs) :
    Reaches s (setSeq q (answered [(frameWord idx arg chk, t)] t.r cs s)) :=
  have ⟨hu, hr, _⟩ := hs
  Reaches.next hs (microStep_frame hi _) (reaches_startFrame (s := setSeq q s) hu hr ht hc)

/-! A data phase. -/

/-- The state after the data phase `ph`, the card still to answer `cs`. -/
def filled (ph : Phase) (cs : List (Option Byte)) (s : State) : State :=
  { s with
    buf := storeBytes s.buf 0 ph.data
    lines.csS := s.cfg.csActive.not
    ctl.poll.tok := none
    env.cardIn := cs
    obs.portS := ph.events s.cfg.fillRd ++ s.obs.portS }

/-- A data phase to its deselect. -/
theorem reaches_phase {n : Nat} {ph : Phase} {s : State} {q : List Micro} {cs : List (Option Byte)}
    (hs : AtSteps [.dataPhase n] q s) (hn : 1 ≤ n) (hmax : n ≤ 512) (hph : ph.fits s.cfg n = true)
    (hc : s.env.cardIn = ph.answers ++ cs) : Reaches s (setSeq q (filled ph cs s)) := by
  obtain ⟨hu, hr, hq⟩ := hs
  obtain ⟨hjunk, hlen, hlim⟩ := Phase.fits_iff.mp hph
  have hdata : ph.data ≠ [] := List.length_pos_iff.mp (hlen ▸ hn)
  exact reaches_dataPhase hjunk hdata hlen hmax hu hr hq hc hlim

/-! An operation. -/

/-- An operation whose checks pass runs to completion in `u` where its micro-steps lead to `u`, still running. -/
theorem completes_of_run {i : Instr} {s u : State} {opc : Byte} {p pre operands : Bool} {prog : List Micro}
    (hs : Idle s) (hexec : exec i s = .next (issue opc p pre operands prog s)) (hpre : pre = true)
    (hoperands : operands = true) (hu : Idle u) (hfree : Undisturbed u) (hseq : u.ctl.seq = [])
    (hrun : Reaches (setSeq prog (issued opc p s)) { u with regs.running := true }) : Completes i s u := by
  subst hpre hoperands
  rw [issue_accepted hs] at hexec
  have hdone : complete { u with regs.running := true } = u :=
    calc complete { u with regs.running := true }
      _ = { u with ctl.seq := [], regs.running := false } := rfl
      _ = { u with ctl.seq := u.ctl.seq, regs.running := u.regs.running } := by rw [hseq, hu.2]
      _ = u := rfl
  have hend : Reaches { u with regs.running := true } u :=
    (Reaches.done (s := { u with regs.running := true }) hfree rfl hseq).trans (Reaches.of_eq hdone)
  exact ⟨_, hexec, hrun.trans hend, hu.2, hu.1, hseq⟩

end Sys2Proof.Machine
end

section
/-! Settles the statements about the card's tokens, commands and responses, the data phase, and the read operations. -/

namespace Sys2Proof.Machine

/-- Settles O5: each token is one update of the state. -/
theorem tokensEndTheirPolls : Obligations.TokensEndTheirPolls := fun _ _ => ⟨rfl, rfl⟩

/-- Each of the seven card commands begins its frame's transaction. -/
theorem exec_cardCommand {i : Instr} {w : BitVec 48} (h : encode i = .frame w) (s : State) :
    exec i s = .next (startFrame w s) := by
  cases i <;> cases h <;> rfl

/-- Settles O10: the seven commands begin the same transaction (`exec_cardCommand`), which runs to its release byte. -/
theorem cardCommandTransaction : Obligations.CardCommandTransaction := by
  intro i w s tx cs hi hu hr htx hc
  have hrun := reaches_startFrame (w := w) hu hr htx hc
  rw [answered, Transcript.events_single] at hrun
  exact ⟨_, exec_cardCommand hi s, hrun⟩

/-! The tests of a response. -/

theorem microStep_cmd0Test_idle {s : State} (h : s.regs.lastR1 = 0x01#8) :
    microStep .cmd0Test s = .next (setPoll .cmd0 none s) := congrArg Host.Outcome.next (if_pos h)

theorem microStep_cmd0Test_again {s : State} (h : s.regs.lastR1 ≠ 0x01#8) :
    microStep .cmd0Test s = .next (push [.cmd0Loop] s) := congrArg Host.Outcome.next (if_neg h)

theorem microStep_cmd8Test_other {s : State} (h : s.regs.lastR1 ≠ 0x01#8) : microStep .cmd8Test s = .next s :=
  congrArg Host.Outcome.next (if_neg h)

/-- A response other than 0x00 is let pass by the first CMD41 where it is 0x01, and by the later ones (R159). -/
theorem microStep_cmd41Test_again {s : State} (h : s.regs.lastR1 ≠ 0x00#8)
    (hfirst : s.ctl.first41 = true → s.regs.lastR1 = 0x01#8) :
    microStep .cmd41Test s = .next (push [.a41Loop] { s with ctl.first41 := false }) := by
  have habove : ¬ (s.ctl.first41 = true ∧ 0x01#8 < s.regs.lastR1) := fun ⟨hf, hlt⟩ => by simp [hfirst hf] at hlt
  rw [microStep, stepCmd41Test, if_neg habove, if_neg h]

theorem microStep_cmd41Test_ready {s : State} (h : s.regs.lastR1 = 0x00#8) :
    microStep .cmd41Test s = .next (setPoll .a41 none { s with ctl.first41 := false }) := by
  have habove : ¬ (s.ctl.first41 = true ∧ 0x01#8 < s.regs.lastR1) := fun ⟨_, hlt⟩ => by simp [h] at hlt
  rw [microStep, stepCmd41Test, if_neg habove, if_pos h]

theorem microStep_cmd17Test_ok {s : State} (h : s.regs.lastR1 = 0x00#8) : microStep .cmd17Test s = .next s :=
  congrArg Host.Outcome.next (if_pos h)

theorem microStep_cmd18Test_ok {s : State} (h : s.regs.lastR1 = 0x00#8) : microStep .cmd18Test s = .next s :=
  congrArg Host.Outcome.next (if_pos h)

/-- Settles O11: each test is one micro-step (`step_atSteps`), a choice on LAST_R1; CMD41's compares it as a number. -/
theorem responseTests : Obligations.ResponseTests := by
  intro s q
  refine ⟨step_atSteps, step_atSteps, fun h => ?cmd41, step_atSteps, step_atSteps⟩
  simp only [step_atSteps h, microStep, stepCmd41Test, BitVec.lt_def]
  rfl

/-! The data phase. -/

/-- A data phase up to a payload transfer that errs: its select and its start token, then the payload's own error. -/
theorem reaches_phase_error {n : Nat} {junk data : List Byte} {s : State} {q : List Micro} {cs : List (Option Byte)}
    (hs : AtSteps [.dataPhase n] q s) (hlt : data.length < n) (hmax : n ≤ 512) (hjunk : ∀ b ∈ junk, b ≠ 0xFE#8)
    (hlim : aboveLimit s.cfg.pollLimit (junk.length + 1) = false)
    (hc : s.env.cardIn = junk.map some ++ some 0xFE#8 :: data.map some ++ none :: cs) :
    Reaches s
      (raise .storageBus
        { s with
          buf := storeBytes s.buf 0 data
          lines.csS := s.cfg.csActive
          ctl.seq := [.trailer, .trailer, .deselect .S] ++ q
          ctl.poll.tok := none
          env.cardIn := cs
          obs.portS := .xfer s.cfg.fillRd none ::
            ((data.map (fun b => EventS.xfer s.cfg.fillRd (some b))).reverse ++
              .xfer s.cfg.fillRd (some 0xFE#8) ::
                ((junk.map (fun b => EventS.xfer s.cfg.fillRd (some b))).reverse ++ .select :: s.obs.portS)) }) := by
  have ⟨hu, hr, _⟩ := hs
  rw [List.append_assoc] at hc
  have htoken := reaches_tokenPoll (n := 0) (s := setPoll .tok (some 0)
      (setSeq ([.tokenPoll, .payload 0 n, .trailer, .trailer, .deselect .S] ++ q) (doSelect .S s)))
    hjunk hu hr rfl hc rfl ((Nat.zero_add _).symm ▸ hlim)
  refine Reaches.next hs rfl (Reaches.next (m := .enter .tok) ⟨hu, hr, rfl⟩ rfl (htoken.trans ?_))
  exact reaches_payload_error (by simpa using hlt) hmax hu hr rfl rfl

/-- Settles O12: the phase to its deselect (`reaches_phase`), and the phase up to a byte that errs
(`reaches_phase_error`). -/
theorem dataPhaseFillsBuffer : Obligations.DataPhaseFillsBuffer := by
  intro s n q cs hs hn hmax
  exact ⟨fun ph hph hc => reaches_phase hs hn hmax hph hc,
    fun junk data hlt hjunk hlim hc => reaches_phase_error hs hlt hmax hjunk hlim hc⟩

/-! The read operations. -/

/-- Settles O16: one data phase. -/
theorem sdReadNextCompletes : Obligations.SdReadNextCompletes := by
  intro s ph cs hs hu hraw hn hmax hph hc
  refine completes_of_run hs rfl ?_ ?_ hs hu rfl ?_
  · simp [preRaw, hraw]
  · simp [lenOk, hn, hmax]
  · exact reaches_phase (q := []) ⟨hu, rfl, rfl⟩ hn hmax hph hc

/-- Settles O17: CMD12, then OWNER, whatever the response. -/
theorem sdReadEndCompletes : Obligations.SdReadEndCompletes := by
  intro s tx cs hs hu hraw htx hc
  refine completes_of_run hs rfl ?_ rfl hs hu rfl ?_
  · simp [preRaw, hraw]
  · rw [← Transcript.events_single]
    refine Reaches.trans (reaches_command (q := [.setOwner .none]) rfl ⟨hu, rfl, rfl⟩ htx hc) ?_
    exact Reaches.next (m := .setOwner .none) ⟨hu, rfl, rfl⟩ rfl (Reaches.refl _)

/-- Settles O15: CMD18, whose answer 0x00 passes its test, then OWNER. -/
theorem sdReadStartCompletes : Obligations.SdReadStartCompletes := by
  intro s tx cs hs hu hready howner htx hr0 hc
  refine completes_of_run hs rfl ?_ rfl hs hu rfl ?_
  · simp [preStreamFree, hready, howner]
  · rw [← Transcript.events_single, ← hr0]
    refine Reaches.trans (reaches_command (q := [.cmd18Test, .setOwner .raw]) rfl ⟨hu, rfl, rfl⟩ htx hc) ?_
    refine Reaches.next (m := .cmd18Test) ⟨hu, rfl, rfl⟩ (microStep_cmd18Test_ok hr0) ?_
    exact Reaches.next (m := .setOwner .raw) ⟨hu, rfl, rfl⟩ rfl (Reaches.refl _)

/-- Settles O14: CMD17, whose answer 0x00 passes its test, then one data phase. -/
theorem sdReadSectorCompletes : Obligations.SdReadSectorCompletes := by
  intro s tx ph cs hs hu hready howner hn hmax hsector htx hr0 hph hc
  refine completes_of_run hs rfl ?_ ?_ hs hu rfl ?_
  · simp [preStreamFree, hready, howner]
  · simp only [sectorOk, lenOk, hn, hmax, hsector, decide_true, Bool.and_self]
  · rw [← Transcript.events_single, ← hr0]
    rw [List.append_assoc] at hc
    refine Reaches.trans (reaches_command (q := [.cmd17Test, .dataPhase s.regs.len.toNat]) rfl ⟨hu, rfl, rfl⟩ htx hc) ?_
    refine Reaches.next (m := .cmd17Test) ⟨hu, rfl, rfl⟩ (microStep_cmd17Test_ok hr0) ?_
    exact reaches_phase (q := []) ⟨hu, rfl, rfl⟩ hn hmax hph rfl

end Sys2Proof.Machine
end

section
/-! Settles the statement about SD_INIT (41_storage.md R163): its two loops, each by induction on the rounds that repeat
it, and the operation. -/

namespace Sys2Proof.Machine

/-! The idle bytes. -/

/-- A `SpiWrite(S, …)` of any number of bytes, none included (log 24). -/
theorem reaches_spiWriteS {bs ws : List Byte} (hl : ws.length = bs.length) {s : State} {q : List Micro}
    {cs : List (Option Byte)} (hs : AtSteps [.spiWrite .S bs] q s) (hc : s.env.cardIn = ws.map some ++ cs) :
    Reaches s
      { s with
        ctl.seq := q
        env.cardIn := cs
        obs.portS := (bs.map (fun b => EventS.write b true)).reverse ++ s.obs.portS } := by
  by_cases hb : bs = []
  · subst hb
    obtain rfl := List.eq_nil_of_length_eq_zero hl
    refine Reaches.next hs rfl (Reaches.of_eq ?_)
    rw [← show s.env.cardIn = cs from hc]
    rfl
  · obtain ⟨hu, hr, hq⟩ := hs
    exact reaches_writeS hb hl hu hr hq hc

/-! The CMD0 loop (R156). -/

/-- One try of CMD0, as the transcript holds it. -/
def cmd0Try (t : CardTx) : BitVec 48 × CardTx := (frameWord 0#6 0x00000000#32 0x95#8, t)

/-- An iteration within the bound counts itself and sends CMD0, up to the test of its response. -/
theorem reaches_cmd0Try {t : CardTx} {n : Nat} {s : State} {q : List Micro} {cs : List (Option Byte)}
    (hs : AtSteps [.cmd0Loop] q s) (hn : s.ctl.poll.cmd0 = some n)
    (hlim : aboveLimit s.cfg.pollLimit (n + 1) = false) (ht : t.fits s.cfg = true)
    (hc : s.env.cardIn = Transcript.answers [cmd0Try t] ++ cs) :
    Reaches s (setSeq (.cmd0Test :: q) (answered [cmd0Try t] t.r cs (setPoll .cmd0 (some (n + 1)) s))) := by
  have ⟨hu, hr, _⟩ := hs
  rw [cmd0Try, Transcript.answers_single] at hc
  have hstep := (microStep_cmd0Loop _).trans (poll_counted (l := .cmd0) (s := setSeq q s) hn hlim _)
  exact Reaches.next hs hstep (reaches_command (q := .cmd0Test :: q) rfl ⟨hu, hr, rfl⟩ ht hc)

/-- The loop repeats until the card answers 0x01. -/
theorem reaches_cmd0Loop {tries : List CardTx} {go : CardTx} {n : Nat} {s : State} {q : List Micro}
    {cs : List (Option Byte)} (hs : AtSteps [.cmd0Loop] q s) (hn : s.ctl.poll.cmd0 = some n)
    (hlim : aboveLimit s.cfg.pollLimit (n + tries.length + 1) = false)
    (htries : ∀ t ∈ tries, t.fits s.cfg = true ∧ t.r ≠ 0x01#8) (hgo : go.fits s.cfg = true) (hidle : go.r = 0x01#8)
    (hc : s.env.cardIn = Transcript.answers ((tries ++ [go]).map cmd0Try) ++ cs) :
    Reaches s (setSeq q (setPoll .cmd0 none (answered ((tries ++ [go]).map cmd0Try) 0x01#8 cs s))) := by
  induction tries generalizing n s with
  | nil =>
    have ⟨hu, hr, _⟩ := hs
    refine (reaches_cmd0Try hs hn hlim hgo hc).trans ?_
    refine Reaches.next ⟨hu, hr, rfl⟩ (microStep_cmd0Test_idle hidle) (Reaches.of_eq ?_)
    rw [hidle]
    rfl
  | cons t tries ih =>
    have ⟨hu, hr, _⟩ := hs
    obtain ⟨⟨ht, hagain⟩, htries⟩ := List.forall_mem_cons.mp htries
    have hlim' : aboveLimit s.cfg.pollLimit (n + 1 + tries.length + 1) = false := by
      rwa [List.length_cons, Nat.add_comm tries.length 1, ← Nat.add_assoc n] at hlim
    rw [List.cons_append, List.map_cons, Transcript.answers_cons, List.append_assoc] at hc
    refine (reaches_cmd0Try hs hn (aboveLimit_mono (by omega) hlim') ht hc).trans ?_
    refine Reaches.next ⟨hu, hr, rfl⟩ (microStep_cmd0Test_again hagain) ?_
    refine Reaches.trans (ih ⟨hu, hr, rfl⟩ rfl hlim' htries hgo rfl) (Reaches.of_eq ?_)
    rw [List.cons_append, List.map_cons, ← answered_cons (cmd0Try t) ((tries ++ [go]).map cmd0Try) t.r]
    rfl

/-! The loop of CMD55 and CMD41 (R158, R159). -/

/-- One round of CMD55 and CMD41, as the transcript holds it. -/
def cmd41Round (p : Config.Params) (t : CardTx × CardTx) : Transcript :=
  [(frameWord 55#6 p.arg55 p.chk55, t.1), (frameWord 41#6 p.arg41 p.chk41, t.2)]

/-- An iteration within the bound counts itself and sends CMD55 and CMD41, up to the test of CMD41's response. -/
theorem reaches_cmd41Round {t : CardTx × CardTx} {n : Nat} {s : State} {q : List Micro} {cs : List (Option Byte)}
    (hs : AtSteps [.a41Loop] q s) (hn : s.ctl.poll.a41 = some n)
    (hlim : aboveLimit s.cfg.pollLimit (n + 1) = false) (ht55 : t.1.fits s.cfg = true) (ht41 : t.2.fits s.cfg = true)
    (hc : s.env.cardIn = Transcript.answers (cmd41Round s.cfg t) ++ cs) :
    Reaches s
      (setSeq (.cmd41Test :: q) (answered (cmd41Round s.cfg t) t.2.r cs (setPoll .a41 (some (n + 1)) s))) := by
  have ⟨hu, hr, _⟩ := hs
  rw [cmd41Round, Transcript.answers_cons, Transcript.answers_single, Transcript.answers_single,
    List.append_assoc] at hc
  have hstep := (microStep_a41Loop _).trans (poll_counted (l := .a41) (s := setSeq q s) hn hlim _)
  refine Reaches.next hs hstep (Reaches.trans
    (reaches_command (idx := 55#6) (q := frameCmd41 s.cfg :: .cmd41Test :: q) rfl ⟨hu, hr, rfl⟩ ht55 hc) ?_)
  refine Reaches.trans (reaches_command (idx := 41#6) (arg := s.cfg.arg41) (chk := s.cfg.chk41) (q := .cmd41Test :: q)
    rfl ⟨hu, hr, rfl⟩ ht41 rfl) (Reaches.of_eq ?_)
  simp only [answered_setSeq, answered_answered, setSeq_setSeq]
  rfl

/-- The loop repeats until CMD41 answers 0x00; where none has been answered yet, the first one answers 0x01 or
0x00. -/
theorem reaches_a41Loop {more : List (CardTx × CardTx)} {last : CardTx × CardTx} {n : Nat} {s : State} {q : List Micro}
    {cs : List (Option Byte)} (hs : AtSteps [.a41Loop] q s) (hn : s.ctl.poll.a41 = some n)
    (hlim : aboveLimit s.cfg.pollLimit (n + more.length + 1) = false)
    (hmore : ∀ t ∈ more, t.1.fits s.cfg = true ∧ t.2.fits s.cfg = true ∧ t.2.r ≠ 0x00#8)
    (hfirst : ∀ t, more.head? = some t → s.ctl.first41 = true → t.2.r = 0x01#8)
    (hlast55 : last.1.fits s.cfg = true) (hlast41 : last.2.fits s.cfg = true) (hready : last.2.r = 0x00#8)
    (hc : s.env.cardIn = Transcript.answers ((more ++ [last]).flatMap (cmd41Round s.cfg)) ++ cs) :
    Reaches s
      (setSeq q (setPoll .a41 none
        (answered ((more ++ [last]).flatMap (cmd41Round s.cfg)) 0x00#8 cs { s with ctl.first41 := false }))) := by
  induction more generalizing n s with
  | nil =>
    have ⟨hu, hr, _⟩ := hs
    refine Reaches.trans (reaches_cmd41Round hs hn hlim hlast55 hlast41 hc) ?_
    refine Reaches.next ⟨hu, hr, rfl⟩ (microStep_cmd41Test_ready hready) (Reaches.of_eq ?_)
    rw [hready]
    rfl
  | cons t more ih =>
    have ⟨hu, hr, _⟩ := hs
    obtain ⟨⟨ht55, ht41, hagain⟩, hmore⟩ := List.forall_mem_cons.mp hmore
    have hlim' : aboveLimit s.cfg.pollLimit (n + 1 + more.length + 1) = false := by
      rwa [List.length_cons, Nat.add_comm more.length 1, ← Nat.add_assoc n] at hlim
    rw [List.cons_append, List.flatMap_cons, Transcript.answers_append, List.append_assoc] at hc
    refine Reaches.trans (reaches_cmd41Round hs hn (aboveLimit_mono (by omega) hlim') ht55 ht41 hc) ?_
    refine Reaches.next ⟨hu, hr, rfl⟩ (microStep_cmd41Test_again hagain (hfirst t rfl)) ?_
    refine Reaches.trans (ih ⟨hu, hr, rfl⟩ rfl hlim' hmore (fun _ _ => nofun) hlast55 hlast41 rfl)
      (Reaches.of_eq ?_)
    rw [List.cons_append, List.flatMap_cons, ← answered_answered (r := t.2.r) (cs := [])]
    rfl

/-! The operation, part by part. -/

/-- The state after the deselect and the idle bytes that begin SD_INIT, the card still to answer `cs`. -/
def woken (cs : List (Option Byte)) (s : State) : State :=
  { s with
    lines.csS := s.cfg.csActive.not
    env.cardIn := cs
    obs.portS := List.replicate s.cfg.nIdle (.write 0xFF#8 true) ++ .deselect :: s.obs.portS }

/-- The deselect and the idle bytes. -/
theorem reaches_woken {idle : List Byte} {s : State} {q : List Micro} {cs : List (Option Byte)}
    (hs : AtSteps [.deselect .S, .spiWrite .S (List.replicate s.cfg.nIdle 0xFF#8)] q s)
    (hidle : idle.length = s.cfg.nIdle) (hc : s.env.cardIn = idle.map some ++ cs) :
    Reaches s (setSeq q (woken cs s)) := by
  obtain ⟨hu, hr, hq⟩ := hs
  have hwrite := reaches_spiWriteS (bs := List.replicate s.cfg.nIdle 0xFF#8) (ws := idle) (by simp [hidle])
    (s := doDeselect .S (setSeq (.spiWrite .S (List.replicate s.cfg.nIdle 0xFF#8) :: q) s)) (q := q) ⟨hu, hr, rfl⟩ hc
  refine Reaches.next (m := .deselect .S) ⟨hu, hr, hq⟩ rfl (hwrite.trans (Reaches.of_eq ?_))
  rw [List.map_replicate, List.reverse_replicate]
  rfl

/-- CMD0 until the card is idle. -/
theorem reaches_cardIdle {tries : List CardTx} {go : CardTx} {s : State} {q : List Micro} {cs : List (Option Byte)}
    (hs : AtSteps [.enter .cmd0, .cmd0Loop] q s) (hlim : aboveLimit s.cfg.pollLimit (tries.length + 1) = false)
    (htries : ∀ t ∈ tries, t.fits s.cfg = true ∧ t.r ≠ 0x01#8) (hgo : go.fits s.cfg = true) (hidle : go.r = 0x01#8)
    (hc : s.env.cardIn = Transcript.answers ((tries ++ [go]).map cmd0Try) ++ cs) :
    Reaches s (setSeq q (setPoll .cmd0 none (answered ((tries ++ [go]).map cmd0Try) 0x01#8 cs s))) := by
  obtain ⟨hu, hr, hq⟩ := hs
  have hloop := reaches_cmd0Loop (n := 0) (s := setPoll .cmd0 (some 0) (setSeq (.cmd0Loop :: q) s)) ⟨hu, hr, rfl⟩ rfl
    ((Nat.zero_add _).symm ▸ hlim) htries hgo hidle hc
  exact Reaches.next (m := .enter .cmd0) ⟨hu, hr, hq⟩ rfl (hloop.trans (Reaches.of_eq rfl))

/-- CMD8, whose response is not the one of a version 2 card. -/
theorem reaches_probed {v : CardTx} {s : State} {q : List Micro} {cs : List (Option Byte)}
    (hs : AtSteps [frameCmd8, .cmd8Test] q s) (hv : v.fits s.cfg = true) (hv1 : v.r ≠ 0x01#8)
    (hc : s.env.cardIn = txAnswers v.ws v.fill v.r v.x ++ cs) :
    Reaches s (setSeq q (answered [(frameWord 8#6 0x000001AA#32 0x87#8, v)] v.r cs s)) := by
  obtain ⟨hu, hr, hq⟩ := hs
  refine (reaches_command (q := .cmd8Test :: q) rfl ⟨hu, hr, hq⟩ hv hc).trans ?_
  exact Reaches.next ⟨hu, hr, rfl⟩ (microStep_cmd8Test_other hv1) (Reaches.refl _)

/-- CMD55 and CMD41 until the card is ready. -/
theorem reaches_cardReady {more : List (CardTx × CardTx)} {last : CardTx × CardTx} {s : State} {q : List Micro}
    {cs : List (Option Byte)} (hs : AtSteps [.a41Enter, .a41Loop] q s)
    (hlim : aboveLimit s.cfg.pollLimit (more.length + 1) = false)
    (hmore : ∀ t ∈ more, t.1.fits s.cfg = true ∧ t.2.fits s.cfg = true ∧ t.2.r ≠ 0x00#8)
    (hfirst : ∀ t, more.head? = some t → t.2.r = 0x01#8)
    (hlast55 : last.1.fits s.cfg = true) (hlast41 : last.2.fits s.cfg = true) (hready : last.2.r = 0x00#8)
    (hc : s.env.cardIn = Transcript.answers ((more ++ [last]).flatMap (cmd41Round s.cfg)) ++ cs) :
    Reaches s
      (setSeq q (setPoll .a41 none
        (answered ((more ++ [last]).flatMap (cmd41Round s.cfg)) 0x00#8 cs { s with ctl.first41 := false }))) := by
  obtain ⟨hu, hr, hq⟩ := hs
  have hloop := reaches_a41Loop (n := 0) (s := stepA41Enter (setSeq (.a41Loop :: q) s)) ⟨hu, hr, rfl⟩ rfl
    ((Nat.zero_add _).symm ▸ hlim) hmore (fun t ht _ => hfirst t ht) hlast55 hlast41 hready hc
  exact Reaches.next (m := .a41Enter) ⟨hu, hr, hq⟩ rfl (hloop.trans (Reaches.of_eq rfl))

/-- Settles O13: the idle bytes (`reaches_woken`), CMD0 (`reaches_cardIdle`), CMD8 (`reaches_probed`), CMD55 and CMD41
(`reaches_cardReady`), and SD_READY. The parts' transcripts one after another are the whole one's. -/
theorem sdInitCompletes : Obligations.SdInitCompletes := by
  intro s idle tries go v more last cs hs hu hnot hidle htries hgo hgo1 hv hv1 hmore hfirst hlast55 hlast41 hlast0
    hlim0 hlim41 cmd0 cmd8 cmd55 cmd41 tr hc
  have htr : tr = (tries ++ [go]).map cmd0Try ++ ([(cmd8, v)] ++ (more ++ [last]).flatMap (cmd41Round s.cfg)) := by
    rw [List.map_append, List.append_assoc]
    rfl
  rw [htr, Transcript.answers_append, Transcript.answers_append, Transcript.answers_single] at hc
  simp only [List.append_assoc] at hc
  refine completes_of_run hs rfl (by simp [preSdInit, hnot]) rfl hs hu rfl ?_
  refine Reaches.trans (reaches_woken ⟨hu, rfl, rfl⟩ hidle hc) ?_
  refine Reaches.trans (reaches_cardIdle ⟨hu, rfl, rfl⟩ hlim0 htries hgo hgo1 rfl) ?_
  refine Reaches.trans (reaches_probed ⟨hu, rfl, rfl⟩ hv hv1 rfl) ?_
  refine Reaches.trans (reaches_cardReady ⟨hu, rfl, rfl⟩ hlim41 hmore hfirst hlast55 hlast41 hlast0 rfl) ?_
  refine Reaches.next (m := .setSdReady) ⟨hu, rfl, rfl⟩ rfl (Reaches.of_eq ?_)
  simp only [htr, Transcript.events_append, List.append_assoc]
  rfl

end Sys2Proof.Machine
end

section
/-! SUPPORT. The runs of the chunk sequencer's procedures, in front of any steps that follow them: the creation of a
sequence, a pull's three cases and a drop's two (42_chunk_sequencer.md R201 to R203). -/

namespace Sys2Proof.Machine

/-! The parts they share. -/

/-- The state after a CMD12 that the card has answered as `tx` says, the card still to answer `cs`. -/
def readEnded (tx : CardTx) (cs : List (Option Byte)) (s : State) : State :=
  answered [(frameWord 12#6 s.cfg.arg12 s.cfg.chk12, tx)] tx.r cs s

/-- CMD12, whatever its response. -/
theorem reaches_readEnd {tx : CardTx} {s : State} {q : List Micro} {cs : List (Option Byte)}
    (hs : AtSteps [frameCmd12 s.cfg] q s) (htx : tx.fits s.cfg = true)
    (hc : s.env.cardIn = txAnswers tx.ws tx.fill tx.r tx.x ++ cs) :
    Reaches s (setSeq q (readEnded tx cs s)) := reaches_command rfl hs htx hc

/-- The state with ITER_CUR past the next chunk (R202). -/
def advanced (s : State) : State :=
  { s with regs.iterCur := BitVec.ofNat 32 (s.regs.iterCur.toNat + nextChunk s.regs) }

theorem nextChunk_pos {r : Regs} (h : r.iterCur < r.iterEnd) : 1 ≤ nextChunk r := by
  rw [BitVec.lt_def] at h
  simp only [nextChunk, chunkMax]
  omega

/-- Below ITER_END the advance does not wrap. -/
theorem advanced_iterCur_toNat {s : State} (h : s.regs.iterCur < s.regs.iterEnd) :
    (advanced s).regs.iterCur.toNat = s.regs.iterCur.toNat + nextChunk s.regs := by
  have hend := s.regs.iterEnd.isLt
  rw [BitVec.lt_def] at h
  have hle : nextChunk s.regs ≤ s.regs.iterEnd.toNat - s.regs.iterCur.toNat := Nat.min_le_right _ _
  exact (BitVec.toNat_ofNat _ _).trans (Nat.mod_eq_of_lt (by omega))

/-! One micro-step of a pull, and of a drop. -/

theorem microStep_itPull_chunk {s : State} (h : s.regs.iterCur < s.regs.iterEnd) :
    microStep .itPull s =
      .next (push [.dataPhase (nextChunk s.regs), .setChunkLen (nextChunk s.regs)] (advanced s)) :=
  congrArg Host.Outcome.next (if_pos h)

theorem microStep_itPull_last {s : State} (h : ¬ s.regs.iterCur < s.regs.iterEnd) (hended : s.regs.iterEnded = false) :
    microStep .itPull s = .next (push [frameCmd12 s.cfg, .pullEnd] s) :=
  congrArg Host.Outcome.next ((if_neg h).trans (if_pos hended))

theorem microStep_itPull_after {s : State} (h : ¬ s.regs.iterCur < s.regs.iterEnd) (hended : s.regs.iterEnded = true) :
    microStep .itPull s = .next (stepSetChunkLen 0 s) :=
  congrArg Host.Outcome.next ((if_neg h).trans (if_neg (by simp [hended])))

theorem microStep_itDrop_sends {s : State} (hactive : s.regs.iterActive = true) (hended : s.regs.iterEnded = false) :
    microStep .itDrop s = .next (push [frameCmd12 s.cfg, .dropEnd] s) :=
  congrArg Host.Outcome.next (if_pos ⟨hactive, hended⟩)

theorem microStep_itDrop_clears {s : State} (h : s.regs.iterActive = false ∨ s.regs.iterEnded = true) :
    microStep .itDrop s = .next (clearIter s) :=
  congrArg Host.Outcome.next (if_neg fun ⟨hactive, hended⟩ => by simp [hactive, hended] at h)

/-! The procedures. -/

/-- `ItStart`: CMD18, whose answer 0x00 passes its test, then the sequence's registers. -/
theorem reaches_itStart {start : Word} {who : Owner} {tx : CardTx} {s : State} {q : List Micro}
    {cs : List (Option Byte)} (hs : AtSteps (itStart s.cfg start who) q s) (htx : tx.fits s.cfg = true)
    (hr0 : tx.r = 0x00#8) (hc : s.env.cardIn = txAnswers tx.ws tx.fill tx.r tx.x ++ cs) :
    Reaches s
      (setSeq q (stepItBegin start who (answered [(frameWord 18#6 start s.cfg.chk18, tx)] 0x00#8 cs s))) := by
  obtain ⟨hu, hr, hq⟩ := hs
  rw [← hr0]
  refine (reaches_command (q := .cmd18Test :: .itBegin start who :: q) rfl ⟨hu, hr, hq⟩ htx hc).trans ?_
  refine Reaches.next (m := .cmd18Test) ⟨hu, hr, rfl⟩ (microStep_cmd18Test_ok hr0) ?_
  exact Reaches.next (m := .itBegin start who) ⟨hu, hr, rfl⟩ rfl (Reaches.refl _)

/-- A pull below ITER_END: the advance, the chunk's data phase, and its length. -/
theorem reaches_pullChunk {ph : Phase} {s : State} {q : List Micro} {cs : List (Option Byte)}
    (hs : AtSteps [.itPull] q s) (hlt : s.regs.iterCur < s.regs.iterEnd)
    (hph : ph.fits s.cfg (nextChunk s.regs) = true) (hc : s.env.cardIn = ph.answers ++ cs) :
    Reaches s (setSeq q (stepSetChunkLen (nextChunk s.regs) (filled ph cs (advanced s)))) := by
  have ⟨hu, hr, _⟩ := hs
  have hphase := reaches_phase (s := push [.dataPhase (nextChunk s.regs), .setChunkLen (nextChunk s.regs)]
    (advanced (setSeq q s))) ⟨hu, hr, rfl⟩ (nextChunk_pos hlt) (nextChunk_le_max s.regs) hph hc
  refine Reaches.next hs (microStep_itPull_chunk hlt) (hphase.trans ?_)
  exact Reaches.next (m := .setChunkLen (nextChunk s.regs)) ⟨hu, hr, rfl⟩ rfl (Reaches.refl _)

/-- The first pull at the plane's end: CMD12, and the exhaustion. -/
theorem reaches_pullLast {tx : CardTx} {s : State} {q : List Micro} {cs : List (Option Byte)}
    (hs : AtSteps [.itPull] q s) (hend : ¬ s.regs.iterCur < s.regs.iterEnd) (hended : s.regs.iterEnded = false)
    (htx : tx.fits s.cfg = true) (hc : s.env.cardIn = txAnswers tx.ws tx.fill tx.r tx.x ++ cs) :
    Reaches s (setSeq q (stepPullEnd (readEnded tx cs s))) := by
  have ⟨hu, hr, _⟩ := hs
  have hread := reaches_readEnd (s := push [frameCmd12 s.cfg, .pullEnd] (setSeq q s)) (q := .pullEnd :: q)
    ⟨hu, hr, rfl⟩ htx hc
  refine Reaches.next hs (microStep_itPull_last hend hended) (hread.trans ?_)
  exact Reaches.next (m := .pullEnd) ⟨hu, hr, rfl⟩ rfl (Reaches.refl _)

/-- A later pull at the plane's end. -/
theorem reaches_pullAfter {s : State} {q : List Micro} (hs : AtSteps [.itPull] q s)
    (hend : ¬ s.regs.iterCur < s.regs.iterEnd) (hended : s.regs.iterEnded = true) :
    Reaches s (setSeq q (stepSetChunkLen 0 s)) :=
  Reaches.next hs (microStep_itPull_after hend hended) (Reaches.refl _)

/-- A drop of a sequence that is not exhausted: CMD12, and the sequence's end. -/
theorem reaches_dropSends {tx : CardTx} {s : State} {q : List Micro} {cs : List (Option Byte)}
    (hs : AtSteps [.itDrop] q s) (hactive : s.regs.iterActive = true) (hended : s.regs.iterEnded = false)
    (htx : tx.fits s.cfg = true) (hc : s.env.cardIn = txAnswers tx.ws tx.fill tx.r tx.x ++ cs) :
    Reaches s (setSeq q (stepDropEnd (readEnded tx cs s))) := by
  have ⟨hu, hr, _⟩ := hs
  have hread := reaches_readEnd (s := push [frameCmd12 s.cfg, .dropEnd] (setSeq q s)) (q := .dropEnd :: q)
    ⟨hu, hr, rfl⟩ htx hc
  refine Reaches.next hs (microStep_itDrop_sends hactive hended) (hread.trans ?_)
  exact Reaches.next (m := .dropEnd) ⟨hu, hr, rfl⟩ rfl (Reaches.refl _)

/-- A drop of an exhausted sequence, or of none. -/
theorem reaches_dropClears {s : State} {q : List Micro} (hs : AtSteps [.itDrop] q s)
    (h : s.regs.iterActive = false ∨ s.regs.iterEnded = true) : Reaches s (setSeq q (clearIter s)) :=
  Reaches.next hs (microStep_itDrop_clears h) (Reaches.refl _)

end Sys2Proof.Machine
end

section
/-! Settles the statements about the chunk sequencer: its three operations to completion, and which steps change
ITER_CUR. -/

namespace Sys2Proof.Machine

/-! ITER_CUR. -/

/-- A micro-step changes ITER_CUR only where it is a pull below ITER_END, or where it begins a sequence. -/
theorem moved_iterCur {m : Micro} {s t : State} (h : Moved m s t) (hne : t.regs.iterCur ≠ s.regs.iterCur) :
    (m = .itPull ∧ s.regs.iterCur < s.regs.iterEnd ∧ t.regs.iterCur = (advanced s).regs.iterCur) ∨
      ∃ who, m = .itBegin t.regs.iterCur who := by
  cases moved_regs h
  case iterCur hm _ =>
    subst hm
    cases h with
    | raised _ _ _ _ _ _ _ hm => cases hm
    | pullChunk _ hlt => exact .inl ⟨rfl, hlt, rfl⟩
    | pullLast => exact absurd rfl hne
    | pullAfter => exact absurd rfl hne
  case created start who hm e => exact .inr ⟨who, by rw [hm, e]; rfl⟩
  all_goals
    rename_i e
    exact absurd (by rw [e]) hne

theorem issued_iterCur {s t : State} (h : Issued s t) : t.regs.iterCur = s.regs.iterCur := by cases h <;> rfl

/-- Settles O52: a host access, an issue and the end of an operation leave ITER_CUR, and a micro-step changes it as
`moved_iterCur` says. -/
theorem iterCurOnlyAdvances : Obligations.IterCurOnlyAdvances := by
  intro s t h hreset hne
  cases step_turned h with
  | reset q hq => exact absurd (by rw [hq]; rfl) hreset
  | nothing => exact absurd rfl hne
  | done => exact absurd rfl hne
  | read => exact absurd rfl hne
  | write q offset v =>
    obtain ⟨a, l, e, -⟩ := writeWord_regs offset v (setSched q s)
    exact absurd (by rw [e]; rfl) hne
  | issue q w _ _ ht => exact absurd (issued_iterCur (issueWord_issued ht)) hne
  | micro q _ m rest _ _ hq ht =>
    rcases moved_iterCur (microStep_moved ht) hne with ⟨hm, hlt, e⟩ | ⟨who, hm⟩
    · exact .inl ⟨rest, hm ▸ hq, hlt, (congrArg BitVec.toNat e).trans (advanced_iterCur_toNat (s := s) hlt)⟩
    · exact .inr ⟨who, rest, hm ▸ hq⟩

/-! The operations. -/

/-- Settles O18: the plane's first byte is inside 32 bits, so ITER_END, computed from it as a word, is the plane's
end. -/
theorem iterStartCompletes : Obligations.IterStartCompletes := by
  intro s p tx cs hs hu hready howner hplane htx hr0 hc start
  have hstart : (BitVec.ofNat 32 start).toNat = start := (BitVec.toNat_ofNat _ _).trans (Nat.mod_eq_of_lt (by omega))
  have hat : AtSteps (itStart s.cfg (BitVec.ofNat 32 start) .iter) []
      (setSeq (iterStartSteps p s) (issued 0x10#8 p s)) := ⟨hu, rfl, rfl⟩
  refine completes_of_run hs rfl ?_ (decide_eq_true hplane) hs hu rfl ?_
  · simp [preStreamFree, hready, howner]
  · refine (reaches_itStart hat htx hr0 hc).trans (Reaches.of_eq ?_)
    simp only [stepItBegin, hstart, answered, Transcript.events_single]
    rfl

/-- An accepted ITER_PULL leaves its pull to run. -/
theorem exec_iterPull {s : State} (hs : Idle s) (hactive : s.regs.iterActive = true) :
    exec .iterPull s = .next (setSeq [.itPull] (issued 0x11#8 false s)) := by
  have hexec : exec .iterPull s = .next (issue 0x11#8 false (preIterActive s) true [.itPull] s) := rfl
  rw [hexec, preIterActive, hactive, issue_accepted hs]
  rfl

/-- Settles O19: the three cases of a pull, and of the first one its first step alone. -/
theorem iterPullCompletes : Obligations.IterPullCompletes := by
  intro s cs hs hu hactive
  have hat : AtSteps [.itPull] [] (setSeq [.itPull] (issued 0x11#8 false s)) := ⟨hu, rfl, rfl⟩
  refine ⟨fun hlt => ⟨?advance, fun ph hph hc => ?chunk⟩, fun hend hended tx htx hc => ?last,
    fun hend hended => ?after⟩
  case advance =>
    have hstep := (step_atSteps hat).trans (microStep_itPull_chunk hlt)
    exact ⟨_, _, exec_iterPull hs hactive, hstep, rfl, rfl⟩
  case chunk => exact completes_of_run hs rfl hactive rfl hs hu rfl (reaches_pullChunk hat hlt hph hc)
  case last =>
    rw [← Transcript.events_single]
    exact completes_of_run hs rfl hactive rfl hs hu rfl (reaches_pullLast hat hend hended htx hc)
  case after => exact completes_of_run hs rfl hactive rfl hs hu rfl (reaches_pullAfter hat hend hended)

/-- Settles O20: the two cases of a drop; ITER_ENDED is 0 already where CMD12 is sent. -/
theorem iterDropCompletes : Obligations.IterDropCompletes := by
  intro s cs hs hu
  have hat : AtSteps [.itDrop] [] (setSeq [.itDrop] (issued 0x12#8 false s)) := ⟨hu, rfl, rfl⟩
  refine ⟨fun hactive hended tx htx hc => ?sends, fun h => ?clears⟩
  case sends =>
    rw [← Transcript.events_single]
    refine completes_of_run hs rfl rfl rfl hs hu rfl
      ((reaches_dropSends hat hactive hended htx hc).trans (Reaches.of_eq ?_))
    simp only [hended]
    rfl
  case clears => exact completes_of_run hs rfl rfl rfl hs hu rfl (reaches_dropClears hat h)

end Sys2Proof.Machine
end

section
/-! SUPPORT. The runs of port D in front of any steps that follow them: a display opcode, data transactions, the
busy-wait, the reset pulse, the red-plane filler and `Shutdown()` (43_display.md R220 to R226, R245). Each begins with its
own micro-steps set in front of those that follow, so that a run of several is a chain of these. -/

namespace Sys2Proof.Machine

/-! A running engine. -/

/-- The engine runs, and no host turn is fixed between its micro-steps. -/
def Live (s : State) : Prop := Undisturbed s ∧ s.regs.running = true

theorem Live.atSteps {s : State} (h : Live s) (m q : List Micro) : AtSteps m q (setSeq (m ++ q) s) :=
  ⟨h.1, h.2, rfl⟩

theorem AtSteps.live {m q : List Micro} {s : State} (h : AtSteps m q s) : Live s := ⟨h.1, h.2.1⟩

theorem AtSteps.setSeq_eq {m q : List Micro} {s : State} (h : AtSteps m q s) : setSeq (m ++ q) s = s := by
  rw [← h.2.2]
  rfl

/-- The next micro-step, and the run from where it leads. -/
theorem Live.next {s t u : State} {m : Micro} {q : List Micro} (h : Live s) (hm : microStep m (setSeq q s) = .next t)
    (hrun : Reaches t u) : Reaches (setSeq (m :: q) s) u :=
  Reaches.next (h.atSteps [m] q) hm hrun

/-! Transactions. -/

/-- The state after transactions with the events `es`, the last of them with DC at `v`, the panel still to answer
`ps`. -/
def sent (v : Level) (es : List EventD) (ps : List Bool) (s : State) : State :=
  { s with
    lines.dc := v
    lines.csD := s.cfg.csActive.not
    env.panelIn := ps
    obs.portD := es ++ s.obs.portD }

theorem Live.sent {s : State} (h : Live s) (v : Level) (es : List EventD) (ps : List Bool) : Live (sent v es ps s) := h

/-- Answers given one after another to parts of some lengths are the answers to the whole. -/
theorem taken_parts (parts : List Nat) (ps : List Bool) :
    List.replicate parts.sum true ++ ps = parts.foldr (fun k rest => List.replicate k true ++ rest) ps := by
  induction parts with
  | nil => rfl
  | cons k parts ih => rw [List.sum_cons, List.replicate_add, List.append_assoc, ih, List.foldr_cons]

/-- The level at which a display opcode and its data bytes leave DC. -/
def dcAfter (p : Config.Params) (b : Byte) : Level := if displayData p b = [] then p.dcCmd else p.dcData

theorem microStep_dispOp {b : Byte} {i : Instr} (h : displayOpcodeMap b = some i) (s : State) :
    microStep (.dispOp b) s = .next (startDispOp b (displayData s.cfg b) s) := by
  simp only [microStep, runDispOp, decode_disp_iff.mpr h]
  exact exec_displayOpcode (encode_of_displayOpcodeMap h) s

/-- A display opcode that the sequencer fetches, with its data bytes (30_encoding.md R100). -/
theorem reaches_dispOp {b : Byte} {i : Instr} (hi : displayOpcodeMap b = some i) {s : State} {q : List Micro}
    {ps : List Bool} (h : Live s)
    (hp : s.env.panelIn = List.replicate ((displayData s.cfg b).length + 1) true ++ ps) :
    Reaches (setSeq (.dispOp b :: q) s) (setSeq q (sent (dcAfter s.cfg b) (opcodeEvents s.cfg b) ps s)) := by
  refine h.next (microStep_dispOp hi _) ((reaches_startDispOp (s := setSeq q s) h.1 h.2 hp).trans ?_)
  exact Reaches.of_eq (by simp only [sent, opcodeEvents, List.append_assoc]; rfl)

/-- A display opcode that has no data bytes. -/
theorem reaches_dispOp_bare {b : Byte} {i : Instr} (hi : displayOpcodeMap b = some i) {s : State} {q : List Micro}
    {ps : List Bool} (h : Live s) (hb : displayData s.cfg b = []) (hp : s.env.panelIn = true :: ps) :
    Reaches (setSeq (.dispOp b :: q) s) (setSeq q (sent s.cfg.dcCmd (dcmdEvents s.cfg b) ps s)) := by
  have hrun := reaches_dispOp (q := q) (ps := ps) hi h (by simp [hb, hp])
  rwa [dcAfter, opcodeEvents, if_pos hb, if_pos hb] at hrun

/-- How many bytes the panel takes from some opcodes with their data bytes. -/
def opcodesLength (p : Config.Params) (bs : List Byte) : Nat := (bs.map fun b => (displayData p b).length + 1).sum

/-- The state after the opcodes `bs`, the last of them `b`, the panel still to answer `ps`. -/
def opcodesSent (bs : List Byte) (b : Byte) (ps : List Bool) (s : State) : State :=
  { s with
    lines.dc := dcAfter s.cfg b
    lines.csD := s.cfg.csActive.not
    env.panelIn := ps
    obs.portD := bs.foldl (fun es x => opcodeEvents s.cfg x ++ es) s.obs.portD }

theorem Live.opcodesSent {s : State} (h : Live s) (bs : List Byte) (b : Byte) (ps : List Bool) :
    Live (opcodesSent bs b ps s) := h

theorem opcodesSent_sent (x : Byte) (bs : List Byte) (b : Byte) (ps ps' : List Bool) (s : State) :
    opcodesSent bs b ps' (sent (dcAfter s.cfg x) (opcodeEvents s.cfg x) ps s) = opcodesSent (x :: bs) b ps' s := rfl

/-- Display opcodes one after another. -/
theorem reaches_opcodes {bs : List Byte} {b : Byte} {s : State} {q : List Micro} {ps : List Bool} (h : Live s)
    (hb : ∀ x ∈ bs ++ [b], (displayOpcodeMap x).isSome = true)
    (hp : s.env.panelIn = List.replicate (opcodesLength s.cfg (bs ++ [b])) true ++ ps) :
    Reaches (setSeq ((bs ++ [b]).map .dispOp ++ q) s) (setSeq q (opcodesSent (bs ++ [b]) b ps s)) := by
  induction bs generalizing s with
  | nil =>
    obtain ⟨i, hi⟩ := Option.isSome_iff_exists.mp (hb b (by simp))
    exact reaches_dispOp hi h hp
  | cons x bs ih =>
    obtain ⟨hx, hb⟩ := List.forall_mem_cons.mp hb
    obtain ⟨i, hi⟩ := Option.isSome_iff_exists.mp hx
    rw [List.cons_append, opcodesLength, List.map_cons, List.sum_cons, List.replicate_add, List.append_assoc] at hp
    have hrest := ih (h.sent (dcAfter s.cfg x) (opcodeEvents s.cfg x)
      (List.replicate (opcodesLength s.cfg (bs ++ [b])) true ++ ps)) hb rfl
    rw [opcodesSent_sent] at hrest
    exact (reaches_dispOp hi h hp).trans hrest

/-! Data transactions. -/

/-- The state after one data transaction for each of the byte lists, the panel still to answer `ps`. -/
def dataSent (chunks : List (List Byte)) (ps : List Bool) (s : State) : State :=
  { s with
    lines.dc := if chunks = [] then s.lines.dc else s.cfg.dcData
    lines.csD := if chunks = [] then s.lines.csD else s.cfg.csActive.not
    env.panelIn := ps
    obs.portD := chunks.reverse.flatMap (ddataEvents s.cfg) ++ s.obs.portD }

theorem dataSent_nil {ps : List Bool} {s : State} (hp : s.env.panelIn = ps) : dataSent [] ps s = s := by
  subst hp
  rfl

/-- Data transactions one after another. -/
theorem dataSent_sent (c : List Byte) (chunks : List (List Byte)) (ps ps' : List Bool) (s : State) :
    dataSent chunks ps' (sent s.cfg.dcData (ddataEvents s.cfg c) ps s) = dataSent (c :: chunks) ps' s := by
  simp [dataSent, sent]

theorem reaches_dataSent {bs : List Byte} {n : Nat} {s : State} {q : List Micro} {ps : List Bool} (h : Live s)
    (hb : bs ≠ []) (hn : bs.length = n) (hp : s.env.panelIn = List.replicate n true ++ ps) :
    Reaches (setSeq (.dispData bs :: q) s) (setSeq q (sent s.cfg.dcData (ddataEvents s.cfg bs) ps s)) :=
  reaches_dispData (s := setSeq (.dispData bs :: q) s) hb h.1 h.2 rfl (hn ▸ hp)

/-- A plane's first chunk, and those of what it leaves (42_chunk_sequencer.md R207). -/
theorem chunkSizes_of_pos {l : Nat} (h : 1 ≤ l) : chunkSizes l = min chunkMax l :: chunkSizes (l - chunkMax) := by
  rw [chunkMax]
  rcases Nat.lt_or_ge l 512 with hl | hl
  · rw [chunkSizes, Nat.div_eq_of_lt hl, Nat.mod_eq_of_lt hl, if_neg (by omega), Nat.sub_eq_zero_of_le hl.le,
      Nat.min_eq_right hl.le]
    rfl
  · obtain ⟨k, rfl⟩ := Nat.exists_eq_add_of_le' hl
    rw [chunkSizes, chunkSizes, Nat.add_div_right _ (by decide), Nat.add_mod_right, List.replicate_succ,
      List.cons_append, Nat.add_sub_cancel, Nat.min_eq_left hl]

theorem chunkSizes_eq_nil_iff {l : Nat} : chunkSizes l = [] ↔ l = 0 := by
  refine ⟨fun h => ?_, fun h => h ▸ rfl⟩
  by_contra hl
  simp [chunkSizes_of_pos (Nat.pos_of_ne_zero hl)] at h

/-- The red plane's chunks, all zeros (R245). -/
def zeroChunks (n : Nat) : List (List Byte) := (chunkSizes n).map (List.replicate · 0x00#8)

theorem zeroChunks_of_pos {n : Nat} (h : 1 ≤ n) :
    zeroChunks n = List.replicate (min chunkMax n) 0x00#8 :: zeroChunks (n - chunkMax) := by
  rw [zeroChunks, chunkSizes_of_pos h, List.map_cons]
  rfl

theorem flatMap_zeroChunks (p : Config.Params) (n : Nat) :
    (zeroChunks n).reverse.flatMap (ddataEvents p) =
      (chunkSizes n).reverse.flatMap (fun k => ddataEvents p (List.replicate k 0x00#8)) := by
  rw [zeroChunks, ← List.map_reverse, List.flatMap_map]

/-- `RedFill()` with n zero bytes to send, by its recursion: a chunk, and what it leaves. -/
theorem reaches_redFill {n : Nat} {s : State} {q : List Micro} {ps : List Bool} (h : Live s)
    (hp : s.env.panelIn = List.replicate n true ++ ps) :
    Reaches (setSeq (.redFill n :: q) s) (setSeq q (dataSent (zeroChunks n) ps s)) := by
  induction n using Nat.strong_induction_on generalizing s with
  | _ n ih =>
    by_cases hn : n = 0
    · subst hn
      exact h.next rfl (Reaches.of_eq (congrArg (setSeq q) (dataSent_nil hp).symm))
    · have hpos : 1 ≤ n := Nat.pos_of_ne_zero hn
      have hchunk : List.replicate (min chunkMax n) 0x00#8 ≠ [] := by simp [chunkMax, hn]
      have hsplit : n = min chunkMax n + (n - chunkMax) := by omega
      have hless : n - chunkMax < n := Nat.sub_lt hpos (by decide)
      have hstep : microStep (.redFill n) (setSeq q s) = .next
          (setSeq (.dispData (List.replicate (min chunkMax n) 0x00#8) :: .redFill (n - chunkMax) :: q) s) :=
        congrArg Host.Outcome.next (if_neg hn)
      rw [hsplit, List.replicate_add, List.append_assoc] at hp
      rw [zeroChunks_of_pos hpos]
      generalize n - chunkMax = rest at hp hless hstep ⊢
      refine h.next hstep ((reaches_dataSent h hchunk List.length_replicate hp).trans ?_)
      rw [← dataSent_sent _ _ (List.replicate rest true ++ ps)]
      exact ih rest hless (h.sent _ _ _) rfl

/-! The busy-wait. -/

/-- The samples before `ready` are busy, `ready` is not, and the loop stays within POLL_LIMIT (R222, R223). -/
def WaitEnds (p : Config.Params) (busy : List Config.BusySample) (ready : Config.BusySample) : Prop :=
  (∀ v ∈ busy, busyNow p.busyActive v = true) ∧ busyNow p.busyActive ready = false ∧
    aboveLimit p.pollLimit (busy.length + 1) = false

/-- The state after a busy-wait, the samples `vs` still to come. -/
def waited (busy : List Config.BusySample) (ready : Config.BusySample) (ps : List Bool) (vs : List Config.BusySample)
    (s : State) : State :=
  sent s.cfg.dcCmd (waitEvents s.cfg busy ready) ps { s with ctl.poll.bsy := none, env.busyIn := vs }

theorem Live.waited {s : State} (h : Live s) (busy : List Config.BusySample) (ready : Config.BusySample)
    (ps : List Bool) (vs : List Config.BusySample) : Live (waited busy ready ps vs s) := h

theorem reaches_waited {busy : List Config.BusySample} {ready : Config.BusySample} {s : State} {q : List Micro}
    {ps : List Bool} {vs : List Config.BusySample} (h : Live s) (hw : WaitEnds s.cfg busy ready)
    (hp : s.env.panelIn = List.replicate (busy.length + 1) true ++ ps) (hv : s.env.busyIn = busy ++ ready :: vs) :
    Reaches (setSeq (waitIdle ++ q) s) (setSeq q (waited busy ready ps vs s)) := by
  obtain ⟨hbusy, hready, hlim⟩ := hw
  have hrun := reaches_waitIdle (s := setSeq (waitIdle ++ q) s) hbusy hready h.1 h.2 rfl hp hv hlim
  exact hrun.trans (Reaches.of_eq rfl)

/-! Line drives, holds, and the reset pulse. -/

theorem Live.drive {s : State} (h : Live s) (l : OutLine) (v : Level) : Live (doDrive l v s) := by cases l <;> exact h

theorem Live.hold {s : State} (h : Live s) (k : HoldKind) : Live (doHold k s) := h

theorem reaches_drive {l : OutLine} {v : Level} {s : State} {q : List Micro} (h : Live s) :
    Reaches (setSeq (.drive l v :: q) s) (setSeq q (doDrive l v s)) :=
  h.next rfl (Reaches.of_eq (by cases l <;> rfl))

theorem reaches_hold {k : HoldKind} {s : State} {q : List Micro} (h : Live s) :
    Reaches (setSeq (.hold k :: q) s) (setSeq q (doHold k s)) :=
  h.next rfl (Reaches.refl _)

/-- The state after the reset pulse: RST inactive again. -/
def pulsed (s : State) : State :=
  { s with
    lines.rst := s.cfg.rstActive.not
    obs.portD := .hold .tRst :: .drive .rst s.cfg.rstActive.not :: .hold .tRst :: .drive .rst s.cfg.rstActive ::
      s.obs.portD }

theorem Live.pulsed {s : State} (h : Live s) : Live (pulsed s) := h

theorem reaches_resetPulse {s : State} {q : List Micro} (h : Live s) :
    Reaches (setSeq (resetPulse s.cfg ++ q) s) (setSeq q (pulsed s)) := by
  refine (reaches_drive h).trans ((reaches_hold (h.drive _ _)).trans ?_)
  exact (reaches_drive ((h.drive _ _).hold _)).trans (reaches_hold (((h.drive _ _).hold _).drive _ _))

/-! `Shutdown()`. -/

/-- The state after the two line drives that end `Shutdown()`, electrically Low. -/
def linesLow (s : State) : State :=
  { s with lines.rst := .low, lines.dc := .low, obs.portD := .drive .dc .low :: .drive .rst .low :: s.obs.portD }

theorem Live.linesLow {s : State} (h : Live s) : Live (linesLow s) := h

theorem reaches_linesLow {s : State} {q : List Micro} (h : Live s) :
    Reaches (setSeq (.drive .rst .low :: .drive .dc .low :: q) s) (setSeq q (linesLow s)) :=
  (reaches_drive h).trans (reaches_drive (h.drive _ _))

/-- Without a fault there is nothing to deassert where `Shutdown()` goes on after its bus steps, and nothing to
return. -/
theorem microStep_shutEnd_clean {s : State} (h : s.ctl.shutErr = none) : microStep .shutEnd s = .next s :=
  congrArg Host.Outcome.next (if_neg fun ⟨herr, _⟩ => herr h)

theorem microStep_shutRet_clean {s : State} (h : s.ctl.shutErr = none) : microStep .shutRet s = .next s := by
  have hkept : { s with ctl.shutErr := none } = s := by rw [← h]
  simp only [microStep, stepShutRet, h, hkept, ite_self]

/-- The state after a `Shutdown()` that met no fault. -/
def poweredDown (busy : List Config.BusySample) (ready : Config.BusySample) (ps : List Bool)
    (vs : List Config.BusySample) (s : State) : State :=
  { s with
    regs.dispReady := false
    lines.csD := s.cfg.csActive.not
    lines.rst := .low
    lines.dc := .low
    ctl.poll.bsy := none
    ctl.shutErr := none
    env.panelIn := ps
    env.busyIn := vs
    obs.portD := shutdownEvents s.cfg busy ready ++ s.obs.portD }

/-- `Shutdown()`, run by DISP_SHUTDOWN or by a halt: power-off, the busy-wait, deep sleep, the lines Low (R226). -/
theorem reaches_shutdown {busy : List Config.BusySample} {ready : Config.BusySample} {s : State} {q : List Micro}
    {ps : List Bool} {vs : List Config.BusySample} (h : Live s) (hw : WaitEnds s.cfg busy ready)
    (hp : s.env.panelIn = List.replicate (busy.length + 4) true ++ ps) (hv : s.env.busyIn = busy ++ ready :: vs) :
    Reaches (setSeq (shutdown ++ q) s) (setSeq q (poweredDown busy ready ps vs s)) := by
  rw [show busy.length + 4 = [1, busy.length + 1, 2].sum by simp only [List.sum_cons, List.sum_nil]; omega,
    taken_parts] at hp
  have hbegun : Live (stepShutBegin s) := h
  refine h.next (m := .shutBegin) rfl ?_
  refine Reaches.trans (reaches_dispOp_bare (b := 0x02#8) rfl hbegun rfl hp) ?_
  refine Reaches.trans (reaches_waited (hbegun.sent _ _ _) hw rfl hv) ?_
  refine Reaches.trans (reaches_dispOp (b := 0x07#8) rfl ((hbegun.sent _ _ _).waited _ _ _ _) rfl) ?_
  refine Live.next (((hbegun.sent _ _ _).waited _ _ _ _).sent _ _ _) (microStep_shutEnd_clean rfl) ?_
  refine Reaches.trans (reaches_linesLow (((hbegun.sent _ _ _).waited _ _ _ _).sent _ _ _)) ?_
  refine Live.next (((hbegun.sent _ _ _).waited _ _ _ _).sent _ _ _).linesLow (microStep_shutRet_clean rfl)
    (Reaches.of_eq ?_)
  simp only [poweredDown, shutdownEvents, List.append_assoc, List.cons_append]
  rfl

end Sys2Proof.Machine
end

section
/-! Settles the statements about the busy decision, DISP_INIT, DISP_CMD, DISP_DATA, DISP_WAIT_IDLE and DISP_SHUTDOWN, and
about the red-plane filler. -/

namespace Sys2Proof.Machine

/-- Settles O22: the table of R223, line by line. -/
theorem busyDecision : Obligations.BusyDecision :=
  ⟨fun _ => rfl, rfl, rfl, rfl, rfl⟩

/-- Settles O27: the filler's run (`reaches_redFill`), which sends at least one chunk. -/
theorem redFillSendsZeroPlane : Obligations.RedFillSendsZeroPlane := by
  intro s n q ps hs hn hp
  have hne : zeroChunks n ≠ [] := by simp [zeroChunks_of_pos hn]
  have hrun := reaches_redFill (q := q) hs.live hp
  rw [dataSent, if_neg hne, if_neg hne, flatMap_zeroChunks] at hrun
  exact (Reaches.of_eq hs.setSeq_eq.symm).trans hrun

/-- Settles O24: the byte goes out as it is, whether or not it is an opcode. -/
theorem dispCmdCompletes : Obligations.DispCmdCompletes := by
  intro s ps hs hu hready harg hp
  refine completes_of_run hs rfl hready (decide_eq_true harg) hs hu rfl ?_
  refine Reaches.next (m := .dispCmd (dispCmdOpcode s)) ⟨hu, rfl, rfl⟩ rfl ?_
  exact reaches_startDCmd (s := setSeq [] (issued 0x21#8 false s)) hu rfl hp

/-- Settles O25: the bytes are those that the transaction of BUF's first LEN bytes sends (`reaches_dispBuf_draws`). -/
theorem dispDataCompletes : Obligations.DispDataCompletes := by
  intro s ps hs hu hready hpos hmax hp
  obtain ⟨data, hlen, hagree, hrun⟩ := reaches_dispBuf_draws (Nat.ne_of_gt hpos) hmax (q := [])
    (s := setSeq [.dispBuf s.regs.len.toNat] (issued 0x22#8 false s)) hu rfl rfl hp
  exact ⟨data, hlen, hagree, completes_of_run hs rfl hready (by simp [lenOk, hpos, hmax]) hs hu rfl hrun⟩

/-- Settles O26: the operation is one busy-wait (`reaches_waited`). -/
theorem dispWaitIdleCompletes : Obligations.DispWaitIdleCompletes := by
  intro s busy ready ps vs hs hu hon hbusy hready hlim hp hv
  refine completes_of_run hs rfl hon rfl hs hu rfl ?_
  exact reaches_waited (s := issued 0x23#8 false s) ⟨hu, rfl⟩ ⟨hbusy, hready, hlim⟩ hp hv

/-- Settles O29: the operation is one `Shutdown()` (`reaches_shutdown`), issued rather than run by a halt. -/
theorem dispShutdownCompletes : Obligations.DispShutdownCompletes := by
  intro s busy ready ps vs hs hu hon hbusy hready hlim hp hv
  refine completes_of_run hs rfl hon rfl hs hu rfl ?_
  exact reaches_shutdown (s := issued 0x25#8 false s) ⟨hu, rfl⟩ ⟨hbusy, hready, hlim⟩ hp hv

/-- Settles O23: the reset pulse, the eight steps of INIT_SEQ in their order, and DISP_READY. -/
theorem dispInitCompletes : Obligations.DispInitCompletes := by
  intro s busy ready ps vs hs hu hoff hseq hbusy hready hlim hp hv
  have hw : WaitEnds s.cfg busy ready := ⟨hbusy, hready, hlim⟩
  have hsteps : dispInitSteps s.cfg = resetPulse s.cfg ++ (([0x01#8] ++ [0x04#8]).map .dispOp ++ (waitIdle ++
      (([0x00#8, 0x61#8, 0x15#8, 0x50#8] ++ [0x60#8]).map .dispOp ++ [.setDispReady]))) := by
    rw [dispInitSteps, hseq]
    rfl
  have hcount : s.cfg.pPwr.length + s.cfg.pPsr.length + s.cfg.pTres.length + s.cfg.pDuspi.length +
      s.cfg.pCdi.length + s.cfg.pTcon.length + busy.length + 8 =
      [opcodesLength s.cfg ([0x01#8] ++ [0x04#8]), busy.length + 1,
        opcodesLength s.cfg ([0x00#8, 0x61#8, 0x15#8, 0x50#8] ++ [0x60#8])].sum := by
    simp [opcodesLength, displayData]
    omega
  rw [hcount, taken_parts] at hp
  refine completes_of_run hs rfl (by simp [preDispOff, hoff]) rfl hs hu rfl ?_
  rw [hsteps]
  have hlive : Live (issued 0x20#8 false s) := ⟨hu, rfl⟩
  refine Reaches.trans (reaches_resetPulse hlive) ?_
  refine Reaches.trans (reaches_opcodes hlive.pulsed (by decide) hp) ?_
  refine Reaches.trans (reaches_waited (hlive.pulsed.opcodesSent _ _ _) hw rfl hv) ?_
  refine Reaches.trans (reaches_opcodes ((hlive.pulsed.opcodesSent _ _ _).waited _ _ _ _) (by decide) rfl) ?_
  refine Live.next (((hlive.pulsed.opcodesSent _ _ _).waited _ _ _ _).opcodesSent _ _ _) rfl (Reaches.of_eq ?_)
  simp only [List.append_assoc, List.cons_append]
  rfl

end Sys2Proof.Machine
end

section
/-! Settles the statement about a fault of DISP_SHUTDOWN: where `Shutdown()` catches it, what it drives, and the halt that
follows with no display to power down (43_display.md R226, R246, 60_exceptions.md R276). -/

namespace Sys2Proof.Machine

/-! The selects. -/

theorem Level.eq_not_of_ne : ∀ {a b : Level}, a ≠ b → a = b.not
  | .low, .high, _ => rfl
  | .high, .low, _ => rfl
  | .low, .low, h => absurd rfl h
  | .high, .high, h => absurd rfl h

theorem Level.not_ne (l : Level) : l.not ≠ l := by cases l <;> decide

/-- The level of a port's select line. -/
def Port.level (p : Port) (s : State) : Level :=
  match p with
  | .S => s.lines.csS
  | .D => s.lines.csD

/-- The state with the port deselected where its select was asserted. -/
def released (p : Port) (s : State) : State :=
  match p with
  | .S =>
    { s with
      lines.csS := s.cfg.csActive.not
      obs.portS := (if s.lines.csS = s.cfg.csActive then [.deselect] else []) ++ s.obs.portS }
  | .D =>
    { s with
      lines.csD := s.cfg.csActive.not
      obs.portD := (if s.lines.csD = s.cfg.csActive then [.deselect] else []) ++ s.obs.portD }

theorem released_of_asserted {p : Port} {s : State} (h : p.level s = s.cfg.csActive) :
    released p s = doDeselect p s := by
  cases p with
  | S => rw [released, if_pos (show s.lines.csS = s.cfg.csActive from h)]; rfl
  | D => rw [released, if_pos (show s.lines.csD = s.cfg.csActive from h)]; rfl

theorem released_of_deasserted {p : Port} {s : State} (h : p.level s ≠ s.cfg.csActive) : released p s = s := by
  cases p with
  | S => rw [released, if_neg (show s.lines.csS ≠ s.cfg.csActive from h), ← Level.eq_not_of_ne h]; rfl
  | D => rw [released, if_neg (show s.lines.csD ≠ s.cfg.csActive from h), ← Level.eq_not_of_ne h]; rfl

theorem released_deselected {p : Port} {s : State} (h : p.level s = s.cfg.csActive.not) : released p s = s :=
  released_of_deasserted fun h' => Level.not_ne _ (h.symm.trans h')

/-- A deselect that is made only where the select is asserted. -/
def releaseSteps (p : Port) (s : State) : List Micro := if p.level s = s.cfg.csActive then [.deselect p] else []

theorem reaches_release {p : Port} {s : State} {q : List Micro} (h : Live s) :
    Reaches (setSeq (releaseSteps p s ++ q) s) (setSeq q (released p s)) := by
  by_cases hp : p.level s = s.cfg.csActive
  · rw [releaseSteps, if_pos hp, released_of_asserted hp]
    exact h.next rfl (Reaches.of_eq (by cases p <;> rfl))
  · rw [releaseSteps, if_neg hp, released_of_deasserted hp]
    exact Reaches.refl _

theorem Live.released {s : State} (h : Live s) (p : Port) : Live (released p s) := by cases p <;> exact h

/-! The fault inside `Shutdown()`. -/

/-- The state in which `Shutdown()` has caught the fault c. -/
def caught (c : FaultCode) (s : State) : State := { s with ctl.shutErr := some c, ctl.poll.bsy := none }

/-- A fault of the bus steps is caught at the return point that follows them. -/
theorem raise_caught (c : FaultCode) {s : State} {q r : List Micro} (hq : Micro.shutEnd ∉ q)
    (hseq : s.ctl.seq = q ++ .shutEnd :: r) : raise c s = setSeq (.shutEnd :: r) (caught c s) := by
  have hcatch : catchPoint s.ctl.seq = some (.shutEnd :: r) := by rw [hseq, catchPoint_append hq, catchPoint]
  simp only [raise, hcatch]
  rfl

theorem raise_uncaught (c : FaultCode) {s : State} (h : s.ctl.seq = []) : raise c s = halt c s := by
  simp only [raise, h, catchPoint]

theorem microStep_shutEnd_caught {s : State} (h : s.ctl.shutErr ≠ none) :
    microStep .shutEnd s = .next (released .D s) := by
  refine congrArg Host.Outcome.next ?_
  by_cases hd : Port.level .D s = s.cfg.csActive
  · rw [released_of_asserted hd]
    exact if_pos ⟨h, hd⟩
  · rw [released_of_deasserted hd]
    exact if_neg fun ⟨_, h'⟩ => hd h'

/-- Outside a halt the caught fault is raised where `Shutdown()` returns. -/
theorem microStep_shutRet_raises {c : FaultCode} {s : State} (htear : s.ctl.tearing = false)
    (h : s.ctl.shutErr = some c) : microStep .shutRet s = .next (raise c { s with ctl.shutErr := none }) := by
  simp only [microStep, stepShutRet, htear, h, Bool.false_eq_true, if_false]

theorem Live.caught {s : State} (h : Live s) (c : FaultCode) : Live (caught c s) := h

/-- A fault of `Shutdown()`'s bus steps leads to its return with CS_D deasserted and the lines Low (R226). -/
theorem reaches_shutRet_of_raise (c : FaultCode) {s : State} {q r : List Micro} (h : Live s) (hq : Micro.shutEnd ∉ q)
    (hseq : s.ctl.seq = q ++ .shutEnd :: (shutdownTail ++ r)) :
    Reaches (raise c s) (setSeq (.shutRet :: r) (linesLow (released .D (caught c s)))) := by
  rw [raise_caught c hq hseq]
  refine (h.caught c).next (t := setSeq (shutdownTail ++ r) (released .D (caught c s)))
    (microStep_shutEnd_caught nofun) ?_
  exact reaches_linesLow ((h.caught c).released .D)

/-! The halt. -/

/-- With DISP_READY = 0 the halt deasserts the selects and sends nothing (R276). -/
theorem reaches_halt_dispOff (c : FaultCode) {s : State} (h : Live s) (hoff : s.regs.dispReady = false) :
    Reaches (halt c s) (finishHalt (released .D (released .S (halt c s)))) := by
  have hlive : Live (halt c s) := h
  have hsteps : setSeq (releaseSteps .S (halt c s) ++ (releaseSteps .D (released .S (halt c s)) ++ [.haltEnd]))
      (halt c s) = halt c s := by
    rw [halt, teardown, hoff, List.append_assoc, List.append_assoc]
    rfl
  refine Reaches.trans (Reaches.of_eq hsteps.symm) ((reaches_release hlive).trans ?_)
  refine (reaches_release (hlive.released .S)).trans ?_
  exact ((hlive.released .S).released .D).next rfl (Reaches.refl _)

/-- Settles O40: the fault is caught and the lines are driven Low (`reaches_shutRet_of_raise`), then it is raised, and the
halt (`reaches_halt_dispOff`) finds CS_D deasserted. -/
theorem shutdownFaultRaisedAfterLinesLow : Obligations.ShutdownFaultRaisedAfterLinesLow := by
  intro c s q hu hr htear hoff hq hseq
  have hlive : Live s := ⟨hu, hr⟩
  refine Reaches.trans (reaches_shutRet_of_raise (r := []) c hlive hq hseq) ?_
  refine Live.next ((hlive.caught c).released .D).linesLow (microStep_shutRet_raises htear rfl) ?_
  rw [raise_uncaught c rfl]
  refine Reaches.trans (reaches_halt_dispOff c hlive hoff) (Reaches.of_eq ?_)
  refine (congrArg finishHalt (released_deselected (p := .D) rfl)).trans ?_
  dsimp only
  rw [htear]
  rfl

end Sys2Proof.Machine
end

section
/-! SUPPORT. The loop that passes the card's chunks to the panel, by induction on the chunks (43_display.md R244). -/

namespace Sys2Proof.Machine

/-! One chunk. -/

theorem microStep_refreshTest_ended {s : State} (h : s.regs.chunkLen = 0#10) : microStep .refreshTest s = .next s :=
  congrArg Host.Outcome.next (if_pos h)

/-- A chunk's length fits CHUNK_LEN, and is not 0. -/
theorem microStep_refreshTest_chunk {n : Nat} {s : State} (h : s.regs.chunkLen = BitVec.ofNat 10 n) (hpos : 1 ≤ n)
    (hmax : n ≤ 512) : microStep .refreshTest s = .next (push [.dispBuf n, .refreshLoop] s) := by
  have hn : s.regs.chunkLen.toNat = n := by
    rw [h, BitVec.toNat_ofNat]
    exact Nat.mod_eq_of_lt (by omega)
  have hne : s.regs.chunkLen ≠ 0#10 := fun h0 => by simp [h0] at hn; omega
  simp only [microStep, stepRefreshTest, if_neg hne, hn]

/-- BUF's first bytes sent, all of them stored by the data phase just before. -/
theorem reaches_dispBuf_stored {bs : List Byte} {m : Memory} {n : Nat} {s : State} {q : List Micro} {ps : List Bool}
    (h : Live s) (hpos : 1 ≤ n) (hmax : n ≤ 512) (hlen : bs.length = n) (hbuf : s.buf = storeBytes m 0 bs)
    (hp : s.env.panelIn = List.replicate n true ++ ps) :
    Reaches (setSeq (.dispBuf n :: q) s) (setSeq q (sent s.cfg.dcData (ddataEvents s.cfg bs) ps s)) := by
  have hne : bs ≠ [] := List.length_pos_iff.mp (hlen ▸ hpos)
  have hread : ∀ k (h : k < bs.length), s.buf.read k = some bs[k] := fun k h => by
    simpa [hbuf] using storeBytes_read m 0 bs k h
  exact reaches_dispBuf (s := setSeq (.dispBuf n :: q) s) hne hlen hmax hread h.1 h.2 rfl (hlen.symm ▸ hp)

/-- The state with the next chunk pulled as `ph` has it, the card still to answer `cs`. -/
def chunkPulled (ph : Phase) (cs : List (Option Byte)) (s : State) : State :=
  stepSetChunkLen (nextChunk s.regs) (filled ph cs (advanced s))

theorem Live.chunkPulled {s : State} (h : Live s) (ph : Phase) (cs : List (Option Byte)) : Live (chunkPulled ph cs s) :=
  h

/-- The state with that chunk passed to the panel, which is still to answer `ps`. -/
def chunkPassed (ph : Phase) (cs : List (Option Byte)) (ps : List Bool) (s : State) : State :=
  sent s.cfg.dcData (ddataEvents s.cfg ph.data) ps (chunkPulled ph cs s)

theorem Live.chunkPassed {s : State} (h : Live s) (ph : Phase) (cs : List (Option Byte)) (ps : List Bool) :
    Live (chunkPassed ph cs ps s) := h

theorem reaches_refreshLoop {s : State} {q : List Micro} (h : Live s) :
    Reaches (setSeq (.refreshLoop :: q) s) (setSeq (.itPull :: .refreshTest :: q) s) := h.next rfl (Reaches.refl _)

/-- An iteration below ITER_END: the pull, and the chunk's data transaction. -/
theorem reaches_chunkPassed {ph : Phase} {s : State} {q : List Micro} {cs : List (Option Byte)} {ps : List Bool}
    (h : Live s) (hlt : s.regs.iterCur < s.regs.iterEnd) (hph : ph.fits s.cfg (nextChunk s.regs) = true)
    (hc : s.env.cardIn = ph.answers ++ cs) (hp : s.env.panelIn = List.replicate (nextChunk s.regs) true ++ ps) :
    Reaches (setSeq (.refreshLoop :: q) s) (setSeq (.refreshLoop :: q) (chunkPassed ph cs ps s)) := by
  have hpos := nextChunk_pos hlt
  have hmax := nextChunk_le_max s.regs
  obtain ⟨-, hlen, -⟩ := Phase.fits_iff.mp hph
  have hpull : Reaches (setSeq (.itPull :: .refreshTest :: q) s) (setSeq (.refreshTest :: q) (chunkPulled ph cs s)) :=
    (reaches_pullChunk (h.atSteps [.itPull] (.refreshTest :: q)) hlt hph hc).trans (Reaches.of_eq rfl)
  have htest : microStep .refreshTest (setSeq q (chunkPulled ph cs s)) =
      .next (setSeq (.dispBuf (nextChunk s.regs) :: .refreshLoop :: q) (chunkPulled ph cs s)) :=
    microStep_refreshTest_chunk rfl hpos hmax
  have hsend : Reaches (setSeq (.dispBuf (nextChunk s.regs) :: .refreshLoop :: q) (chunkPulled ph cs s))
      (setSeq (.refreshLoop :: q) (chunkPassed ph cs ps s)) :=
    reaches_dispBuf_stored (h.chunkPulled ph cs) hpos hmax hlen rfl hp
  exact (reaches_refreshLoop h).trans (hpull.trans ((h.chunkPulled ph cs).next htest hsend))

/-! The loop. -/

/-- The bytes of the sequence's plane that no chunk has brought yet. -/
def remaining (s : State) : Nat := s.regs.iterEnd.toNat - s.regs.iterCur.toNat

/-- The state with a sequence's last chunks passed to the panel as `phases` has them, up to ITER_END, and the sequence
ended by the CMD12 that `stop` answers. -/
def streamed (phases : List Phase) (stop : CardTx) (cs : List (Option Byte)) (ps : List Bool) (s : State) : State :=
  { s with
    regs.lastR1 := stop.r
    regs.owner := .none
    regs.iterCur := s.regs.iterEnd
    regs.iterEnded := true
    regs.chunkLen := 0#10
    buf := phases.foldl (fun m ph => storeBytes m 0 ph.data) s.buf
    lines.csS := s.cfg.csActive.not
    lines.csD := if phases = [] then s.lines.csD else s.cfg.csActive.not
    lines.dc := if phases = [] then s.lines.dc else s.cfg.dcData
    ctl.poll.r1 := none
    ctl.poll.tok := if phases = [] then s.ctl.poll.tok else none
    env.cardIn := cs
    env.panelIn := ps
    obs.portS := txEvents s.cfg.fillRd (frameWord 12#6 s.cfg.arg12 s.cfg.chk12) stop.fill stop.r ++
      (phases.reverse.flatMap (Phase.events s.cfg.fillRd) ++ s.obs.portS)
    obs.portD := phases.reverse.flatMap (fun ph => ddataEvents s.cfg ph.data) ++ s.obs.portD }

theorem streamed_nil {stop : CardTx} {cs : List (Option Byte)} {ps : List Bool} {s : State}
    (hend : s.regs.iterCur = s.regs.iterEnd) (hp : s.env.panelIn = ps) :
    streamed [] stop cs ps s = stepPullEnd (readEnded stop cs s) := by
  subst hp
  rw [streamed, ← hend, ← Transcript.events_single]
  rfl

theorem streamed_chunkPassed (ph : Phase) (phases : List Phase) (stop : CardTx) (cs cs' : List (Option Byte))
    (ps ps' : List Bool) (s : State) :
    streamed phases stop cs' ps' (chunkPassed ph cs ps s) = streamed (ph :: phases) stop cs' ps' s := by
  simp [streamed, chunkPassed, chunkPulled, sent, filled, advanced, stepSetChunkLen]

theorem Live.streamed {s : State} (h : Live s) (phases : List Phase) (stop : CardTx) (cs : List (Option Byte))
    (ps : List Bool) : Live (streamed phases stop cs ps s) := h

/-- At ITER_END the pull ends the sequence, and the loop with it. -/
theorem reaches_streamEnd {stop : CardTx} {s : State} {q : List Micro} {cs : List (Option Byte)} {ps : List Bool}
    (h : Live s) (hend : s.regs.iterCur = s.regs.iterEnd) (hended : s.regs.iterEnded = false)
    (hstop : stop.fits s.cfg = true) (hc : s.env.cardIn = txAnswers stop.ws stop.fill stop.r stop.x ++ cs)
    (hp : s.env.panelIn = ps) :
    Reaches (setSeq (.refreshLoop :: q) s) (setSeq q (streamed [] stop cs ps s)) := by
  have hnot : ¬ s.regs.iterCur < s.regs.iterEnd := by simp [hend]
  have hlive : Live (stepPullEnd (readEnded stop cs s)) := h
  have hpull : Reaches (setSeq (.itPull :: .refreshTest :: q) s)
      (setSeq (.refreshTest :: q) (stepPullEnd (readEnded stop cs s))) :=
    (reaches_pullLast (h.atSteps [.itPull] (.refreshTest :: q)) hnot hended hstop hc).trans (Reaches.of_eq rfl)
  rw [streamed_nil hend hp]
  exact (reaches_refreshLoop h).trans
    (hpull.trans (hlive.next (microStep_refreshTest_ended rfl) (Reaches.refl _)))

/-- The chunk loop: every chunk of the plane, and its end. -/
theorem reaches_streamed {phases : List Phase} {stop : CardTx} {s : State} {q : List Micro} {cs : List (Option Byte)}
    {ps : List Bool} (h : Live s) (hle : s.regs.iterCur.toNat ≤ s.regs.iterEnd.toNat)
    (hended : s.regs.iterEnded = false)
    (hsizes : phases.map (fun ph => ph.data.length) = chunkSizes (remaining s))
    (hphases : ∀ ph ∈ phases, ph.fits s.cfg ph.data.length = true) (hstop : stop.fits s.cfg = true)
    (hc : s.env.cardIn = phases.flatMap Phase.answers ++ (txAnswers stop.ws stop.fill stop.r stop.x ++ cs))
    (hp : s.env.panelIn = List.replicate (remaining s) true ++ ps) :
    Reaches (setSeq (.refreshLoop :: q) s) (setSeq q (streamed phases stop cs ps s)) := by
  induction phases generalizing s with
  | nil =>
    have hzero : remaining s = 0 := chunkSizes_eq_nil_iff.mp hsizes.symm
    have hend : s.regs.iterCur = s.regs.iterEnd := BitVec.eq_of_toNat_eq (by rw [remaining] at hzero; omega)
    exact reaches_streamEnd h hend hended hstop hc (by rwa [hzero] at hp)
  | cons ph phases ih =>
    obtain ⟨hph, hphases⟩ := List.forall_mem_cons.mp hphases
    have hpos : 1 ≤ remaining s := by
      by_contra h
      rw [show remaining s = 0 by omega] at hsizes
      cases hsizes
    have hlt : s.regs.iterCur < s.regs.iterEnd := by
      rw [BitVec.lt_def]
      rw [remaining] at hpos
      omega
    rw [chunkSizes_of_pos hpos, List.map_cons, List.cons.injEq] at hsizes
    obtain ⟨hlen, hsizes⟩ := hsizes
    rw [show ph.data.length = nextChunk s.regs from hlen] at hph
    have hadvance := advanced_iterCur_toNat hlt
    have hbound : (advanced s).regs.iterCur.toNat ≤ s.regs.iterEnd.toNat := by
      rw [hadvance, nextChunk, ← remaining]
      rw [remaining] at hpos ⊢
      omega
    have hrest : remaining (advanced s) = remaining s - chunkMax := by
      rw [remaining, hadvance, remaining, nextChunk]
      simp only [advanced]
      omega
    have hsplit : remaining s = nextChunk s.regs + remaining (advanced s) := by
      rw [hrest, nextChunk, ← remaining]
      omega
    rw [hsplit, List.replicate_add, List.append_assoc] at hp
    rw [List.flatMap_cons, List.append_assoc] at hc
    rw [← streamed_chunkPassed ph phases stop (phases.flatMap Phase.answers ++
      (txAnswers stop.ws stop.fill stop.r stop.x ++ cs)) cs (List.replicate (remaining (advanced s)) true ++ ps) ps s]
    refine Reaches.trans (reaches_chunkPassed h hlt hph hc hp) ?_
    exact ih (h.chunkPassed _ _ _) hbound hended (hsizes.trans (congrArg chunkSizes hrest.symm)) hphases hstop rfl rfl

end Sys2Proof.Machine
end

section
/-! Settles the statement about DISP_REFRESH: the black plane, the red one, and the refresh (43_display.md R244). -/

namespace Sys2Proof.Machine

/-! The black plane. -/

/-- The plane at ARG lies inside 32 bits, the card accepts the stream's beginning and answers its end, and `phases` are
the plane's chunks. -/
structure StreamFits (s : State) (start stop : CardTx) (phases : List Phase) : Prop where
  inside : s.regs.arg.toNat + s.cfg.planeLen ≤ 0xFFFFFFFF
  start_fits : start.fits s.cfg = true
  start_accepted : start.r = 0x00#8
  stop_fits : stop.fits s.cfg = true
  sizes : phases.map (fun ph => ph.data.length) = chunkSizes s.cfg.planeLen
  phases_fit : ∀ ph ∈ phases, ph.fits s.cfg ph.data.length = true

/-- The state with the stream opened at ARG (R201), the card still to answer `cs`. -/
def opened (start : CardTx) (cs : List (Option Byte)) (s : State) : State :=
  stepItBegin s.regs.arg .refresh (answered [(frameWord 18#6 s.regs.arg s.cfg.chk18, start)] 0x00#8 cs s)

theorem Live.opened {s : State} (h : Live s) (start : CardTx) (cs : List (Option Byte)) : Live (opened start cs s) := h

theorem opened_iterEnd {start : CardTx} {cs : List (Option Byte)} {s : State}
    (h : s.regs.arg.toNat + s.cfg.planeLen ≤ 0xFFFFFFFF) :
    (opened start cs s).regs.iterEnd.toNat = s.regs.arg.toNat + s.cfg.planeLen :=
  (BitVec.toNat_ofNat _ _).trans (Nat.mod_eq_of_lt (show s.regs.arg.toNat + s.cfg.planeLen < 2 ^ 32 by omega))

theorem remaining_opened {start : CardTx} {cs : List (Option Byte)} {s : State}
    (h : s.regs.arg.toNat + s.cfg.planeLen ≤ 0xFFFFFFFF) : remaining (opened start cs s) = s.cfg.planeLen := by
  rw [remaining, opened_iterEnd h]
  exact Nat.add_sub_cancel_left _ _

theorem reaches_opened {start : CardTx} {s : State} {q : List Micro} {cs : List (Option Byte)} (h : Live s)
    (hstart : start.fits s.cfg = true) (hstart0 : start.r = 0x00#8)
    (hc : s.env.cardIn = txAnswers start.ws start.fill start.r start.x ++ cs) :
    Reaches (setSeq (itStart s.cfg s.regs.arg .refresh ++ q) s) (setSeq q (opened start cs s)) := by
  have hat := h.atSteps (itStart s.cfg s.regs.arg .refresh) q
  exact (reaches_itStart hat hstart hstart0 hc).trans (Reaches.of_eq rfl)

/-- The state with the plane passed to the panel's black-plane RAM and the sequence dropped. -/
def blackSent (start stop : CardTx) (phases : List Phase) (cs : List (Option Byte)) (ps : List Bool) (s : State) :
    State :=
  { s with
    regs.lastR1 := stop.r
    regs.owner := .none
    regs.iterCur := BitVec.ofNat 32 (s.regs.arg.toNat + s.cfg.planeLen)
    regs.iterEnd := BitVec.ofNat 32 (s.regs.arg.toNat + s.cfg.planeLen)
    regs.iterActive := false
    regs.iterEnded := false
    regs.chunkLen := 0#10
    buf := phases.foldl (fun m ph => storeBytes m 0 ph.data) s.buf
    lines.csS := s.cfg.csActive.not
    lines.csD := s.cfg.csActive.not
    lines.dc := if phases = [] then s.cfg.dcCmd else s.cfg.dcData
    ctl.poll.r1 := none
    ctl.poll.tok := if phases = [] then s.ctl.poll.tok else none
    env.cardIn := cs
    env.panelIn := ps
    obs.portS := txEvents s.cfg.fillRd (frameWord 12#6 s.cfg.arg12 s.cfg.chk12) stop.fill stop.r ++
      (phases.reverse.flatMap (Phase.events s.cfg.fillRd) ++
        (txEvents s.cfg.fillRd (frameWord 18#6 s.regs.arg s.cfg.chk18) start.fill start.r ++ s.obs.portS))
    obs.portD := phases.reverse.flatMap (fun ph => ddataEvents s.cfg ph.data) ++
      (dcmdEvents s.cfg 0x10#8 ++ s.obs.portD) }

theorem Live.blackSent {s : State} (h : Live s) (start stop : CardTx) (phases : List Phase) (cs : List (Option Byte))
    (ps : List Bool) : Live (blackSent start stop phases cs ps s) := h

theorem clearIter_streamed_opened (start stop : CardTx) (phases : List Phase) (cs cs' : List (Option Byte))
    (ps ps' : List Bool) (s : State) :
    clearIter (streamed phases stop cs ps (sent s.cfg.dcCmd (dcmdEvents s.cfg 0x10#8) ps' (opened start cs' s))) =
      blackSent start stop phases cs ps s := by
  simp only [clearIter, streamed, sent, opened, stepItBegin, answered, blackSent, Transcript.events_single, ite_self]

/-- The stream is opened, the opcode sent, every chunk passed on, and the exhausted sequence dropped. -/
theorem reaches_blackSent {start stop : CardTx} {phases : List Phase} {s : State} {q : List Micro}
    {cs : List (Option Byte)} {ps : List Bool} (h : Live s) (hfits : StreamFits s start stop phases)
    (hc : s.env.cardIn = txAnswers start.ws start.fill start.r start.x ++
      (phases.flatMap Phase.answers ++ (txAnswers stop.ws stop.fill stop.r stop.x ++ cs)))
    (hp : s.env.panelIn = true :: (List.replicate s.cfg.planeLen true ++ ps)) :
    Reaches (setSeq (itStart s.cfg s.regs.arg .refresh ++ .dispOp 0x10#8 :: .refreshLoop :: .itDrop :: q) s)
      (setSeq q (blackSent start stop phases cs ps s)) := by
  obtain ⟨hinside, hstart, hstart0, hstop, hsizes, hphases⟩ := hfits
  let ps' : List Bool := List.replicate s.cfg.planeLen true ++ ps
  let cs' : List (Option Byte) := phases.flatMap Phase.answers ++ (txAnswers stop.ws stop.fill stop.r stop.x ++ cs)
  let s' : State := sent s.cfg.dcCmd (dcmdEvents s.cfg 0x10#8) ps' (opened start cs' s)
  have hlive : Live s' := (h.opened start cs').sent _ _ _
  have hremaining : remaining s' = s.cfg.planeLen := remaining_opened (start := start) (cs := cs') hinside
  have hle : s'.regs.iterCur.toNat ≤ s'.regs.iterEnd.toNat :=
    (Nat.le_add_right _ _).trans_eq (opened_iterEnd (start := start) (cs := cs') hinside).symm
  have hopen := reaches_opened (q := .dispOp 0x10#8 :: .refreshLoop :: .itDrop :: q) (cs := cs') h hstart hstart0 hc
  have hcommand : Reaches (setSeq (.dispOp 0x10#8 :: .refreshLoop :: .itDrop :: q) (opened start cs' s))
      (setSeq (.refreshLoop :: .itDrop :: q) s') := reaches_dispOp_bare rfl (h.opened start cs') rfl hp
  have hstream : Reaches (setSeq (.refreshLoop :: .itDrop :: q) s')
      (setSeq (.itDrop :: q) (streamed phases stop cs ps s')) :=
    reaches_streamed hlive hle rfl (hsizes.trans (congrArg chunkSizes hremaining.symm)) hphases hstop rfl
      (show ps' = List.replicate (remaining s') true ++ ps by rw [hremaining])
  have hdrop : Reaches (setSeq (.itDrop :: q) (streamed phases stop cs ps s'))
      (setSeq q (clearIter (streamed phases stop cs ps s'))) :=
    reaches_dropClears ((hlive.streamed phases stop cs ps).atSteps [.itDrop] q) (.inr rfl)
  rw [clearIter_streamed_opened] at hdrop
  exact hopen.trans (hcommand.trans (hstream.trans hdrop))

/-! The red plane, and the refresh. -/

/-- The state with the red-plane RAM filled with zeros. -/
def redSent (ps : List Bool) (s : State) : State :=
  dataSent (zeroChunks s.cfg.planeLen) ps (sent s.cfg.dcCmd (dcmdEvents s.cfg 0x13#8) ps s)

theorem Live.dataSent {s : State} (h : Live s) (chunks : List (List Byte)) (ps : List Bool) :
    Live (dataSent chunks ps s) := h

theorem Live.redSent {s : State} (h : Live s) (ps : List Bool) : Live (redSent ps s) :=
  (h.sent _ _ _).dataSent _ _

theorem reaches_redSent {n : Nat} {s : State} {q : List Micro} {ps : List Bool} (h : Live s) (hn : s.cfg.planeLen = n)
    (hp : s.env.panelIn = true :: (List.replicate n true ++ ps)) :
    Reaches (setSeq (.dispOp 0x13#8 :: .redFill n :: q) s) (setSeq q (redSent ps s)) := by
  subst hn
  exact (reaches_dispOp_bare rfl h rfl hp).trans (reaches_redFill (h.sent _ _ _) rfl)

/-- The state after the trigger, the hold and the busy-wait. -/
def refreshed (busy : List Config.BusySample) (ready : Config.BusySample) (ps : List Bool) (vs : List Config.BusySample)
    (s : State) : State :=
  waited busy ready ps vs (doHold .tRefresh (sent s.cfg.dcCmd (dcmdEvents s.cfg 0x12#8) ps s))

theorem reaches_refreshed {busy : List Config.BusySample} {ready : Config.BusySample} {s : State} {q : List Micro}
    {ps : List Bool} {vs : List Config.BusySample} (h : Live s) (hw : WaitEnds s.cfg busy ready)
    (hp : s.env.panelIn = true :: (List.replicate (busy.length + 1) true ++ ps))
    (hv : s.env.busyIn = busy ++ ready :: vs) :
    Reaches (setSeq (.dispOp 0x12#8 :: .hold .tRefresh :: (waitIdle ++ q)) s)
      (setSeq q (refreshed busy ready ps vs s)) := by
  refine (reaches_dispOp_bare rfl h rfl hp).trans ((reaches_hold (h.sent _ _ _)).trans ?_)
  exact reaches_waited ((h.sent _ _ _).hold _) hw rfl hv

/-! The operation. -/

theorem dispRefreshSteps_eq (s : State) :
    dispRefreshSteps s = itStart s.cfg s.regs.arg .refresh ++ .dispOp 0x10#8 :: .refreshLoop :: .itDrop ::
      .dispOp 0x13#8 :: .redFill s.cfg.planeLen :: .dispOp 0x12#8 :: .hold .tRefresh :: (waitIdle ++ []) := by
  have hfirst : BitVec.ofNat 32 (planeStart false s) = s.regs.arg := by simp [planeStart]
  rw [dispRefreshSteps, hfirst]
  rfl

/-- What DISP_REFRESH runs: its three parts, each from where the one before it leads. -/
theorem reaches_dispRefresh {start stop : CardTx} {phases : List Phase} {busy : List Config.BusySample}
    {ready : Config.BusySample} {s : State} {cs : List (Option Byte)} {ps red refresh : List Bool}
    {vs : List Config.BusySample} (h : Live s) (hfits : StreamFits s start stop phases)
    (hw : WaitEnds s.cfg busy ready)
    (hc : s.env.cardIn = txAnswers start.ws start.fill start.r start.x ++
      (phases.flatMap Phase.answers ++ (txAnswers stop.ws stop.fill stop.r stop.x ++ cs)))
    (hp : s.env.panelIn = true :: (List.replicate s.cfg.planeLen true ++ red))
    (hred : red = true :: (List.replicate s.cfg.planeLen true ++ refresh))
    (hrefresh : refresh = true :: (List.replicate (busy.length + 1) true ++ ps))
    (hv : s.env.busyIn = busy ++ ready :: vs) :
    Reaches (setSeq (dispRefreshSteps s) s)
      (setSeq [] (refreshed busy ready ps vs (redSent refresh (blackSent start stop phases cs red s)))) := by
  rw [dispRefreshSteps_eq]
  have hblack := h.blackSent start stop phases cs red
  exact (reaches_blackSent h hfits hc hp).trans ((reaches_redSent hblack rfl hred).trans
    (reaches_refreshed (hblack.redSent refresh) hw hrefresh hv))

/-- Settles O28: the operation's run (`reaches_dispRefresh`), whose end is the statement's state. -/
theorem dispRefreshCompletes : Obligations.DispRefreshCompletes := by
  intro s start stop phases busy ready cs ps vs hs hu hon hsd howner hplane hstart hstart0 hstop hsizes hphases hbusy
    hready hlim hc hp hv last
  have hnil : phases = [] ↔ s.cfg.planeLen = 0 := by rw [← chunkSizes_eq_nil_iff, ← hsizes, List.map_eq_nil_iff]
  have hcount : s.cfg.planeLen + s.cfg.planeLen + busy.length + 4 =
      [1, s.cfg.planeLen, 1, s.cfg.planeLen, 1, busy.length + 1].sum := by
    simp only [List.sum_cons, List.sum_nil]
    omega
  rw [hcount, taken_parts] at hp
  have hpre : preRefresh s = true := by simp [preRefresh, preStreamFree, hon, hsd, howner]
  have hoperands : planeOk false s = true := by simpa [planeOk, planeStart] using hplane
  have hrun := reaches_dispRefresh (s := issued 0x24#8 false s) ⟨hu, rfl⟩
    ⟨hplane, hstart, hstart0, hstop, hsizes, hphases⟩ ⟨hbusy, hready, hlim⟩ hc hp rfl rfl hv
  refine completes_of_run hs rfl hpre hoperands hs hu rfl (hrun.trans (Reaches.of_eq ?_))
  simp only [refreshed, redSent, waited, doHold, emitD, dataSent, sent, blackSent, setSeq, issued, flatMap_zeroChunks,
    hnil, howner, List.append_assoc, List.cons_append]
  rfl

end Sys2Proof.Machine
end

section
/-! Settles the statements about taking a fault and about the halt sequence: with no display to power down, with one,
and with a fault inside its power-down (60_exceptions.md R271, R273, R275, R276, R279). -/

namespace Sys2Proof.Machine

/-! Taking a fault. -/

theorem catchPoint_eq_none {q : List Micro} (h : Micro.shutEnd ∉ q) : catchPoint q = none := by
  simpa [catchPoint] using catchPoint_append h []

/-- Where no return point of `Shutdown()` is still to run, a fault halts. -/
theorem raise_eq_halt (c : FaultCode) {s : State} (h : catchPoint s.ctl.seq = none) : raise c s = halt c s := by
  simp only [raise, h]

/-- Settles O36: the codes are the model's table, and with no return point to catch it (`catchPoint_eq_none`) the fault
is `halt`, whose update is the state written out. -/
theorem faultEntersHalt : Obligations.FaultEntersHalt := by
  refine ⟨rfl, fun c s hnotShut => ?_⟩
  rw [raise_eq_halt c (catchPoint_eq_none hnotShut)]
  rfl

/-! The halt sequence. -/

/-- Settles O37: the run of a halt with no display (`reaches_halt_dispOff`), whose end is the statement's state. -/
theorem haltWithoutDisplay : Obligations.HaltWithoutDisplay := by
  intro c s hu hr hoff
  exact (reaches_halt_dispOff c ⟨hu, hr⟩ hoff).trans (Reaches.of_eq rfl)

/-- With DISP_READY = 1 the halt deasserts the selects and then runs `Shutdown()` (R276). -/
theorem reaches_halt_dispOn (c : FaultCode) {busy : List Config.BusySample} {ready : Config.BusySample} {s : State}
    {ps : List Bool} {vs : List Config.BusySample} (h : Live s) (hon : s.regs.dispReady = true)
    (hw : WaitEnds s.cfg busy ready) (hp : s.env.panelIn = List.replicate (busy.length + 4) true ++ ps)
    (hv : s.env.busyIn = busy ++ ready :: vs) :
    Reaches (halt c s) (finishHalt (poweredDown busy ready ps vs (released .D (released .S (halt c s))))) := by
  have hlive : Live (halt c s) := h
  have hreleased : Live (released .D (released .S (halt c s))) := (hlive.released .S).released .D
  have hsteps : setSeq (releaseSteps .S (halt c s) ++ (releaseSteps .D (released .S (halt c s)) ++
      (shutdown ++ [.haltEnd]))) (halt c s) = halt c s := by
    rw [halt, teardown, hon, List.append_assoc, List.append_assoc]
    rfl
  refine Reaches.trans (Reaches.of_eq hsteps.symm) ((reaches_release hlive).trans ?_)
  refine (reaches_release (hlive.released .S)).trans ((reaches_shutdown hreleased hw hp hv).trans ?_)
  exact Live.next (s := poweredDown busy ready ps vs _) hreleased rfl (Reaches.refl _)

/-- Settles O38: the run of a halt with a display (`reaches_halt_dispOn`), whose end is the statement's state. -/
theorem haltPowersPanelDown : Obligations.HaltPowersPanelDown := by
  intro c s busy ready ps vs hu hr hon hbusy hready hlim hp hv
  exact (reaches_halt_dispOn c ⟨hu, hr⟩ hon ⟨hbusy, hready, hlim⟩ hp hv).trans (Reaches.of_eq rfl)

/-- In a halt the caught fault is discarded where `Shutdown()` returns (R279). -/
theorem microStep_shutRet_tearing {s : State} (h : s.ctl.tearing = true) :
    microStep .shutRet s = .next { s with ctl.shutErr := none } := congrArg Host.Outcome.next (if_pos h)

/-- Settles O39: the fault is caught and the lines are driven Low (`reaches_shutRet_of_raise`), then it is discarded and
the halt ends. -/
theorem teardownFaultIsCaught : Obligations.TeardownFaultIsCaught := by
  intro c s q hu hr htear hq hseq
  have hlive : Live s := ⟨hu, hr⟩
  have hlow : Live (linesLow (released .D (caught c s))) := ((hlive.caught c).released .D).linesLow
  refine Reaches.trans (reaches_shutRet_of_raise (r := [.haltEnd]) c hlive hq hseq) ?_
  refine hlow.next (microStep_shutRet_tearing htear) ?_
  exact Reaches.next (m := .haltEnd) ⟨hlow.1, hlow.2, rfl⟩ rfl (Reaches.of_eq rfl)

end Sys2Proof.Machine
end

section
/-! Settles the statement that only a host access can stop a step: within its bounds every micro-step answers a next
state (60_exceptions.md R275, R276, 30_encoding.md R97). -/

namespace Sys2Proof.Machine

/-! What an iteration and a transfer answer. -/

theorem poll_answers {l : Loop} {k : State → Result} (hk : ∀ t, ∃ u, k t = .next u) (s : State) :
    ∃ u, poll l k s = .next u := by
  obtain ⟨n, -, h | ⟨-, h⟩⟩ := poll_cases l k s <;> rw [h]
  · exact hk _
  · exact ⟨_, rfl⟩

theorem spiXfer_answers {o : Byte} {k : Byte → State → Result} (hk : ∀ i t, ∃ u, k i t = .next u) (s : State) :
    ∃ u, spiXfer o k s = .next u := by
  obtain ⟨e, -, ⟨i, h⟩ | h⟩ := spiXfer_cases o k s <;> rw [h]
  · exact hk _ _
  · exact ⟨_, rfl⟩

/-- A poll answers where the token it looks for does. -/
theorem pollToken_answers {l : Loop} {wire : Byte → Wire} {o : Byte} {again : Micro}
    (hexec : ∀ v i, decode (wire v) = .ok i → ∀ t, ∃ u, exec i t = .next u) (s : State) :
    ∃ u, pollToken l o wire again s = .next u := by
  refine poll_answers (spiXfer_answers fun v t => ?_) s
  cases h : decode (wire v) with
  | ok i => exact runToken_ok h again t ▸ hexec v i h t
  | error e => exact ⟨_, runToken_error h again t⟩

/-! The micro-steps that fetch an instruction. -/

/-- A frame within its bounds is one of the seven commands, and is sent (R97). -/
theorem microStep_frame_bounded {w : BitVec 48} {p : Config.Params} (h : (Micro.frame w).bounded p = true) (s : State) :
    microStep (.frame w) s = .next (startFrame w s) := by
  cases hw : decode (.frame w) with
  | error e => simp [Micro.bounded, hw] at h
  | ok i =>
    obtain ⟨hstart, hmap⟩ := decode_frame_fields hw
    rw [← frameWord_fields hstart]
    exact microStep_frame hmap s

theorem displayData_of_unknown {b : Byte} (h : displayOpcodeMap b = none) (p : Config.Params) :
    displayData p b = [] := by
  unfold displayData
  split_ifs with h0 h1 h2 h3 h4 h5 h6
  case neg => rfl
  all_goals
    subst b
    cases h

/-- A display opcode is sent with its data bytes; an opcode beyond the thirteen has none (R100, log 18). -/
theorem microStep_dispOp_any (b : Byte) (s : State) :
    microStep (.dispOp b) s = .next (startDispOp b (displayData s.cfg b) s) := by
  cases h : displayOpcodeMap b with
  | some i => exact microStep_dispOp h s
  | none => simp [microStep, runDispOp, decode, h, displayData_of_unknown h, startDispOp]

/-! Every micro-step. -/

/-- A micro-step within its bounds answers a next state. -/
theorem microStep_answers {m : Micro} {s : State} (h : m.bounded s.cfg = true) : ∃ t, microStep m s = .next t := by
  cases m with
  | frame w => exact ⟨_, microStep_frame_bounded h s⟩
  | dispOp b => exact ⟨_, microStep_dispOp_any b s⟩
  | r1Poll =>
    refine pollToken_answers (fun v i hv t => ?_) s
    obtain ⟨-, rfl⟩ := decode_r1_iff.mp hv
    exact ⟨_, rfl⟩
  | tokenPoll =>
    refine pollToken_answers (fun v i hv t => ?_) s
    obtain ⟨-, rfl⟩ := decode_token_iff.mp hv
    exact ⟨_, rfl⟩
  | cmd0Loop => exact poll_answers (fun _ => ⟨_, rfl⟩) s
  | a41Loop => exact poll_answers (fun _ => ⟨_, rfl⟩) s
  | busyLoop => exact poll_answers (fun _ => ⟨_, rfl⟩) s
  | trailer => exact spiXfer_answers (k := fun _ t => .next t) (fun _ t => ⟨t, rfl⟩) s
  | payload i n =>
    rcases Nat.lt_or_ge i n with hi | hi
    · rw [microStep, stepPayload_transfers hi (of_decide_eq_true h)]
      exact spiXfer_answers (fun _ _ => ⟨_, rfl⟩) s
    · exact ⟨s, if_pos hi⟩
  | sendBuf i n =>
    rcases Nat.lt_or_ge i n with hi | hi
    · obtain ⟨v, -, hsend⟩ := stepSendBuf_sends hi (of_decide_eq_true h) s
      exact ⟨_, hsend⟩
    · exact ⟨s, if_pos hi⟩
  | _ => exact ⟨_, rfl⟩

theorem engineStep_answers {s : State} (h : StepsBounded s) : ∃ t, engineStep s = .next t := by
  obtain ⟨hbounded, -⟩ := h
  cases hr : s.regs.running with
  | false => exact ⟨s, engineStep_idle hr⟩
  | true =>
    cases hq : s.ctl.seq with
    | nil => exact ⟨_, engineStep_complete hr hq⟩
    | cons m q =>
      rw [engineStep_micro hr hq]
      exact microStep_answers (s := setSeq q s) (hbounded m (by simp [hq]))

/-- Settles O59: an engine turn is a completion or a micro-step, which answers within its bounds (`microStep_answers`);
a wait is an engine turn or is over, and a reset answers always. -/
theorem engineNeverStops : Obligations.EngineNeverStops := by
  intro s hs hread hwrite
  cases hq : s.env.sched with
  | nil => exact step_undisturbed hq ▸ engineStep_answers hs
  | cons turn q =>
    cases turn with
    | engine => exact step_engine hq ▸ engineStep_answers (s := setSched q s) hs
    | wait =>
      cases hr : s.regs.running with
      | true => exact step_wait_running hq hr ▸ engineStep_answers hs
      | false => exact ⟨_, step_wait_idle hq hr⟩
    | read offset size => exact absurd (by rw [hq]; rfl) (hread offset size)
    | write offset size v => exact absurd (by rw [hq]; rfl) (hwrite offset size v)
    | reset => exact ⟨resetEngine (setSched q s), by simp [step, takeTurn, hq]⟩

end Sys2Proof.Machine
end

section
/-! Settles the statement about validation at issue: the order of the checks, and what each one that fails raises
(60_exceptions.md R272, R274, 40_transport.md R120). -/

namespace Sys2Proof.Machine

/-! The operation word. -/

/-- Every legal opcode is in the opcode map (R92). -/
theorem opcodeMap_of_legalOpc {opc : Byte} (h : legalOpc opc = true) (p : Bool) : ∃ i, opcodeMap opc p = some i := by
  have hlisted : ∀ opc : Byte, legalOpc opc = true → (opcodeMap opc p).isSome = true := by
    cases p <;> decide
  exact Option.isSome_iff_exists.mp (hlisted opc h)

theorem decode_op_legal {w : Word} (h : legalOpc (opcField w) = true) (hres : resField w = 0#23)
    (hplane : planeField w = true → opcField w = 0x10#8) : ∃ i, decode (.op w) = .ok i := by
  obtain ⟨i, hi⟩ := opcodeMap_of_legalOpc h (planeField w)
  exact ⟨i, opWord_fields hres ▸ decode_opWord hi hplane⟩

theorem decode_op_reserved {w : Word} (h : legalOpc (opcField w) = true)
    (hres : resField w ≠ 0#23 ∨ (planeField w = true ∧ opcField w ≠ 0x10#8)) :
    decode (.op w) = .error .reservedBits := by
  obtain ⟨i, hi⟩ := opcodeMap_of_legalOpc h (planeField w)
  simp only [decode, decodeOp, hi, if_pos hres]

/-! The checks. -/

theorem preSdInit_eq_stateCheck (s : State) : preSdInit s = stateCheck .sdInit s := by simp [preSdInit, stateCheck]

theorem preDispOff_eq_stateCheck (s : State) : preDispOff s = stateCheck .dispInit s := by simp [preDispOff, stateCheck]

theorem preRefresh_eq_stateCheck (s : State) : preRefresh s = stateCheck .dispRefresh s := by
  simp [preRefresh, preStreamFree, stateCheck, Bool.and_assoc]

/-- Running an operation is its issue with its state precondition and its operand check (R272). -/
theorem exec_operation {opc : Byte} {p : Bool} {i : Instr} (h : opcodeMap opc p = some i)
    (hp : p = true → opc = 0x10#8) (s : State) :
    ∃ prog, exec i s = .next (issue opc p (stateCheck i s) (operandCheck i s) prog s) := by
  cases p with
  | true =>
    obtain rfl := hp rfl
    cases h
    exact ⟨_, rfl⟩
  | false =>
    unfold opcodeMap at h
    split at h <;> cases h
    -- SD_INIT, DISP_INIT and DISP_REFRESH write their preconditions otherwise than `stateCheck` does.
    case h_1 => exact preSdInit_eq_stateCheck s ▸ ⟨_, rfl⟩
    case h_9 => exact preDispOff_eq_stateCheck s ▸ ⟨_, rfl⟩
    case h_13 => exact preRefresh_eq_stateCheck s ▸ ⟨_, rfl⟩
    all_goals exact ⟨_, rfl⟩

/-- On an idle engine the precondition is checked before the operands, and an operation that passes both is loaded
(R274). -/
theorem issue_idle {s : State} (h : Idle s) (opc : Byte) (p pre operands : Bool) (prog : List Micro) :
    issue opc p pre operands prog s =
      if pre = false then halt .sequence (issued opc p s)
      else if operands = false then halt .operand (issued opc p s)
      else setSeq prog (issued opc p s) := accept_idle h opc p _

/-- Settles O6: a word that does not decode halts with the fault of its encoding (`issueWord_error`), and one that does
is its operation's issue (`exec_operation`), which makes the two checks in their order (`issue_idle`). -/
theorem issueValidatesInOrder : Obligations.IssueValidatesInOrder := by
  intro s w turns hidle hq t
  rw [step_issue hq]
  have hidle' : Idle (setSched turns s) := hidle
  refine ⟨fun hillegal => issueWord_error hidle' (decode_op_illegal hillegal), decode_op_legal,
    fun hlegal hres => issueWord_error hidle' (decode_op_reserved hlegal hres), fun i hi => ?_⟩
  obtain ⟨-, hplane⟩ := decode_op_fields hi
  obtain ⟨prog, hexec⟩ := exec_operation (decode_op_host hi) hplane (setSched turns s)
  have hstate : stateCheck i (setSched turns s) = stateCheck i s := by cases i <;> rfl
  have hoperand : operandCheck i (setSched turns s) = operandCheck i s := by cases i <;> rfl
  rw [issueWord_ok hi, hexec, issue_idle hidle', hstate, hoperand]
  refine ⟨fun hs => ?sequence, fun hs ho => ?operand, fun hs ho => ⟨prog, ?loaded⟩⟩
  case sequence =>
    rw [if_pos hs]
    rfl
  case operand =>
    rw [if_neg (by simp [hs]), if_pos ho]
    rfl
  case loaded =>
    rw [if_neg (by simp [hs]), if_neg (by simp [ho])]
    rfl

end Sys2Proof.Machine
end

section
/-! Settles the statement about the five loops without a bound: one iteration that leads back to the loop, and any
number of them by induction on what the device answers (60_exceptions.md R287). -/

namespace Sys2Proof.Machine

theorem aboveLimit_unbounded {s : State} (h : s.cfg.pollLimit = none) (n : Nat) :
    aboveLimit s.cfg.pollLimit n = false := by rw [h]; rfl

theorem setPoll_self {l : Loop} {n : Option Nat} {s : State} (h : pollCount l s = n) : setPoll l n s = s := by
  subst h
  cases l <;> rfl

/-! The two polls on port S (R151, R154). -/

/-- The state of a poll that has received the bytes `junk` and taken none of them for its token, the card still to
answer `cs`. -/
def unanswered (l : Loop) (c : Nat) (junk : List Byte) (cs : List (Option Byte)) (s : State) : State :=
  setPoll l (some (c + junk.length))
    { s with
      env.cardIn := cs
      obs.portS := (junk.map (fun b => EventS.xfer s.cfg.fillRd (some b))).reverse ++ s.obs.portS }

theorem unanswered_cons (l : Loop) (c : Nat) (v : Byte) (junk : List Byte) (cs cs' : List (Option Byte)) (s : State) :
    unanswered l (c + 1) junk cs' (unanswered l c [v] cs s) = unanswered l c (v :: junk) cs' s := by
  have hcount : c + 1 + junk.length = c + (v :: junk).length := by rw [List.length_cons]; omega
  have hevents (e : EventS) (es os : List EventS) : es.reverse ++ e :: os = (e :: es).reverse ++ os := by simp
  cases l <;> simp only [unanswered, setPoll, hcount, List.map_cons, List.map_nil, List.reverse_singleton,
    List.cons_append, List.nil_append, hevents]

/-- An iteration that receives no token leads back to the poll, and so does any number of them. -/
theorem reaches_unanswered {l : Loop} {wire : Byte → Wire} {again : Micro}
    (hpoll : ∀ t, microStep again t = pollToken l t.cfg.fillRd wire again t) {junk : List Byte}
    (hjunk : ∀ b ∈ junk, ∃ e, decode (wire b) = .error e) {c : Nat} {s : State} {q : List Micro}
    {cs : List (Option Byte)} (h : Live s) (hfree : s.cfg.pollLimit = none) (hc : pollCount l s = some c)
    (hv : s.env.cardIn = junk.map some ++ cs) :
    Reaches (setSeq (again :: q) s) (setSeq (again :: q) (unanswered l c junk cs s)) := by
  induction junk generalizing c s with
  | nil =>
    subst hv
    exact Reaches.of_eq (congrArg (setSeq (again :: q)) (setPoll_self hc).symm)
  | cons v junk ih =>
    obtain ⟨⟨e, hnone⟩, hjunk⟩ := List.forall_mem_cons.mp hjunk
    have hstep : microStep again (setSeq q s) =
        .next (setSeq (again :: q) (unanswered l c [v] (junk.map some ++ cs) s)) := by
      rw [hpoll, pollToken_returned ((pollCount_setSeq l q s).trans hc) (aboveLimit_unbounded hfree _) hv,
        runToken_error hnone]
      cases l <;> rfl
    have hlive : Live (unanswered l c [v] (junk.map some ++ cs) s) := by cases l <;> exact h
    refine h.next hstep ?_
    rw [← unanswered_cons l c v junk (junk.map some ++ cs)]
    exact ih hjunk hlive (by cases l <;> exact hfree) (pollCount_setPoll l _ _) (by cases l <;> rfl)

/-! The busy-wait (R222). -/

/-- The state of a busy-wait after the busy samples `busy`, `vs` still to come, the panel still to answer `ps`. -/
def stillBusy (c : Nat) (busy : List Config.BusySample) (ps : List Bool) (vs : List Config.BusySample) (s : State) :
    State :=
  sent s.cfg.dcCmd (busy.reverse.flatMap (fun v => .hold .tPoll :: .busy v :: dcmdEvents s.cfg 0x71#8)) ps
    { s with ctl.poll.bsy := some (c + busy.length), env.busyIn := vs }

theorem stillBusy_cons (c : Nat) (v : Config.BusySample) (busy : List Config.BusySample) (ps ps' : List Bool)
    (vs vs' : List Config.BusySample) (s : State) :
    stillBusy (c + 1) busy ps' vs' (stillBusy c [v] ps vs s) = stillBusy c (v :: busy) ps' vs' s := by
  have hcount : c + 1 + busy.length = c + (v :: busy).length := by rw [List.length_cons]; omega
  simp only [stillBusy, sent, hcount, List.reverse_cons, List.flatMap_append, List.append_assoc, List.reverse_nil,
    List.nil_append]

theorem Live.stillBusy {s : State} (h : Live s) (c : Nat) (busy : List Config.BusySample) (ps : List Bool)
    (vs : List Config.BusySample) : Live (stillBusy c busy ps vs s) := h

theorem microStep_busySample_busy {v : Config.BusySample} {vs : List Config.BusySample} {s : State}
    (hv : s.env.busyIn = v :: vs) (hbusy : busyNow s.cfg.busyActive v = true) :
    microStep .busySample s = .next (push [.hold .tPoll, .busyLoop] (emitD (.busy v) { s with env.busyIn := vs })) := by
  simp only [microStep, stepBusySample, drawBusy_cons hv, hbusy, if_true]

/-- One iteration with the panel busy leads back to the loop. -/
theorem reaches_stillBusy_once {v : Config.BusySample} {c : Nat} {s : State} {q : List Micro} {ps : List Bool}
    {vs : List Config.BusySample} (h : Live s) (hfree : s.cfg.pollLimit = none) (hc : s.ctl.poll.bsy = some c)
    (hbusy : busyNow s.cfg.busyActive v = true) (hv : s.env.busyIn = v :: vs) (hp : s.env.panelIn = true :: ps) :
    Reaches (setSeq (.busyLoop :: q) s) (setSeq (.busyLoop :: q) (stillBusy c [v] ps vs s)) := by
  have hcounted : Live (setPoll .bsy (some (c + 1)) s) := h
  refine h.next ((microStep_busyLoop _).trans
    (poll_counted (l := .bsy) (s := setSeq q s) hc (aboveLimit_unbounded hfree _) _)) ?_
  refine Reaches.trans (reaches_dispOp_bare (b := 0x71#8) (q := .busySample :: q) rfl hcounted rfl hp) ?_
  refine (hcounted.sent _ _ _).next (microStep_busySample_busy hv hbusy) ?_
  exact Reaches.next (m := .hold .tPoll) ⟨h.1, h.2, rfl⟩ rfl (Reaches.refl _)

/-- The loop goes on for as long as the panel is busy. -/
theorem reaches_stillBusy {busy : List Config.BusySample} (hne : busy ≠ []) {c : Nat} {s : State} {q : List Micro}
    {ps : List Bool} {vs : List Config.BusySample} (h : Live s) (hfree : s.cfg.pollLimit = none)
    (hc : s.ctl.poll.bsy = some c) (hbusy : ∀ v ∈ busy, busyNow s.cfg.busyActive v = true)
    (hv : s.env.busyIn = busy ++ vs) (hp : s.env.panelIn = List.replicate busy.length true ++ ps) :
    Reaches (setSeq (.busyLoop :: q) s) (setSeq (.busyLoop :: q) (stillBusy c busy ps vs s)) := by
  induction busy generalizing c s with
  | nil => exact absurd rfl hne
  | cons v busy ih =>
    obtain ⟨hv1, hbusy⟩ := List.forall_mem_cons.mp hbusy
    have honce := reaches_stillBusy_once (q := q) h hfree hc hv1 hv hp
    by_cases hlast : busy = []
    · subst hlast
      exact honce
    · refine honce.trans ?_
      rw [← stillBusy_cons c v busy (List.replicate busy.length true ++ ps) ps (busy ++ vs) vs s]
      exact ih hlast (h.stillBusy _ _ _ _) hfree rfl hbusy rfl rfl

/-! The retry loops of SD_INIT (R156, R159). -/

/-- The CMD0 loop goes on for as long as the card answers otherwise than 0x01. -/
theorem reaches_cmd0Again {tries : List CardTx} {last : CardTx} {c : Nat} {s : State} {q : List Micro}
    {cs : List (Option Byte)} (h : Live s) (hfree : s.cfg.pollLimit = none) (hc : s.ctl.poll.cmd0 = some c)
    (htries : ∀ t ∈ tries ++ [last], t.fits s.cfg = true ∧ t.r ≠ 0x01#8)
    (hv : s.env.cardIn = Transcript.answers ((tries ++ [last]).map cmd0Try) ++ cs) :
    Reaches (setSeq (.cmd0Loop :: q) s)
      (setSeq (.cmd0Loop :: q)
        (answered ((tries ++ [last]).map cmd0Try) last.r cs (setPoll .cmd0 (some (c + (tries.length + 1))) s))) := by
  induction tries generalizing c s with
  | nil =>
    obtain ⟨⟨hfits, hagain⟩, -⟩ := List.forall_mem_cons.mp htries
    refine (reaches_cmd0Try (h.atSteps _ _) hc (aboveLimit_unbounded hfree _) hfits hv).trans ?_
    exact Reaches.next ⟨h.1, h.2, rfl⟩ (microStep_cmd0Test_again hagain) (Reaches.refl _)
  | cons t tries ih =>
    obtain ⟨⟨hfits, hagain⟩, htries⟩ := List.forall_mem_cons.mp htries
    have hcount : c + ((t :: tries).length + 1) = c + 1 + (tries.length + 1) := by rw [List.length_cons]; omega
    rw [List.cons_append, List.map_cons, Transcript.answers_cons, List.append_assoc] at hv
    rw [hcount, List.cons_append, List.map_cons, ← answered_cons (cmd0Try t) _ t.r]
    refine (reaches_cmd0Try (h.atSteps _ _) hc (aboveLimit_unbounded hfree _) hfits hv).trans ?_
    refine Reaches.next ⟨h.1, h.2, rfl⟩ (microStep_cmd0Test_again hagain) ?_
    exact ih (s := answered [cmd0Try t] t.r _ (setPoll .cmd0 (some (c + 1)) s)) h hfree rfl htries rfl

/-- The loop of CMD55 and CMD41 goes on for as long as CMD41 is answered otherwise than 0x00, the first one 0x01. -/
theorem reaches_cmd41Again {rounds : List (CardTx × CardTx)} {last : CardTx × CardTx} {c : Nat} {s : State}
    {q : List Micro} {cs : List (Option Byte)} (h : Live s) (hfree : s.cfg.pollLimit = none)
    (hc : s.ctl.poll.a41 = some c)
    (hrounds : ∀ t ∈ rounds ++ [last], t.1.fits s.cfg = true ∧ t.2.fits s.cfg = true ∧ t.2.r ≠ 0x00#8)
    (hfirst : s.ctl.first41 = true → ∀ t, (rounds ++ [last]).head? = some t → t.2.r = 0x01#8)
    (hv : s.env.cardIn = Transcript.answers ((rounds ++ [last]).flatMap (cmd41Round s.cfg)) ++ cs) :
    Reaches (setSeq (.a41Loop :: q) s)
      (setSeq (.a41Loop :: q)
        (answered ((rounds ++ [last]).flatMap (cmd41Round s.cfg)) last.2.r cs
          (setPoll .a41 (some (c + (rounds.length + 1))) { s with ctl.first41 := false }))) := by
  induction rounds generalizing c s with
  | nil =>
    obtain ⟨⟨hfits55, hfits41, hagain⟩, -⟩ := List.forall_mem_cons.mp hrounds
    have hv' : s.env.cardIn = Transcript.answers (cmd41Round s.cfg last) ++ cs := by simpa using hv
    refine Reaches.trans
      (reaches_cmd41Round (h.atSteps _ _) hc (aboveLimit_unbounded hfree _) hfits55 hfits41 hv') ?_
    refine Reaches.next ⟨h.1, h.2, rfl⟩ (microStep_cmd41Test_again hagain fun h => hfirst h last rfl) (Reaches.of_eq ?_)
    rw [List.nil_append, List.flatMap_singleton]
    rfl
  | cons t rounds ih =>
    obtain ⟨⟨hfits55, hfits41, hagain⟩, hrounds⟩ := List.forall_mem_cons.mp hrounds
    have hcount : c + ((t :: rounds).length + 1) = c + 1 + (rounds.length + 1) := by rw [List.length_cons]; omega
    rw [List.cons_append, List.flatMap_cons, Transcript.answers_append, List.append_assoc] at hv
    rw [hcount, List.cons_append, List.flatMap_cons, ← answered_answered (r := t.2.r) (cs := [])]
    refine Reaches.trans
      (reaches_cmd41Round (h.atSteps _ _) hc (aboveLimit_unbounded hfree _) hfits55 hfits41 hv) ?_
    refine Reaches.next ⟨h.1, h.2, rfl⟩ (microStep_cmd41Test_again hagain fun h => hfirst h t rfl) ?_
    exact ih (s := answered (cmd41Round s.cfg t) t.2.r _
      (setPoll .a41 (some (c + 1)) { s with ctl.first41 := false })) h hfree rfl hrounds nofun rfl

/-- A run that leads back to the micro-step it began with. -/
theorem AtSteps.reaches_again {m : Micro} {q : List Micro} {s u : State} (hs : AtSteps [m] q s)
    (hseq : u.ctl.seq = s.ctl.seq) (hrun : Reaches (setSeq (m :: q) s) (setSeq (m :: q) u)) : Reaches s u := by
  have hu : setSeq (m :: q) u = u := by
    rw [← show s.ctl.seq = m :: q from hs.2.2, ← hseq]
    rfl
  rw [hu] at hrun
  exact (Reaches.of_eq hs.setSeq_eq.symm).trans hrun

/-- Settles O33: each loop's iterations lead back to it (`reaches_unanswered`, `reaches_stillBusy`, `reaches_cmd0Again`,
`reaches_cmd41Again`), since without a bound none of them is past it. -/
theorem unboundedPollsGoOn : Obligations.UnboundedPollsGoOn := by
  intro s q c hfree
  refine ⟨?r1, ?token, ?busy, ?cmd0, ?cmd41⟩
  case r1 =>
    intro k cs hs hc hv
    have hfiller : ∀ b ∈ List.replicate k 0xFF#8, ∃ e, decode (.r1 b) = .error e := fun b hb =>
      ⟨.fillerByte, if_pos (List.eq_of_mem_replicate hb)⟩
    have hrun := reaches_unanswered (l := .r1) (again := .r1Poll) (fun _ => rfl) hfiller (q := q) hs.live hfree hc
      (by rwa [List.map_replicate])
    rw [unanswered, List.length_replicate, List.map_replicate, List.reverse_replicate] at hrun
    exact hs.reaches_again rfl hrun
  case token =>
    intro junk cs hs hc hjunk hv
    have hnone : ∀ b ∈ junk, ∃ e, decode (.token b) = .error e := fun b hb => ⟨.notStartToken, if_neg (hjunk b hb)⟩
    exact hs.reaches_again rfl
      (reaches_unanswered (l := .tok) (again := .tokenPoll) (fun _ => rfl) hnone hs.live hfree hc hv)
  case busy =>
    intro busy vs ps hs hc hne hbusy hv hp
    exact hs.reaches_again rfl (reaches_stillBusy hne hs.live hfree hc hbusy hv hp)
  case cmd0 =>
    intro tries last cs hs hc htries tr hv
    exact hs.reaches_again rfl (reaches_cmd0Again hs.live hfree hc htries hv)
  case cmd41 =>
    intro rounds last cs hs hc hrounds hfirst tr hv
    exact hs.reaches_again rfl (reaches_cmd41Again hs.live hfree hc hrounds hfirst hv)

end Sys2Proof.Machine
end

section
/-! SUPPORT. A bound on the micro-steps an engine with a finite POLL_LIMIT can still run: the iterations each loop may
still make and the bytes the chunk sequence may still pull, and from them the steps of each micro-step and of all it
begins (40_transport.md R133, 60_exceptions.md R288). -/

namespace Sys2Proof.Machine

/-! What is left to spend. -/

/-- The iterations each loop may still make, the bytes the chunk sequence may still pull, and whether CHUNK_LEN may hold
a chunk. -/
structure Budget where
  /-- The iterations the loop may still make before it is past POLL_LIMIT. -/
  polls : Loop → Nat
  /-- ITER_END - ITER_CUR. -/
  plane : Nat
  /-- CHUNK_LEN may not be 0. -/
  chunk : Bool

/-- POLL_LIMIT, where there is one. -/
def limit (p : Config.Params) : Nat := p.pollLimit.getD 0

/-- One past the last byte address of a word. -/
def wordSpan : Nat := 2 ^ 32

/-- No budget is larger. -/
def Budget.full (p : Config.Params) : Budget := ⟨fun _ => limit p, wordSpan, true⟩

/-- The budget with a loop's counter at 0 again, or discarded. -/
def Budget.refill (p : Config.Params) (l : Loop) (b : Budget) : Budget :=
  { b with polls := Function.update b.polls l (limit p) }

/-- The budget of a state: POLL_LIMIT less each counter, ITER_END less ITER_CUR. -/
def budget (s : State) : Budget where
  polls l := limit s.cfg - (pollCount l s).getD 0
  plane := s.regs.iterEnd.toNat - s.regs.iterCur.toNat
  chunk := s.regs.chunkLen != 0#10

/-- Nothing is larger in `b` than in `b'`. -/
structure Budget.Within (b b' : Budget) : Prop where
  polls : ∀ l, b.polls l ≤ b'.polls l
  plane : b.plane ≤ b'.plane
  chunk : b.chunk = true → b'.chunk = true

/-- The budget after a micro-step, and what it begins, has run. It is full at the return point of `Shutdown()`, where a
caught fault goes on whatever it has skipped. -/
def Budget.after (p : Config.Params) (b : Budget) : Micro → Budget
  | .enter l => b.refill p l
  | .r1Poll | .frame _ | .itDrop => b.refill p .r1
  | .tokenPoll | .dataPhase _ => b.refill p .tok
  | .cmd0Loop | .cmd0Test => (b.refill p .r1).refill p .cmd0
  | .a41Enter => b.refill p .a41
  | .a41Loop | .cmd41Test => (b.refill p .r1).refill p .a41
  | .busyLoop | .busySample => b.refill p .bsy
  | .itBegin _ _ => { b with plane := wordSpan }
  | .itPull => { (b.refill p .r1).refill p .tok with plane := b.plane - 1, chunk := decide (b.plane ≠ 0) }
  | .setChunkLen _ => { b with chunk := true }
  | .pullEnd => { b with chunk := false }
  | .refreshLoop | .refreshTest => { (b.refill p .r1).refill p .tok with chunk := true }
  | .shutEnd => .full p
  | .select _ | .deselect _ | .spiWrite _ _ | .sendBuf _ _ | .drive _ _ | .hold _ | .payload _ _ | .trailer | .cmd8Test
  | .setSdReady | .cmd17Test | .cmd18Test | .setOwner _ | .dropEnd | .dispOp _ | .dispCmd _ | .dispData _ | .dispBuf _
  | .setDispReady | .redFill _ | .shutBegin | .shutRet | .haltEnd => b

/-! What a micro-step costs. -/

/-- The steps of a card command, with an R1 poll that makes all its iterations. -/
def frameCost (p : Config.Params) : Nat := limit p + 16

/-- The steps of a data phase, with a start-token poll that makes all its iterations. -/
def phaseCost (p : Config.Params) (n : Nat) : Nat := limit p + n + 16

/-- The steps of a pull. -/
def pullCost (p : Config.Params) : Nat := frameCost p + phaseCost p 512 + 8

/-- The steps of one round of DISP_REFRESH's chunk loop: a pull, and one transaction of the chunk, whose length has 10
bits. -/
def roundCost (p : Config.Params) : Nat := pullCost p + 1056

/-- The steps of an iteration of the busy-wait. -/
def waitCost : Nat := 24

/-- A bound on the steps of a micro-step and of all it begins. -/
def Micro.cost (p : Config.Params) (b : Budget) : Micro → Nat
  | .spiWrite _ bs => bs.length + 1
  | .sendBuf i n | .payload i n => n - i + 1
  | .frame _ => frameCost p
  | .r1Poll => b.polls .r1 + 1
  | .tokenPoll => b.polls .tok + 1
  | .dataPhase n => phaseCost p n
  | .cmd0Loop => b.polls .cmd0 * (frameCost p + 4) + 1
  | .cmd0Test => b.polls .cmd0 * (frameCost p + 4) + 2
  | .a41Loop => b.polls .a41 * (frameCost p + frameCost p + 4) + 1
  | .cmd41Test => b.polls .a41 * (frameCost p + frameCost p + 4) + 2
  | .itPull => pullCost p
  | .itDrop => frameCost p + 8
  | .dispOp b => (displayData p b).length + 16
  | .dispCmd _ => 8
  | .dispData bs => bs.length + 8
  | .dispBuf n => n + 8
  | .busyLoop => b.polls .bsy * waitCost + 1
  | .busySample => b.polls .bsy * waitCost + 3
  | .refreshLoop => (b.plane + 1) * roundCost p
  | .refreshTest => if b.chunk then (b.plane + 1) * roundCost p + 1040 else 1
  | .redFill n => 10 * n + 1
  | .select _ | .deselect _ | .drive _ _ | .hold _ | .enter _ | .trailer | .cmd8Test | .a41Enter | .setSdReady
  | .cmd17Test | .cmd18Test | .setOwner _ | .itBegin _ _ | .setChunkLen _ | .pullEnd | .dropEnd | .setDispReady
  | .shutBegin | .shutEnd | .shutRet | .haltEnd => 1

/-- A bound on the steps of some micro-steps. -/
def cost (p : Config.Params) : Budget → List Micro → Nat
  | _, [] => 0
  | b, m :: q => m.cost p b + cost p (b.after p m) q

/-- The budget after some micro-steps. -/
def Budget.afterAll (p : Config.Params) (b : Budget) (q : List Micro) : Budget := q.foldl (Budget.after p) b

theorem cost_append (p : Config.Params) (b : Budget) (q r : List Micro) :
    cost p b (q ++ r) = cost p b q + cost p (b.afterAll p q) r := by
  induction q generalizing b with
  | nil => simp [cost, Budget.afterAll]
  | cons m q ih => simp only [List.cons_append, cost, ih, Budget.afterAll, List.foldl_cons, Nat.add_assoc]

theorem Micro.cost_refreshTest_of_chunk {b : Budget} (h : b.chunk = true) (p : Config.Params) :
    Micro.refreshTest.cost p b = (b.plane + 1) * roundCost p + 1040 := if_pos h

theorem Micro.cost_refreshTest_of_empty {b : Budget} (h : b.chunk = false) (p : Config.Params) :
    Micro.refreshTest.cost p b = 1 := if_neg (by simp [h])

theorem roundCost_pos (p : Config.Params) : 0 < roundCost p := Nat.succ_pos _

theorem Micro.cost_pos (m : Micro) (p : Config.Params) (b : Budget) : 0 < m.cost p b := by
  cases m
  case refreshLoop => exact Nat.mul_pos (Nat.succ_pos _) (roundCost_pos p)
  case refreshTest =>
    cases h : b.chunk with
    | false => exact Micro.cost_refreshTest_of_empty h p ▸ Nat.one_pos
    | true => exact Micro.cost_refreshTest_of_chunk h p ▸ Nat.succ_pos _
  all_goals exact Nat.succ_pos _

theorem Budget.Within.refl (b : Budget) : b.Within b := ⟨fun _ => le_rfl, le_rfl, id⟩

theorem Budget.Within.refill {b b' : Budget} (h : b.Within b') (p : Config.Params) (l : Loop) :
    (b.refill p l).Within (b'.refill p l) := by
  refine ⟨fun k => ?_, h.plane, h.chunk⟩
  by_cases hk : k = l
  · simp [Budget.refill, hk]
  · simpa [Budget.refill, hk] using h.polls k

/-- A larger budget is left larger. -/
theorem Budget.Within.after {b b' : Budget} (h : b.Within b') (p : Config.Params) (m : Micro) :
    (b.after p m).Within (b'.after p m) := by
  have hplane := h.plane
  cases m
  case enter l => exact h.refill p l
  case r1Poll | frame | itDrop => exact h.refill p _
  case tokenPoll | dataPhase => exact h.refill p _
  case a41Enter | busyLoop | busySample => exact h.refill p _
  case cmd0Loop | cmd0Test | a41Loop | cmd41Test => exact (h.refill p _).refill p _
  case itBegin => exact ⟨h.polls, le_rfl, h.chunk⟩
  case itPull =>
    refine ⟨((h.refill p .r1).refill p .tok).polls, Nat.sub_le_sub_right hplane 1, fun hchunk => ?_⟩
    have hleft : b.plane ≠ 0 := of_decide_eq_true hchunk
    exact decide_eq_true (show b'.plane ≠ 0 by omega)
  case setChunkLen => exact ⟨h.polls, hplane, fun _ => rfl⟩
  case pullEnd => exact ⟨h.polls, hplane, nofun⟩
  case refreshLoop | refreshTest => exact ⟨((h.refill p .r1).refill p .tok).polls, hplane, fun _ => rfl⟩
  case shutEnd => exact .refl _
  all_goals exact h

/-- With a larger budget a micro-step may cost more. -/
theorem Micro.cost_mono {b b' : Budget} (h : b.Within b') (p : Config.Params) (m : Micro) :
    m.cost p b ≤ m.cost p b' := by
  have hloop (l : Loop) (k c : Nat) : b.polls l * k + c ≤ b'.polls l * k + c :=
    Nat.add_le_add_right (Nat.mul_le_mul_right k (h.polls l)) c
  have hround : (b.plane + 1) * roundCost p ≤ (b'.plane + 1) * roundCost p :=
    Nat.mul_le_mul_right _ (Nat.succ_le_succ h.plane)
  cases m
  case r1Poll | tokenPoll => exact Nat.succ_le_succ (h.polls _)
  case cmd0Loop | cmd0Test | a41Loop | cmd41Test | busyLoop | busySample => exact hloop _ _ _
  case refreshLoop => exact hround
  case refreshTest =>
    cases hb : b.chunk with
    | false => exact Micro.cost_refreshTest_of_empty hb p ▸ Micro.refreshTest.cost_pos p b'
    | true =>
      rw [Micro.cost_refreshTest_of_chunk hb, Micro.cost_refreshTest_of_chunk (h.chunk hb)]
      exact Nat.add_le_add_right hround _
  all_goals exact le_rfl

theorem cost_mono {b b' : Budget} (h : b.Within b') (p : Config.Params) (q : List Micro) :
    cost p b q ≤ cost p b' q := by
  induction q generalizing b b' with
  | nil => exact le_rfl
  | cons m q ih => exact Nat.add_le_add (m.cost_mono h p) (ih (h.after p m))

/-- What stands after a fault is caught costs no more than what stood before it. -/
theorem cost_catchPoint {q r : List Micro} (h : catchPoint q = some r) (p : Config.Params) (b b' : Budget) :
    cost p b r ≤ cost p b' q := by
  induction q generalizing b' with
  | nil => cases h
  | cons m q ih =>
    by_cases hm : m = .shutEnd
    · subst hm
      cases h
      exact le_rfl
    · rw [catchPoint_cons hm] at h
      exact (ih h _).trans (Nat.le_add_left _ _)

end Sys2Proof.Machine
end

section
/-! SUPPORT. Every micro-step of an engine with a finite POLL_LIMIT spends some of its bound: a loop's iteration counts
itself, a pull advances ITER_CUR, and what else a micro-step begins costs less than it (40_transport.md R133,
60_exceptions.md R288). -/

namespace Sys2Proof.Machine

/-! The budget of a state. -/

theorem Budget.Within.of_eq {b b' : Budget} (h : b = b') : b.Within b' := h ▸ .refl b

theorem Budget.Within.trans {a b c : Budget} (h : a.Within b) (h' : b.Within c) : a.Within c :=
  ⟨fun l => (h.polls l).trans (h'.polls l), h.plane.trans h'.plane, fun ha => h'.chunk (h.chunk ha)⟩

@[simp] theorem Budget.refill_polls_same (p : Config.Params) (l : Loop) (b : Budget) :
    (b.refill p l).polls l = limit p := Function.update_self _ _ _

@[simp] theorem Budget.refill_polls_ne (p : Config.Params) {l k : Loop} (h : k ≠ l) (b : Budget) :
    (b.refill p l).polls k = b.polls k := Function.update_of_ne h _ _

@[simp] theorem Budget.refill_plane (p : Config.Params) (l : Loop) (b : Budget) :
    (b.refill p l).plane = b.plane := rfl

@[simp] theorem Budget.refill_chunk (p : Config.Params) (l : Loop) (b : Budget) :
    (b.refill p l).chunk = b.chunk := rfl

theorem Budget.refill_refill (p : Config.Params) (l : Loop) (b : Budget) : (b.refill p l).refill p l = b.refill p l :=
  congrArg (fun polls => ({ b with polls } : Budget)) (Function.update_idem _ _ _)

@[simp] theorem budget_push (q : List Micro) (s : State) : budget (push q s) = budget s := rfl

theorem budget_polls_le (s : State) (l : Loop) : (budget s).polls l ≤ limit s.cfg := Nat.sub_le _ _

theorem pollCount_setPoll_ne {l k : Loop} (h : k ≠ l) (n : Option Nat) (s : State) :
    pollCount k (setPoll l n s) = pollCount k s := by
  cases l <;> cases k <;> first | rfl | exact absurd rfl h

/-- No state's budget is more than the full one. -/
theorem budget_within_full (s : State) : (budget s).Within (.full s.cfg) :=
  ⟨budget_polls_le s, (Nat.sub_le _ _).trans s.regs.iterEnd.isLt.le, fun _ => rfl⟩

theorem Budget.within_refill {p : Config.Params} {b : Budget} {l : Loop} (h : b.polls l ≤ limit p) :
    b.Within (b.refill p l) := by
  refine ⟨fun k => ?_, le_rfl, id⟩
  by_cases hk : k = l
  · subst hk
    simpa using h
  · simp [hk]

theorem budget_within_refill (s : State) (l : Loop) : (budget s).Within ((budget s).refill s.cfg l) :=
  Budget.within_refill (budget_polls_le s l)

/-- A command or a data phase leaves the budgets of its poll at most full. -/
theorem budget_within_transfers (s : State) :
    (budget s).Within (((budget s).refill s.cfg .r1).refill s.cfg .tok) :=
  (budget_within_refill s .r1).trans (Budget.within_refill (by simpa using budget_polls_le s .tok))

/-- Where a counter is set, its loop's budget is at most POLL_LIMIT. -/
theorem budget_setPoll (l : Loop) (n : Option Nat) (s : State) :
    (budget (setPoll l n s)).Within ((budget s).refill s.cfg l) := by
  refine ⟨fun k => ?_, by simp [budget], by simp [budget]⟩
  by_cases hk : k = l
  · subst hk
    simp [budget]
  · simp [budget, hk, pollCount_setPoll_ne hk]

/-- Counting an iteration leaves a smaller budget. -/
theorem budget_counted {l : Loop} {n : Nat} {s : State} (h : n = (pollCount l s).getD 0 + 1) :
    (budget (setPoll l (some n) s)).Within (budget s) := by
  refine ⟨fun k => ?_, by simp [budget], by simp [budget]⟩
  by_cases hk : k = l
  · subst hk
    simp only [budget, pollCount_setPoll, setPoll_cfg, Option.getD_some]
    omega
  · simp [budget, pollCount_setPoll_ne hk]

/-- An iteration within the bound takes one from its loop's budget. -/
theorem budget_polls_counted {l : Loop} {n : Nat} {s : State} {k : Nat} (hk : s.cfg.pollLimit = some k)
    (hn : aboveLimit s.cfg.pollLimit n = false) (hc : n = (pollCount l s).getD 0 + 1) :
    (budget s).polls l = (budget (setPoll l (some n) s)).polls l + 1 := by
  have hle : n ≤ k := by simpa [aboveLimit, hk] using hn
  simp only [budget, limit, pollCount_setPoll, setPoll_cfg, hk, Option.getD_some]
  omega

/-! What a micro-step spends. -/

/-- The bound on the micro-steps a state can still run. -/
def stepsLeft (s : State) : Nat := cost s.cfg (budget s) s.ctl.seq

/-- What a micro-step puts in front of the steps after it costs less than the micro-step, and leaves no more. -/
structure Spends (m : Micro) (s t : State) (pre : List Micro) : Prop where
  cfg : t.cfg = s.cfg
  seq : t.ctl.seq = pre ++ s.ctl.seq
  less : cost s.cfg (budget t) pre < m.cost s.cfg (budget s)
  within : ((budget t).afterAll s.cfg pre).Within ((budget s).after s.cfg m)

theorem stepsLeft_lt_of_spends {m : Micro} {s t : State} (h : ∃ pre, Spends m s t pre) :
    stepsLeft t < stepsLeft (setSeq (m :: s.ctl.seq) s) := by
  obtain ⟨pre, hcfg, hseq, hless, hwithin⟩ := h
  rw [stepsLeft, hcfg, hseq, cost_append]
  exact Nat.add_lt_add_of_lt_of_le hless (cost_mono hwithin _ _)

/-- A micro-step that is done at once. -/
theorem Spends.done {m : Micro} {s t : State} (hcfg : t.cfg = s.cfg) (hseq : t.ctl.seq = s.ctl.seq)
    (hwithin : (budget t).Within ((budget s).after s.cfg m)) : Spends m s t [] :=
  ⟨hcfg, hseq, m.cost_pos _ _, hwithin⟩

/-! Bytes and transactions. -/

/-- The bytes left to write go back in front of the steps still to run. -/
theorem spends_writeRest {p : Port} {b : Byte} {bs : List Byte} {s t : State} (hcfg : t.cfg = s.cfg)
    (hseq : t.ctl.seq = if bs = [] then s.ctl.seq else .spiWrite p bs :: s.ctl.seq) (hb : budget t = budget s) :
    ∃ pre, Spends (.spiWrite p (b :: bs)) s t pre := by
  have hwithin : (budget t).Within (budget s) := hb ▸ .refl _
  split at hseq
  · exact ⟨_, .done hcfg hseq hwithin⟩
  · exact ⟨[.spiWrite p bs], hcfg, hseq, by simp [cost, Micro.cost], hwithin⟩

/-- The bytes of BUF left to send, or to receive, go back in front of the steps still to run. -/
theorem spends_bufRest {m : Nat → Micro} {i n : Nat} {s t : State}
    (hm : ∀ p b k, (m k).cost p b = n - k + 1 ∧ Budget.after p b (m k) = b) (hcfg : t.cfg = s.cfg)
    (hseq : t.ctl.seq = if i + 1 < n then m (i + 1) :: s.ctl.seq else s.ctl.seq) (hb : budget t = budget s) :
    ∃ pre, Spends (m i) s t pre := by
  have hwithin : (budget t).Within ((budget s).after s.cfg (m i)) := by
    rw [hb, (hm _ _ _).2]
    exact .refl _
  split at hseq
  · refine ⟨[m (i + 1)], hcfg, hseq, ?_, ?_⟩
    · simp only [cost, hm]
      omega
    · rwa [Budget.afterAll, List.foldl_cons, (hm _ _ _).2]
  · exact ⟨_, .done hcfg hseq hwithin⟩

/-- A display opcode costs its transaction and that of its data bytes. -/
theorem spends_dispOp (b : Byte) (s : State) :
    ∃ pre, Spends (.dispOp b) s (startDispOp b (displayData s.cfg b) s) pre := by
  by_cases h : displayData s.cfg b = []
  · rw [startDispOp, if_pos h]
    exact ⟨[.select .D, .spiWrite .D [b], .deselect .D], rfl, rfl, by simp [cost, Micro.cost, h], .refl _⟩
  · rw [startDispOp, if_neg h]
    refine ⟨[.select .D, .spiWrite .D [b], .deselect .D, .dispData (displayData s.cfg b)], rfl, rfl, ?_, .refl _⟩
    simp only [cost, Micro.cost, List.length_singleton]
    omega

/-! The pull, and the refresh's loop over it. -/

theorem spends_pullChunk {s : State} (h : s.regs.iterCur < s.regs.iterEnd) :
    Spends .itPull s (push [.dataPhase (nextChunk s.regs), .setChunkLen (nextChunk s.regs)] (advanced s))
      [.dataPhase (nextChunk s.regs), .setChunkLen (nextChunk s.regs)] := by
  have hcur := advanced_iterCur_toNat h
  have hpos := nextChunk_pos h
  have hmax := nextChunk_le_max s.regs
  have hless : s.regs.iterCur.toNat < s.regs.iterEnd.toNat := h
  refine ⟨rfl, rfl, ?_, ((budget_within_refill s .r1).refill _ .tok).polls, ?_, fun _ => ?_⟩
  · simp only [cost, Micro.cost, pullCost, phaseCost, frameCost]
    omega
  · show s.regs.iterEnd.toNat - (advanced s).regs.iterCur.toNat ≤ s.regs.iterEnd.toNat - s.regs.iterCur.toNat - 1
    omega
  · exact decide_eq_true (show s.regs.iterEnd.toNat - s.regs.iterCur.toNat ≠ 0 by omega)

theorem budget_plane_ended {s : State} (h : ¬ s.regs.iterCur < s.regs.iterEnd) : (budget s).plane = 0 :=
  Nat.sub_eq_zero_of_le (Nat.not_lt.mp h)

theorem spends_pullLast {s : State} (h : ¬ s.regs.iterCur < s.regs.iterEnd) :
    Spends .itPull s (push [frameCmd12 s.cfg, .pullEnd] s) [frameCmd12 s.cfg, .pullEnd] := by
  have htok : ((budget s).refill s.cfg .r1).polls .tok ≤ limit s.cfg := by simpa using budget_polls_le s .tok
  refine ⟨rfl, rfl, ?_, (Budget.within_refill htok).polls, (budget_plane_ended h).le.trans (Nat.zero_le _), nofun⟩
  simp only [cost, Micro.cost, frameCmd12, pullCost, phaseCost, frameCost]
  omega

/-- Past the plane's end a pull leaves CHUNK_LEN = 0, so the loop ends; before it, the pull leaves less to pull. -/
theorem cost_refreshRound (p : Config.Params) (b : Budget) :
    cost p b [.itPull, .refreshTest] < Micro.refreshLoop.cost p b := by
  show pullCost p + (Micro.refreshTest.cost p (b.after p .itPull) + 0) < (b.plane + 1) * roundCost p
  cases h : b.plane with
  | zero =>
    rw [Micro.cost_refreshTest_of_empty (by simp [Budget.after, h]), roundCost]
    omega
  | succ k =>
    rw [Micro.cost_refreshTest_of_chunk (by simp [Budget.after, h]), Nat.add_one_mul (k + 1),
      show (b.after p .itPull).plane = k by simp [Budget.after, h], roundCost]
    omega

theorem spends_refreshLoop (s : State) :
    Spends .refreshLoop s (stepRefreshLoop s) [.itPull, .refreshTest] := by
  refine ⟨rfl, rfl, cost_refreshRound _ _, fun l => ?_, Nat.sub_le _ _, fun _ => rfl⟩
  cases l <;> simp [Budget.afterAll, Budget.after, stepRefreshLoop]

theorem spends_refreshAgain {s : State} (h : s.regs.chunkLen ≠ 0#10) :
    Spends .refreshTest s (push [.dispBuf s.regs.chunkLen.toNat, .refreshLoop] s)
      [.dispBuf s.regs.chunkLen.toNat, .refreshLoop] := by
  have hlen : s.regs.chunkLen.toNat < 1024 := s.regs.chunkLen.isLt
  refine ⟨rfl, rfl, ?_, .refl _⟩
  rw [Micro.cost_refreshTest_of_chunk (by simpa [budget] using h)]
  show s.regs.chunkLen.toNat + 8 + (((budget s).plane + 1) * roundCost s.cfg + 0) < _
  omega

/-! The loops. -/

/-- A loop whose budget an iteration has taken one from. -/
theorem cost_counted {n n' k c : Nat} (h : n = n' + 1) (hc : c < k) : c + n' * k < n * k := by
  rw [h, Nat.add_one_mul]
  omega

theorem spends_pollAgain {l : Loop} {m : Micro} {n k : Nat} {s t : State} (hk : s.cfg.pollLimit = some k)
    (hn : aboveLimit s.cfg.pollLimit n = false) (hc : n = (pollCount l s).getD 0 + 1)
    (hm : ∀ p b, m.cost p b = b.polls l + 1 ∧ Budget.after p b m = b.refill p l) (hcfg : t.cfg = s.cfg)
    (hseq : t.ctl.seq = m :: s.ctl.seq) (hb : budget t = budget (setPoll l (some n) s)) : Spends m s t [m] := by
  refine ⟨hcfg, hseq, ?_, ?_⟩
  · simp only [cost, hm, hb, budget_polls_counted hk hn hc]
    omega
  · rw [Budget.afterAll, List.foldl_cons, List.foldl_nil, (hm _ _).2, (hm _ _).2, hb]
    exact (budget_counted hc).refill _ _

theorem spends_cmd0Loop {n k : Nat} {s : State} (hk : s.cfg.pollLimit = some k)
    (hn : aboveLimit s.cfg.pollLimit n = false) (hc : n = s.ctl.poll.cmd0.getD 0 + 1) :
    Spends .cmd0Loop s (push [frameCmd0, .cmd0Test] (setPoll .cmd0 (some n) s)) [frameCmd0, .cmd0Test] := by
  refine ⟨rfl, rfl, ?_, ?_⟩
  · have hless := cost_counted (c := frameCost s.cfg + 3) (k := frameCost s.cfg + 4)
      (budget_polls_counted (l := .cmd0) hk hn hc) (by omega)
    have hkept := Budget.refill_polls_ne s.cfg (show Loop.cmd0 ≠ .r1 by decide)
    simp only [cost, Micro.cost, frameCmd0, Budget.after, budget_push, hkept]
    omega
  · have hwithin := ((budget_counted (l := .cmd0) hc).refill s.cfg .r1).refill s.cfg .cmd0
    rwa [← Budget.refill_refill s.cfg .r1 (budget (setPoll .cmd0 (some n) s))] at hwithin

theorem spends_a41Loop {n k : Nat} {s : State} (hk : s.cfg.pollLimit = some k)
    (hn : aboveLimit s.cfg.pollLimit n = false) (hc : n = s.ctl.poll.a41.getD 0 + 1) :
    Spends .a41Loop s (push [frameCmd55 s.cfg, frameCmd41 s.cfg, .cmd41Test] (setPoll .a41 (some n) s))
      [frameCmd55 s.cfg, frameCmd41 s.cfg, .cmd41Test] := by
  refine ⟨rfl, rfl, ?_, ?_⟩
  · have hless := cost_counted (c := frameCost s.cfg + frameCost s.cfg + 3) (k := frameCost s.cfg + frameCost s.cfg + 4)
      (budget_polls_counted (l := .a41) hk hn hc) (by omega)
    have hkept := Budget.refill_polls_ne s.cfg (show Loop.a41 ≠ .r1 by decide)
    simp only [cost, Micro.cost, frameCmd55, frameCmd41, Budget.after, budget_push, hkept]
    omega
  · have hwithin := ((budget_counted (l := .a41) hc).refill s.cfg .r1).refill s.cfg .a41
    rwa [← Budget.refill_refill s.cfg .r1 (budget (setPoll .a41 (some n) s)),
      ← Budget.refill_refill s.cfg .r1 (budget (setPoll .a41 (some n) s))] at hwithin

theorem spends_busyLoop {n k : Nat} {s : State} (hk : s.cfg.pollLimit = some k)
    (hn : aboveLimit s.cfg.pollLimit n = false) (hc : n = s.ctl.poll.bsy.getD 0 + 1) :
    Spends .busyLoop s (push [.dispOp 0x71#8, .busySample] (setPoll .bsy (some n) s))
      [.dispOp 0x71#8, .busySample] := by
  refine ⟨rfl, rfl, ?_, (budget_counted (l := .bsy) hc).refill s.cfg .bsy⟩
  have hless := cost_counted (c := 20) (k := waitCost) (budget_polls_counted (l := .bsy) hk hn hc) (by decide)
  show 0 + 16 + ((budget (setPoll .bsy (some n) s)).polls .bsy * waitCost + 3 + 0) <
    (budget s).polls .bsy * waitCost + 1
  omega

theorem spends_redFill {n : Nat} (h : n ≠ 0) {s t : State} (hcfg : t.cfg = s.cfg)
    (hseq : t.ctl.seq = .dispData (List.replicate (min 512 n) 0x00#8) :: .redFill (n - 512) :: s.ctl.seq)
    (hb : budget t = budget s) :
    Spends (.redFill n) s t [.dispData (List.replicate (min 512 n) 0x00#8), .redFill (n - 512)] := by
  refine ⟨hcfg, hseq, ?_, hb ▸ .refl _⟩
  simp only [cost, Micro.cost, List.length_replicate]
  omega

/-! Every micro-step. -/

/-- A fault that no return point of `Shutdown()` catches has been raised. -/
structure Halts (m : Micro) (s t : State) : Prop where
  mayRaise : m.mayRaise = true
  tearing : m = .shutRet → s.ctl.tearing = false
  uncaught : catchPoint s.ctl.seq = none
  halt : ∃ c u, t = halt c u

/-- A fault that is caught leaves the steps from the return point on. -/
theorem stepsLeft_raise (c : FaultCode) (m : Micro) {s u : State} (hcfg : u.cfg = s.cfg)
    (hseq : u.ctl.seq = s.ctl.seq) :
    stepsLeft (raise c u) < stepsLeft (setSeq (m :: s.ctl.seq) s) ∨
      (catchPoint s.ctl.seq = none ∧ ∃ c' u', raise c u = halt c' u') := by
  rcases raise_cases c u with ⟨q, hcatch, e⟩ | ⟨hcatch, e⟩
  · refine .inl ?_
    rw [stepsLeft, raise_cfg, hcfg, e]
    rw [hseq] at hcatch
    exact (cost_catchPoint hcatch s.cfg _ _).trans_lt (Nat.lt_add_of_pos_left (m.cost_pos _ _))
  · exact .inr ⟨hseq ▸ hcatch, c, u, e⟩

/-- A micro-step spends some of the bound, or halts. -/
theorem moved_stepsLeft {m : Micro} {s t : State} {k : Nat} (h : Moved m s t) (hk : s.cfg.pollLimit = some k)
    (hop : ∀ b, m ≠ .dispOp b) : stepsLeft t < stepsLeft (setSeq (m :: s.ctl.seq) s) ∨ Halts m s t := by
  cases h
  case raised c _ _ _ _ hm _ _ htear =>
    refine Or.imp_right (fun ⟨hcatch, hhalt⟩ => ⟨hm, htear, hcatch, hhalt⟩) (stepsLeft_raise c m ?_ ?_) <;> rfl
  case haltEnd => exact .inl (Nat.lt_add_right _ (Micro.haltEnd.cost_pos _ _))
  all_goals refine .inl (stepsLeft_lt_of_spends ?_)
  case opcode b _ => exact absurd rfl (hop b)
  case enter l => exact ⟨[], .done (setPoll_cfg _ _ _) (setPoll_seq _ _ _) (budget_setPoll l _ s)⟩
  case writeS | writeD => exact spends_writeRest rfl rfl rfl
  case sendBuf i n _ _ hi _ => exact spends_bufRest (m := (.sendBuf · n)) (fun _ _ _ => ⟨rfl, rfl⟩) rfl rfl rfl
  case payload i n _ _ _ hi _ _ => exact spends_bufRest (m := (.payload · n)) (fun _ _ _ => ⟨rfl, rfl⟩) rfl rfl rfl
  case frame w w' =>
    refine ⟨[.spiWrite .S (frameBytes w'), .enter .r1, .r1Poll, .deselect .S, .spiWrite .S [0xFF#8]], rfl, rfl, ?_, ?_⟩
    · simp only [cost, Micro.cost, Budget.after, Budget.refill_polls_same, frameBytes, frameCost, List.length_cons,
        List.length_nil]
      omega
    · exact .of_eq (Budget.refill_refill s.cfg .r1 (budget s))
  case dataPhase n =>
    refine ⟨[.enter .tok, .tokenPoll, .payload 0 n, .trailer, .trailer, .deselect .S], rfl, rfl, ?_, ?_⟩
    · simp only [cost, Micro.cost, Budget.after, Budget.refill_polls_same, phaseCost]
      omega
    · exact .of_eq (Budget.refill_refill s.cfg .tok (budget s))
  case r1Again n _ _ _ hn hc =>
    exact ⟨_, spends_pollAgain (l := .r1) hk hn hc (fun _ _ => ⟨rfl, rfl⟩) rfl rfl rfl⟩
  case tokenAgain n _ _ _ hn hc =>
    exact ⟨_, spends_pollAgain (l := .tok) hk hn hc (fun _ _ => ⟨rfl, rfl⟩) rfl rfl rfl⟩
  case r1Got => exact ⟨[], .done rfl rfl (budget_setPoll .r1 none s)⟩
  case tokenGot => exact ⟨[], .done rfl rfl (budget_setPoll .tok none s)⟩
  case cmd0Loop hn hc => exact ⟨_, spends_cmd0Loop hk hn hc⟩
  case cmd0End =>
    exact ⟨[], .done rfl rfl ((budget_setPoll .cmd0 none s).trans ((budget_within_refill s .r1).refill _ .cmd0))⟩
  case cmd0Again => exact ⟨[.cmd0Loop], rfl, rfl, Nat.lt_succ_self _, .refl _⟩
  case a41Enter => exact ⟨[], .done rfl rfl (budget_setPoll .a41 (some 0) s)⟩
  case a41Loop hn hc => exact ⟨_, spends_a41Loop hk hn hc⟩
  case cmd41End =>
    exact ⟨[], .done rfl rfl ((budget_setPoll .a41 none s).trans ((budget_within_refill s .r1).refill _ .a41))⟩
  case cmd41Again => exact ⟨[.a41Loop], rfl, rfl, Nat.lt_succ_self _, .refl _⟩
  case itBegin =>
    exact ⟨[], .done rfl rfl ⟨fun _ => le_rfl, (Nat.sub_le _ _).trans (BitVec.isLt _).le, nofun⟩⟩
  case pullChunk h => exact ⟨_, spends_pullChunk h⟩
  case pullLast h _ => exact ⟨_, spends_pullLast h⟩
  case pullAfter h _ =>
    exact ⟨[], .done rfl rfl
      ⟨(budget_within_transfers s).polls, (budget_plane_ended h).le.trans (Nat.zero_le _), nofun⟩⟩
  case setChunkLen => exact ⟨[], .done rfl rfl ⟨fun _ => le_rfl, le_rfl, fun _ => rfl⟩⟩
  case pullEnd => exact ⟨[], .done rfl rfl ⟨fun _ => le_rfl, le_rfl, nofun⟩⟩
  case dropSends =>
    refine ⟨[frameCmd12 s.cfg, .dropEnd], rfl, rfl, ?_, .refl _⟩
    simp [cost, Micro.cost, frameCmd12]
  case dropClears =>
    exact ⟨[], .done rfl rfl ⟨(budget_within_refill s .r1).polls, le_rfl, nofun⟩⟩
  case dropEnd => exact ⟨[], .done rfl rfl ⟨fun _ => le_rfl, le_rfl, nofun⟩⟩
  case dispCmd b =>
    exact ⟨[.select .D, .spiWrite .D [b], .deselect .D], rfl, rfl, by simp [cost, Micro.cost], .refl _⟩
  case dispData bs =>
    refine ⟨[.select .D, .spiWrite .D bs, .deselect .D], rfl, rfl, ?_, .refl _⟩
    simp only [cost, Micro.cost]
    omega
  case dispBuf n =>
    refine ⟨[.select .D, .sendBuf 0 n, .deselect .D], rfl, rfl, ?_, .refl _⟩
    simp only [cost, Micro.cost]
    omega
  case busyLoop hn hc => exact ⟨_, spends_busyLoop hk hn hc⟩
  case busyAgain =>
    refine ⟨[.hold .tPoll, .busyLoop], rfl, rfl, ?_, .refl _⟩
    show 1 + ((budget s).polls .bsy * waitCost + 1 + 0) < (budget s).polls .bsy * waitCost + 3
    omega
  case busyDone => exact ⟨[], .done rfl rfl (budget_setPoll .bsy none s)⟩
  case refreshLoop => exact ⟨_, spends_refreshLoop s⟩
  case refreshEnd => exact ⟨[], .done rfl rfl ⟨(budget_within_transfers s).polls, le_rfl, fun _ => rfl⟩⟩
  case refreshAgain h => exact ⟨_, spends_refreshAgain h⟩
  case redFill h => exact ⟨_, spends_redFill h rfl rfl rfl⟩
  case shutDeselect => exact ⟨[], .done rfl rfl (budget_within_full s)⟩
  case shutEnd => exact ⟨[], .done rfl rfl (budget_within_full _)⟩
  all_goals exact ⟨[], .done rfl rfl (.refl _)⟩

/-- Every micro-step spends some of the bound, or halts. -/
theorem microStep_stepsLeft {m : Micro} {s t : State} {k : Nat} (h : microStep m s = .next t)
    (hk : s.cfg.pollLimit = some k) : stepsLeft t < stepsLeft (setSeq (m :: s.ctl.seq) s) ∨ Halts m s t := by
  by_cases hop : ∃ b, m = .dispOp b
  · obtain ⟨b, rfl⟩ := hop
    rw [microStep_dispOp_any] at h
    cases h
    exact .inl (stepsLeft_lt_of_spends (spends_dispOp b s))
  · exact moved_stepsLeft (microStep_moved h) hk fun b hb => hop ⟨b, hb⟩

end Sys2Proof.Machine
end

section
/-! Settles the statement that with a finite POLL_LIMIT every operation ends: a halt ends because its `Shutdown()`
catches every fault, and an operation ends or halts (60_exceptions.md R288, 70_reset_and_hazards.md R316). -/

namespace Sys2Proof.Machine

/-! The halt sequence raises no fault that is not caught. -/

/-- Micro-steps that raise no fault while a halt runs, and begin nothing. -/
def Micro.quiet : Micro → Bool
  | .deselect _ => true
  | .drive _ _ => true
  | .shutEnd => true
  | .shutRet => true
  | .haltEnd => true
  | _ => false

/-- Every micro-step is quiet, or stands before the return point of `Shutdown()`. -/
def guarded : List Micro → Bool
  | [] => true
  | m :: q => (m.quiet || (catchPoint q).isSome) && guarded q

theorem guarded_cons {m : Micro} {q : List Micro} :
    guarded (m :: q) = true ↔ (m.quiet = true ∨ (catchPoint q).isSome = true) ∧ guarded q = true := by
  rw [guarded, Bool.and_eq_true, Bool.or_eq_true]

theorem guarded_suffix {q r : List Micro} (h : r <:+ q) (hq : guarded q = true) : guarded r = true := by
  induction q with
  | nil => rwa [List.suffix_nil.mp h]
  | cons m q ih =>
    rcases List.suffix_cons_iff.mp h with rfl | h
    · exact hq
    · exact ih h (guarded_cons.mp hq).2

theorem guarded_append {pre q : List Micro} (hpre : Micro.shutEnd ∉ pre) (hc : (catchPoint q).isSome = true)
    (hq : guarded q = true) : guarded (pre ++ q) = true := by
  induction pre with
  | nil => exact hq
  | cons m pre ih =>
    have hpre' : Micro.shutEnd ∉ pre := fun h => hpre (List.mem_cons_of_mem _ h)
    have hcatch : (catchPoint (pre ++ q)).isSome = true := by rwa [catchPoint_append hpre']
    exact guarded_cons.mpr ⟨.inr hcatch, ih hpre'⟩

theorem teardown_guarded (s : State) : guarded (teardown s) = true := by
  rw [teardown]
  split <;> split <;> split <;> decide

theorem expansion_quiet {m : Micro} {pre : List Micro} (h : Expansion m pre) (hm : m.quiet = true) : pre = [] := by
  cases h <;> first | rfl | cases hm

/-- A micro-step leaves the steps still to run guarded. -/
theorem moved_guarded {m : Micro} {s t : State} (h : Moved m s t) (hs : guarded (m :: s.ctl.seq) = true) :
    guarded t.ctl.seq = true := by
  obtain ⟨hm, hrest⟩ := guarded_cons.mp hs
  cases moved_seq h with
  | raised c u _ _ _ _ hseq e =>
    subst e
    rcases raise_seq c u with ⟨p, hp, e, -⟩ | ⟨-, e⟩ <;> rw [e]
    · exact guarded_suffix (catchPoint_suffix hp) (hseq ▸ hrest)
    · exact teardown_guarded u
  | halted _ e => rw [e]; rfl
  | returned _ _ _ hseq => rwa [hseq]
  | begun pre _ hx _ _ hseq =>
    rw [hseq]
    rcases hm with hquiet | hcatch
    · rwa [expansion_quiet hx hquiet]
    · exact guarded_append (expansion_shutEnd hx) hcatch hrest

/-- Only the end of a halt ends it. -/
theorem moved_tearing {m : Micro} {s t : State} (h : Moved m s t) (hm : m ≠ .haltEnd) (hs : s.ctl.tearing = true) :
    t.ctl.tearing = true := by
  cases h
  case raised c _ _ _ _ _ _ _ _ =>
    rcases raise_cases c _ with ⟨q, -, e⟩ | ⟨-, e⟩ <;> rw [e]
    · exact hs
    · rfl
  case enter => rwa [setPoll_tearing]
  case haltEnd => exact absurd rfl hm
  all_goals exact hs

/-- Of the quiet micro-steps only the return of `Shutdown()` may raise a fault, and in a halt it does not. -/
theorem eq_shutRet_of_quiet {m : Micro} (hq : m.quiet = true) (hm : m.mayRaise = true) : m = .shutRet := by
  cases m <;> first | rfl | exact absurd hq Bool.false_ne_true | exact absurd hm Bool.false_ne_true

/-- A guarded micro-step of a halt raises no fault that is not caught. -/
theorem not_halts_of_guarded {m : Micro} {s t : State} (hs : guarded (m :: s.ctl.seq) = true)
    (htear : s.ctl.tearing = true) : ¬ Halts m s t := by
  intro h
  rcases (guarded_cons.mp hs).1 with hquiet | hcatch
  · exact absurd (htear.symm.trans (h.tearing (eq_shutRet_of_quiet hquiet h.mayRaise))) (by decide)
  · rw [h.uncaught] at hcatch
    cases hcatch

/-! Running to the end. -/

/-- The engine runs an operation or a halt by itself, within its bounds and with POLL_LIMIT = k. -/
structure Working (k : Nat) (s : State) : Prop where
  live : Live s
  limited : s.cfg.pollLimit = some k
  bounded : StepsBounded s

/-- The engine reaches the end of what it runs. -/
def Finishes (s : State) : Prop := ∃ t, Reaches s t ∧ t.regs.running = false ∧ t.ctl.seq = []

theorem Finishes.head {s t : State} (h : step s = .next t) : Finishes t → Finishes s
  | ⟨u, hrun, hu⟩ => ⟨u, hrun.head h, hu⟩

/-- An undisturbed engine stays so. -/
theorem undisturbed_step {s t : State} (hu : Undisturbed s) (h : step s = .next t) : Undisturbed t := by
  rw [step_undisturbed hu] at h
  have hnext := engineStep_setSched [] s
  rw [setSched_self hu, h] at hnext
  rw [Host.Outcome.next.inj hnext]
  rfl

theorem moved_running {m : Micro} {s t : State} (h : Moved m s t) (hm : m ≠ .haltEnd) :
    t.regs.running = s.regs.running := by
  cases moved_seq h with
  | raised c u _ _ hregs _ _ e =>
    subst e
    rcases raise_regs c u with e | e <;> rw [e] <;> rw [← hregs]
  | halted hm' => exact absurd hm' hm
  | returned _ _ hregs => rw [hregs]
  | begun _ _ _ _ hrun => exact hrun

/-- A working engine finishes in its next step, or works on after one of its micro-steps. -/
theorem Working.step {k : Nat} {s : State} (h : Working k s) :
    Finishes s ∨ ∃ m q t, s = setSeq (m :: q) s ∧ Machine.step s = .next t ∧ microStep m (setSeq q s) = .next t ∧
      m ≠ .haltEnd ∧ Working k t := by
  obtain ⟨⟨hu, hr⟩, hk, hbounded⟩ := h
  obtain ⟨t, ht⟩ := engineStep_answers hbounded
  have hstep : Machine.step s = .next t := (step_undisturbed hu).trans ht
  cases hq : s.ctl.seq with
  | nil => exact .inl ⟨_, Reaches.done hu hr hq, rfl, rfl⟩
  | cons m q =>
    rw [engineStep_micro hr hq] at ht
    have hmoved := microStep_moved ht
    by_cases hm : m = .haltEnd
    · subst hm
      cases ht
      exact .inl ⟨_, Reaches.single hstep, rfl, rfl⟩
    · refine .inr ⟨m, q, t, by rw [← hq]; rfl, hstep, ht, hm, ⟨undisturbed_step hu hstep, ?_⟩, ?_, ?_⟩
      · exact (moved_running hmoved hm).trans hr
      · exact (congrArg Config.Params.pollLimit (moved_cfg hmoved)).trans hk
      · exact stepsStayBounded s t hbounded hstep

/-- A halt finishes. -/
theorem finishes_of_guarded {k : Nat} {s : State} (h : Working k s) (htear : s.ctl.tearing = true)
    (hs : guarded s.ctl.seq = true) : Finishes s := by
  induction hn : stepsLeft s using Nat.strong_induction_on generalizing s with
  | _ n ih =>
    rcases h.step with hdone | ⟨m, q, t, hseq, hstep, ht, hm, hworking⟩
    · exact hdone
    · rw [hseq] at hs hn
      have hless := (microStep_stepsLeft ht h.limited).resolve_right (not_halts_of_guarded hs htear)
      have hmoved := microStep_moved ht
      exact (ih _ (hn ▸ hless) hworking (moved_tearing hmoved hm htear) (moved_guarded hmoved hs) rfl).head hstep

/-- An operation finishes, or halts and so finishes. -/
theorem finishes_of_working {k : Nat} {s : State} (h : Working k s) : Finishes s := by
  induction hn : stepsLeft s using Nat.strong_induction_on generalizing s with
  | _ n ih =>
    rcases h.step with hdone | ⟨m, q, t, hseq, hstep, ht, hm, hworking⟩
    · exact hdone
    · refine Finishes.head hstep ?_
      rcases microStep_stepsLeft ht h.limited with hless | hhalts
      · rw [hseq] at hn
        exact ih _ (hn ▸ hless) hworking rfl
      · obtain ⟨c, u, rfl⟩ := hhalts.halt
        exact finishes_of_guarded hworking rfl (teardown_guarded u)

/-- Settles O60: every micro-step spends some of a bound on the steps still to run (`microStep_stepsLeft`) or halts, and
a halt raises no fault that is not caught (`not_halts_of_guarded`). -/
theorem boundedEngineFinishes : Obligations.BoundedEngineFinishes := by
  intro s n hn hbounded hu
  cases hr : s.regs.running with
  | false => exact ⟨s, Reaches.refl s, hr, nofun⟩
  | true =>
    obtain ⟨t, hrun, ht, hseq⟩ := finishes_of_working ⟨⟨hu, hr⟩, hn, hbounded⟩
    exact ⟨t, hrun, ht, fun _ => hseq⟩

end Sys2Proof.Machine
end

section
/-! Settles the statements about reset and hazards: host writes dropped while RUNNING = 1, and the parameters that no step
writes. -/

namespace Sys2Proof.Machine

/-- While RUNNING = 1 a host write other than to CMD stores nothing (20_memory.md R87). -/
theorem writeWord_running {s : State} (hr : s.regs.running = true) (offset : Nat) (v : Word) :
    writeWord offset v s = s := if_pos hr

theorem issued_cfg {s t : State} (h : Issued s t) : t.cfg = s.cfg := by cases h <;> rfl

/-- Settles O46: ARG, LEN and every BUF word are aligned words other than CMD, so the turn is a store
(`step_write_word`), which RUNNING = 1 drops (`writeWord_running`). -/
theorem writesDroppedWhileRunning : Obligations.WritesDroppedWhileRunning := by
  intro s offset v q hq hr hoffset
  obtain ⟨h4, h0, hlt⟩ : offset % 4 = 0 ∧ offset ≠ 0x000 ∧ offset < 0x400 := by omega
  rw [step_write_word hq h4 h0 hlt, writeWord_running (s := setSched q s) hr]
  rfl

/-- Settles O49: a reset keeps the parameters, a host access and the end of an operation write other fields, and so do an
issue (`issued_cfg`) and a micro-step (`moved_cfg`). -/
theorem parametersNeverChange : Obligations.ParametersNeverChange := by
  intro s t h
  cases step_turned h with
  | reset => rfl
  | nothing => rfl
  | done => rfl
  | read => rfl
  | write q offset v => exact writeWord_cfg offset v (setSched q s)
  | issue q w _ _ ht => exact issued_cfg (s := setSched q s) (issueWord_issued ht)
  | micro q _ m rest _ _ _ ht => exact moved_cfg (s := setSeq rest (setSched q s)) (microStep_moved ht)

end Sys2Proof.Machine
end
